-- ==== Sys2Proof/Word.lean ====
section
/-! DEFINITION. The word types of SHA256_CORE (spec/00_scope.md R7, R9): every value is an unsigned
bit vector of a fixed width, and no value is signed. -/

namespace Sys2Proof

/-- `u8`: a message byte, a byte of the block buffer, an ASCII character of the digest (R7, R9). -/
abbrev Byte := BitVec 8

/-- `u32`: a datapath word (R7 WORD_BITS). Its `+` is the spec's `+32`, addition modulo 2^32 (R12). -/
abbrev Word := BitVec 32

/-- `u64`: the length counter and the length field (R7 LEN_FIELD_BITS, R30). -/
abbrev LenWord := BitVec 64

/-- A 16-bit command word, as the host hands it to the command port (R9, R80). -/
abbrev Cmd := BitVec 16

/-- A 16-bit response word (R9, R85). -/
abbrev Resp := BitVec 16

end Sys2Proof
end

