-- ==== Sys2Proof/Config.lean ====
section
/-! DEFINITION. What an implementation fixes: the sizes of spec/00_scope.md R7 and the range and the
default of the one parameter, MAX_MSG_BYTES (R8). The value of the parameter stands in
`Machine.State.maxMsgBytes`, which no step writes, so that a claim over every state is a claim over
every value of the parameter (notes/assumptions/3.md). The model has no free value: the spec leaves
no result of an operation undefined (spec/93_implementation_defined.md section 1). -/

namespace Sys2Proof.Config

/-- BLOCK_BYTES of R7. -/
abbrev blockBytes : Nat := 64

/-- BLOCK_WORDS of R7. -/
abbrev blockWords : Nat := 16

/-- SCHED_WORDS of R7. -/
abbrev schedWords : Nat := 64

/-- ROUNDS of R7; also K_WORDS, one constant a round. -/
abbrev rounds : Nat := 64

/-- HASH_WORDS of R7. -/
abbrev hashWords : Nat := 8

/-- DIGEST_CHARS of R7. -/
abbrev digestChars : Nat := 64

/-- The values MAX_MSG_BYTES may take: `0 ≤ MAX_MSG_BYTES ≤ 2^61 − 1` (R8). -/
abbrev MaxMsgBytes := Fin (2 ^ 61)

/-- The default of MAX_MSG_BYTES, `2^61 − 1` (R8). -/
def defaultMaxMsgBytes : MaxMsgBytes := ⟨2 ^ 61 - 1, by decide⟩

end Sys2Proof.Config
end

