-- ==== Sys2Proof/Syntax.lean ====
section
/-! DEFINITION. The instructions of SHA256_CORE: one constructor per row of spec/opcode_table.json.
In this spec an instruction is either a host command or an internal operation of the engine
(spec/00_scope.md R3). -/

namespace Sys2Proof

/-- The instructions. The first seven are host commands (format CMD), the last six the engine's
internal operations (format FSM), which take no operand (R88). -/
inductive Instr where
  /-- NOP, R203. -/
  | nop
  /-- START, R204. -/
  | start
  /-- DATA b, R205: `b` is the message byte, any of 256 values (R82). -/
  | data (b : Byte)
  /-- END, R206 (`end` is a keyword of Lean). -/
  | endMsg
  /-- RDSTAT, R207. -/
  | rdstat
  /-- RDHEX i, R208: `i` is the 6-bit index of a digest character (R61, R82). -/
  | rdhex (i : BitVec 6)
  /-- ILLEGAL, R209: a command word `w` that is not legal (R84). -/
  | illegal (w : Cmd)
  /-- PAD, R106. -/
  | pad
  /-- LOAD, R107. -/
  | load
  /-- EXPAND, R133. -/
  | expand
  /-- ROUND, R158. -/
  | round
  /-- FINAL, R159. -/
  | final
  /-- SERIALIZE, R183. -/
  | serialize
  deriving DecidableEq, Repr

/-- The encoded form of an instruction: a 16-bit command word (R80) for a host command, a 4-bit FSM
state code (R87) for an internal operation. -/
inductive Code where
  /-- A word at the command port. -/
  | cmd (w : Cmd)
  /-- The code in the register `fsm`, from which the engine decodes its operation (R88). -/
  | fsm (c : BitVec 4)
  deriving DecidableEq, Repr

end Sys2Proof
end

