-- ==== Sys2Proof/Decode.lean ====
section
/-! DEFINITION. Decoding and encoding (spec/30_encoding.md R80 to R89, spec/44_host_commands.md R202),
and the rows of spec/opcode_table.json. Every 16-bit command word decodes (to ILLEGAL where it is not
legal); an FSM code decodes to the operation performed in that state, or is rejected by name. -/

namespace Sys2Proof

/-- `OP`, bits 15:12 (R80). -/
def Cmd.op (w : Cmd) : BitVec 4 := w.extractLsb' 12 4

/-- `RSV`, bits 11:8 (R80). -/
def Cmd.rsv (w : Cmd) : BitVec 4 := w.extractLsb' 8 4

/-- `ARG`, bits 7:0 (R80). -/
def Cmd.arg (w : Cmd) : Byte := w.extractLsb' 0 8

/-- `legal(cmd)` of R84. -/
def legal (w : Cmd) : Bool :=
  decide (Cmd.op w ≤ 0x5#4) && decide (Cmd.rsv w = 0#4) &&
    (!decide (Cmd.op w = 0x0#4 ∨ Cmd.op w = 0x1#4 ∨ Cmd.op w = 0x3#4 ∨ Cmd.op w = 0x4#4) ||
      decide (Cmd.arg w = 0#8)) &&
    (!decide (Cmd.op w = 0x5#4) || decide (Cmd.arg w ≤ 0x3F#8))

/-- Why an FSM code is no internal operation. -/
inductive DecodeError where
  /-- IDLE, ABSORB, DONE or ERROR: the engine has no operation there (R87, R185). Safe: it is what
  the spec says. -/
  | noOperation (c : BitVec 4)
  /-- A code 0xA..0xF, which no rule writes (R87, R88). Safe: the machine then records a fault. -/
  | unusedCode (c : BitVec 4)
  deriving DecidableEq, Repr

/-- Decoding of an accepted command word, in R202's order: legality first, then OP. -/
def decodeCmd (w : Cmd) : Instr :=
  if legal w then
    if Cmd.op w = 0x0#4 then .nop
    else if Cmd.op w = 0x1#4 then .start
    else if Cmd.op w = 0x2#4 then .data (Cmd.arg w)
    else if Cmd.op w = 0x3#4 then .endMsg
    else if Cmd.op w = 0x4#4 then .rdstat
    else .rdhex ((Cmd.arg w).extractLsb' 0 6)
  else .illegal w

/-- The engine's decoding of its next operation from the code in `fsm` alone (R87, R88). -/
def decodeFsm (c : BitVec 4) : Except DecodeError Instr :=
  if c = 0x2#4 then .ok .pad
  else if c = 0x3#4 then .ok .load
  else if c = 0x4#4 then .ok .expand
  else if c = 0x5#4 then .ok .round
  else if c = 0x6#4 then .ok .final
  else if c = 0x7#4 then .ok .serialize
  else if c ≤ 0x9#4 then .error (.noOperation c)
  else .error (.unusedCode c)

/-- Decoding of both formats. -/
def decode : Code → Except DecodeError Instr
  | .cmd w => .ok (decodeCmd w)
  | .fsm c => decodeFsm c

/-- A command word from its OP and ARG fields, with RSV = 0 (R80, R83). -/
def cmdWord (op : BitVec 4) (arg : Byte) : Cmd := op ++ 0#4 ++ arg

/-- The encoder, from the tables of R81 and R87. -/
def encode : Instr → Code
  | .nop => .cmd (cmdWord 0x0#4 0#8)
  | .start => .cmd (cmdWord 0x1#4 0#8)
  | .data b => .cmd (cmdWord 0x2#4 b)
  | .endMsg => .cmd (cmdWord 0x3#4 0#8)
  | .rdstat => .cmd (cmdWord 0x4#4 0#8)
  | .rdhex i => .cmd (cmdWord 0x5#4 (0#2 ++ i))
  | .illegal w => .cmd w
  | .pad => .fsm 0x2#4
  | .load => .fsm 0x3#4
  | .expand => .fsm 0x4#4
  | .round => .fsm 0x5#4
  | .final => .fsm 0x6#4
  | .serialize => .fsm 0x7#4

/-- A row of spec/opcode_table.json with a match and a mask. A CMD row speaks of a command word, an
FSM row of the code in `fsm`. -/
structure Row where
  mnemonic : String
  isCmd : Bool
  pattern : Cmd
  mask : Cmd
  deriving DecidableEq, Repr

/-- The CMD rows of spec/opcode_table.json, less ILLEGAL, which is every word no row here matches. -/
def cmdRows : List Row :=
  [⟨"NOP", true, 0x0000#16, 0xFFFF#16⟩, ⟨"START", true, 0x1000#16, 0xFFFF#16⟩,
   ⟨"DATA", true, 0x2000#16, 0xFF00#16⟩, ⟨"END", true, 0x3000#16, 0xFFFF#16⟩,
   ⟨"RDSTAT", true, 0x4000#16, 0xFFFF#16⟩, ⟨"RDHEX", true, 0x5000#16, 0xFFC0#16⟩]

/-- The FSM rows of spec/opcode_table.json. -/
def fsmRows : List Row :=
  [⟨"PAD", false, 0x2#16, 0xF#16⟩, ⟨"LOAD", false, 0x3#16, 0xF#16⟩,
   ⟨"EXPAND", false, 0x4#16, 0xF#16⟩, ⟨"ROUND", false, 0x5#16, 0xF#16⟩,
   ⟨"FINAL", false, 0x6#16, 0xF#16⟩, ⟨"SERIALIZE", false, 0x7#16, 0xF#16⟩]

/-- Does the row match the word? -/
def Row.matches (r : Row) (w : Cmd) : Bool := w &&& r.mask == r.pattern

/-- The row of an instruction in spec/opcode_table.json; ILLEGAL's has neither match nor mask. -/
def rowOf? : Instr → Option Row
  | .nop => some ⟨"NOP", true, 0x0000#16, 0xFFFF#16⟩
  | .start => some ⟨"START", true, 0x1000#16, 0xFFFF#16⟩
  | .data _ => some ⟨"DATA", true, 0x2000#16, 0xFF00#16⟩
  | .endMsg => some ⟨"END", true, 0x3000#16, 0xFFFF#16⟩
  | .rdstat => some ⟨"RDSTAT", true, 0x4000#16, 0xFFFF#16⟩
  | .rdhex _ => some ⟨"RDHEX", true, 0x5000#16, 0xFFC0#16⟩
  | .illegal _ => none
  | .pad => some ⟨"PAD", false, 0x2#16, 0xF#16⟩
  | .load => some ⟨"LOAD", false, 0x3#16, 0xF#16⟩
  | .expand => some ⟨"EXPAND", false, 0x4#16, 0xF#16⟩
  | .round => some ⟨"ROUND", false, 0x5#16, 0xF#16⟩
  | .final => some ⟨"FINAL", false, 0x6#16, 0xF#16⟩
  | .serialize => some ⟨"SERIALIZE", false, 0x7#16, 0xF#16⟩

/-- What an encoded form is as a word of the opcode table's numbering. -/
def Code.tableWord : Code → Cmd
  | .cmd w => w
  | .fsm c => c.setWidth 16

/-- The code that the opcode table's bits stand for: 16 bits or more are a command word, fewer are an
FSM row's 4-bit code, given in a whole byte whose upper bits are zero. -/
def codeOfTableWord (nbits w : Nat) : Option Code :=
  if 16 ≤ nbits then (if w < 2 ^ 16 then some (.cmd (BitVec.ofNat 16 w)) else none)
  else if w < 16 then some (.fsm (BitVec.ofNat 4 w))
  else none

/-- The instruction the decoder reads from the opcode table's bits. -/
def decodeTableWord (nbits w : Nat) : Option Instr :=
  match codeOfTableWord nbits w with
  | none => none
  | some k =>
    match decode k with
    | .ok i => some i
    | .error _ => none

end Sys2Proof
end

