-- ==== Sys2Proof/Machine/State.lean ====
section
/-! DEFINITION. The state of the machine as plain data (spec/10_state.md R20 to R41): the chip, which
is exactly the elements of R20's table, and around it the model's own fields for the host, the
schedule of the two agents and the build parameter. `K` and `IV` of R20's table are read-only and are
constant functions, as R152 allows (Machine/Rom.lean). -/

namespace Sys2Proof.Machine

/-- The register `fsm` (R21): the ten states of R87 by name, and the six codes no rule writes. All 16
values of the 4-bit register are here, so that the model can record the fault R88 asks for. -/
inductive Fsm where
  | idle | absorb | pad | load | expand | round | final | serialize | done | error
  /-- The code 0xA + n, never written by any rule (R87, R88). -/
  | unused (n : Fin 6)
  deriving DecidableEq, Repr

/-- The register `pad_stage` (R31). -/
inductive PadStage where
  /-- NONE (0): no END yet in this job. -/
  | none
  /-- MARK (1): the 0x80 byte is next. -/
  | mark
  /-- FILL (2): zero bytes are being appended. -/
  | fill
  /-- LEN (3): the 8 length bytes are being appended. -/
  | len
  deriving DecidableEq, Repr

/-- The three error kinds (R230). -/
inductive ErrorKind where
  /-- InputError: an illegal command word (R231). -/
  | input
  /-- LengthLimitError: a DATA at the length limit (R233). -/
  | lengthLimit
  /-- SeqError: a DATA or END out of sequence (R234). -/
  | seq
  deriving DecidableEq, Repr

/-- The working registers `a, b, c, d, e, f, g, h`, also `V[0..7]` (R25). -/
structure Work where
  a : Word
  b : Word
  c : Word
  d : Word
  e : Word
  f : Word
  g : Word
  h : Word
  deriving DecidableEq, Repr

/-- One SHA256_CORE instance: exactly the elements of R20's table that can change. The elements whose
reset value is "no value" (`H`, `V`, `W`, `B`, `DIG`) are absent (`none`) until a rule writes them:
R39 says "A model must represent it as absent, not as zero". `H`, `V` and `DIG` are absent or present as
a whole, because every rule that writes one writes all of it; `W` and `B` are written word by word and
byte by byte. -/
structure Chip where
  /-- R21. -/
  fsm : Fsm
  /-- The hash state `H[0..7]`, R23. -/
  H : Option (Vector Word 8)
  /-- The working registers, R25. -/
  V : Option Work
  /-- The message schedule `W[0..63]`, R26. -/
  W : Vector (Option Word) 64
  /-- The 6-bit counter of EXPAND and ROUND, R27. -/
  t : BitVec 6
  /-- The block buffer `B[0..63]`, R28. -/
  B : Vector (Option Byte) 64
  /-- The 7-bit count of the bytes in `B`, R29. -/
  bc : BitVec 7
  /-- The message length in bits, R30. -/
  L : LenWord
  /-- R31. -/
  padStage : PadStage
  /-- Is the block in flight the last of the padded message? R32. -/
  last : Bool
  /-- The digest characters `DIG[0..63]`, R33. -/
  DIG : Option (Vector Byte 64)
  /-- R34. -/
  errInput : Bool
  /-- R34. -/
  errLength : Bool
  /-- R34. -/
  errSeq : Bool
  deriving DecidableEq, Repr

/-- Who takes a step (R69, R185, R200), or that the reset input is active in it (R260). -/
inductive Turn where
  | engine | host | reset
  deriving DecidableEq, Repr

/-- The machine: the chip, and the model's own fields around it. -/
structure State where
  /-- The hardware's state, R20. -/
  chip : Chip
  /-- The build parameter MAX_MSG_BYTES (R8), written by no step (notes/assumptions/3.md). -/
  maxMsgBytes : Config.MaxMsgBytes
  /-- The words the host offers, the one it offers now first (R200, R68). The model's own field. -/
  offers : List Cmd
  /-- The response words the host has received, oldest first. The model's own field: the chip returns
  a response in the step that accepts the command and does not store it (R38). -/
  replies : List Resp
  /-- Which agent takes each of the next steps, as plain data, so that every interleaving is some
  state's (R69). Once it is used up, the engine steps while it has an operation, else the host (R270).
  The model's own field. -/
  turns : List Turn
  deriving DecidableEq, Repr

/-- The elements that can hold no value (R39). -/
inductive Element where
  | hashState | working | schedule | block | digest
  deriving DecidableEq, Repr

/-- Why the machine stops. No state reachable from reset gets here (R39, R40, R235): the spec asks a
model to record a fault in each of these cases (spec/93_implementation_defined.md I1 to I5). -/
inductive Fault where
  /-- `fsm` holds a code 0xA..0xF. Raised by every host command and by every turn of the host and of the
  engine. Safe: the spec asks for a fault (R88, I1). -/
  | unusedFsm (n : Fin 6)
  /-- A rule read an element that holds no value. Raised by LOAD, EXPAND, ROUND, FINAL, SERIALIZE and by
  RDHEX in DONE. Safe: the spec asks for a fault (R39: "If a rule ever reads an absent value, the model must
  record a fault"; I2). -/
  | absentRead (e : Element)
  /-- PAD with `pad_stage = NONE`. Raised by PAD. Safe: the spec asks for a fault (R106, I3). -/
  | padStageNone
  /-- APPEND with `bc` above 63. Raised by DATA and PAD. Safe: the spec asks for a fault (R105, I4). -/
  | blockFull
  /-- PAD in stage LEN with `bc` below 57. Raised by PAD. Safe: R40's row of PAD is broken, and the spec
  asks for a fault (R106, R235, I5). -/
  | lengthByteIndex
  /-- LOAD with `bc` other than 64. Raised by LOAD. Safe: R40's row of LOAD is broken, and the spec asks
  for a fault (R107, R235, I5). -/
  | blockNotFull
  /-- EXPAND with `t` below 16. Raised by EXPAND. Safe: R40's row of EXPAND is broken, and the spec asks
  for a fault (R133, R235, I5). -/
  | scheduleIndex
  /-- An internal operation in a state that breaks a predicate of R40's table, where none of the faults above
  names what is broken. Raised by every internal operation. Safe: the spec asks for a fault (R235, I5). -/
  | brokenInvariant
  /-- An internal operation performed while `fsm` does not select it. Raised by every internal operation;
  no step of the machine can raise it, since the engine decodes its operation from `fsm` (R88, R185).
  Safe: it only stops. -/
  | notSelected
  deriving DecidableEq, Repr

/-- Why an instruction has no meaning in the model. -/
inductive Refusal where
  /-- An instruction whose arm of `exec` gives it no meaning yet. Raised by such an arm alone, of which
  there is none. Safe: it only stops. -/
  | notModelled (mnemonic : String)
  deriving DecidableEq, Repr

/-- What a step answers. -/
abbrev Result := Host.Outcome State Fault Refusal

/-- The chip after reset (R20, R260). -/
def Chip.reset : Chip where
  fsm := .idle
  H := none
  V := none
  W := Vector.replicate 64 none
  t := 0
  B := Vector.replicate 64 none
  bc := 0
  L := 0
  padStage := .none
  last := false
  DIG := none
  errInput := false
  errLength := false
  errSeq := false

/-- The machine after reset with a given limit: nothing offered, nothing received, no turn fixed. -/
def State.resetWith (maxMsgBytes : Config.MaxMsgBytes) : State where
  chip := Chip.reset
  maxMsgBytes := maxMsgBytes
  offers := []
  replies := []
  turns := []

/-- The machine right after reset, MAX_MSG_BYTES at its default (R8, R260). -/
def State.reset : State := State.resetWith Config.defaultMaxMsgBytes

end Sys2Proof.Machine
end

