-- ==== Sys2Proof/Machine/Functions.lean ====
section
/-! DEFINITION. The combinational functions of the datapath: the primitives of spec/00_scope.md, the
sigma functions of spec/41_schedule_expander.md, the round functions of
spec/42_compression_engine.md and the hexadecimal digits of spec/43_digest_serializer.md. -/

namespace Sys2Proof.Machine

/-- `ROTR(x, n)` for 0 < n < 32 (R10). -/
def rotr (x : Word) (n : Nat) : Word := (x >>> n) ||| (x <<< (32 - n))

/-- `SHR(x, n)`, zero-fill (R11). -/
def shr (x : Word) (n : Nat) : Word := x >>> n

/-- `BE32(b0, b1, b2, b3)`: b0 is the most significant byte (R14). -/
def be32 (b0 b1 b2 b3 : Byte) : Word := b0 ++ b1 ++ b2 ++ b3

/-- `BE64_BYTE(L, k)` for k ≤ 7: byte k of the big-endian form of `L`, `L[63 - 8k : 56 - 8k]` (R14). -/
def be64Byte (L : LenWord) (k : Nat) : Byte := L.extractLsb' (56 - 8 * k) 8

/-- `σ0` (R130). -/
def smallSigma0 (x : Word) : Word := rotr x 7 ^^^ rotr x 18 ^^^ shr x 3

/-- `σ1` (R131). -/
def smallSigma1 (x : Word) : Word := rotr x 17 ^^^ rotr x 19 ^^^ shr x 10

/-- `Σ0` (R153). -/
def bigSigma0 (x : Word) : Word := rotr x 2 ^^^ rotr x 13 ^^^ rotr x 22

/-- `Σ1` (R154). -/
def bigSigma1 (x : Word) : Word := rotr x 6 ^^^ rotr x 11 ^^^ rotr x 25

/-- `Ch` (R155). -/
def ch (x y z : Word) : Word := (x &&& y) ^^^ (~~~x &&& z)

/-- `Maj` (R156). -/
def maj (x y z : Word) : Word := (x &&& y) ^^^ (x &&& z) ^^^ (y &&& z)

/-- The schedule word from the words 2, 7, 15 and 16 places before it (R132, R133). -/
def scheduleWord (w2 w7 w15 w16 : Word) : Word := smallSigma1 w2 + w7 + smallSigma0 w15 + w16

/-- `T1` of a round with constant `k` and schedule word `w` (R157, R158). -/
def roundT1 (v : Work) (k w : Word) : Word := v.h + bigSigma1 v.e + ch v.e v.f v.g + k + w

/-- `T2` of a round (R157, R158). -/
def roundT2 (v : Work) : Word := bigSigma0 v.a + maj v.a v.b v.c

/-- The register update of a round: all eight writes read the values from before it (R157, R158). -/
def roundWork (v : Work) (k w : Word) : Work where
  a := roundT1 v k w + roundT2 v
  b := v.a
  c := v.b
  d := v.c
  e := v.d + roundT1 v k w
  f := v.e
  g := v.f
  h := v.g

/-- The working registers loaded from a hash state: V[i] = H[i] (R25, R107). -/
def Work.ofHash (H : Vector Word 8) : Work := ⟨H[0], H[1], H[2], H[3], H[4], H[5], H[6], H[7]⟩

/-- The working registers as the array V[0..7] (R25). -/
def Work.toVector (v : Work) : Vector Word 8 := #v[v.a, v.b, v.c, v.d, v.e, v.f, v.g, v.h]

/-- `H[i] + V[i]` for every i (R157, R159). -/
def addHash (H : Vector Word 8) (v : Work) : Vector Word 8 :=
  Vector.ofFn fun i => H[i] + v.toVector[i]

/-- `hexchar(v)`: the ASCII code of the lowercase hexadecimal digit (R181). -/
def hexchar (v : BitVec 4) : Byte :=
  if v.toNat ≤ 9 then 0x30 + v.setWidth 8 else 0x61 + (v.setWidth 8 - 10)

/-- The hexadecimal digit `j` of a word, the most significant first (R182). -/
def nibble (x : Word) (j : Nat) : BitVec 4 := x.extractLsb' (28 - 4 * j) 4

/-- `serialize(H)` (R182). -/
def serializeHash (H : Vector Word 8) : Vector Byte 64 :=
  Vector.ofFn fun i => hexchar (nibble (H[i.val / 8]'(by omega)) (i.val % 8))

/-- The 16 big-endian words of a block of 64 bytes (R65, R104, R107). -/
def blockWords (bytes : Vector Byte 64) : Vector Word 16 :=
  Vector.ofFn fun j => be32 bytes[4 * j.val] bytes[4 * j.val + 1] bytes[4 * j.val + 2] bytes[4 * j.val + 3]

end Sys2Proof.Machine
end

