-- ==== Sys2Proof/Machine/Operands.lean ====
section
/-! DEFINITION. How a rule reads its operands from the chip. An element that holds no value is a
fault for the rule that reads it (spec/10_state.md R39). The codes of `fsm` (spec/30_encoding.md R87). -/

namespace Sys2Proof.Machine

/-- The 4-bit code of `fsm` (R87). -/
def Fsm.code : Fsm → BitVec 4
  | .idle => 0x0
  | .absorb => 0x1
  | .pad => 0x2
  | .load => 0x3
  | .expand => 0x4
  | .round => 0x5
  | .final => 0x6
  | .serialize => 0x7
  | .done => 0x8
  | .error => 0x9
  | .unused n => BitVec.ofNat 4 (0xA + n.val)

/-- The value of `fsm` with a given code (R87). -/
def Fsm.ofCode (c : BitVec 4) : Fsm :=
  if c = 0x0#4 then .idle
  else if c = 0x1#4 then .absorb
  else if c = 0x2#4 then .pad
  else if c = 0x3#4 then .load
  else if c = 0x4#4 then .expand
  else if c = 0x5#4 then .round
  else if c = 0x6#4 then .final
  else if c = 0x7#4 then .serialize
  else if c = 0x8#4 then .done
  else if c = 0x9#4 then .error
  else .unused ⟨(c.toNat - 0xA) % 6, Nat.mod_lt _ (by decide)⟩

/-- `W[i]`, absent past the array's end. -/
def Chip.schedule? (c : Chip) (i : Nat) : Option Word := if h : i < 64 then c.W[i] else none

/-- Reading `W[i]` (R39). -/
def Chip.readSchedule (c : Chip) (i : Nat) : Except Fault Word :=
  match c.schedule? i with
  | some w => .ok w
  | none => .error (.absentRead .schedule)

/-- Reading the hash state (R39). -/
def Chip.readHash (c : Chip) : Except Fault (Vector Word 8) :=
  match c.H with
  | some H => .ok H
  | none => .error (.absentRead .hashState)

/-- Reading the working registers (R39). -/
def Chip.readWork (c : Chip) : Except Fault Work :=
  match c.V with
  | some v => .ok v
  | none => .error (.absentRead .working)

/-- Reading all 64 bytes of the block buffer (R39, R107). -/
def Chip.readBlock (c : Chip) : Except Fault (Vector Byte 64) :=
  if ∀ i : Fin 64, (c.B[i]).isSome = true then
    .ok (Vector.ofFn fun i => (c.B[i]).getD 0)
  else .error (.absentRead .block)

/-- Reading digest character `i` (R39, R208). -/
def Chip.readDigest (c : Chip) (i : BitVec 6) : Except Fault Byte :=
  match c.DIG with
  | some d => .ok (d[i.toNat]'i.isLt)
  | none => .error (.absentRead .digest)

/-- The schedule after LOAD: words 0 to 15 are the block's, the others stay as they are (R107). -/
def loadSchedule (W : Vector (Option Word) 64) (block : Vector Word 16) : Vector (Option Word) 64 :=
  Vector.ofFn fun i => if h : i.val < 16 then some block[i.val] else W[i]

end Sys2Proof.Machine
end

