-- ==== Sys2Proof/Machine/Flags.lean ====
section
/-! DEFINITION. The outputs that are functions of the state: `busy`, STATUS, `irq` and `cmd_ready`
(spec/10_state.md R22, R35 to R37), and the response words (spec/30_encoding.md R85). They have no
storage of their own. -/

namespace Sys2Proof.Machine

/-- `fsm` is in the busy set (R22). -/
def Fsm.busy : Fsm → Bool
  | .pad | .load | .expand | .round | .final | .serialize => true
  | .idle | .absorb | .done | .error | .unused _ => false

/-- `fsm` is one of the four states in which the engine is quiescent (R22, R185, R249). -/
def Fsm.quiescent : Fsm → Bool
  | .idle | .absorb | .done | .error => true
  | .pad | .load | .expand | .round | .final | .serialize | .unused _ => false

/-- `busy` (R22). -/
def Chip.busy (c : Chip) : Bool := c.fsm.busy

/-- STATUS (R35): READY, BUSY, DONE, ERR_INPUT, ERR_LENGTH and ERR_SEQ in bits 0 to 5, bits 7:6 zero. -/
def Chip.status (c : Chip) : BitVec 8 :=
  0#2 ++ BitVec.ofBool c.errSeq ++ BitVec.ofBool c.errLength ++ BitVec.ofBool c.errInput ++
    BitVec.ofBool (decide (c.fsm = .done)) ++ BitVec.ofBool c.busy ++
    BitVec.ofBool (decide (c.fsm = .absorb))

/-- The level output `irq` (R36). -/
def Chip.irq (c : Chip) : Bool := decide (c.fsm = .done) || decide (c.fsm = .error)

/-- `cmd_ready(cmd)` (R37): only DATA's and END's OP are held while busy. -/
def Chip.cmdReady (c : Chip) (w : Cmd) : Bool :=
  !(decide (Cmd.op w = 0x2#4 ∨ Cmd.op w = 0x3#4) && c.busy)

/-- A response word from VALID and DATA: ACK is 1 and bits 13:8 are 0 (R85). -/
def respWord (valid : Bool) (data : Byte) : Resp := 1#1 ++ BitVec.ofBool valid ++ 0#6 ++ data

/-- The response 0x8000: accepted, no value (R86). -/
def ackResp : Resp := respWord false 0

/-- The response 0xC000 ∨ v: accepted, with a value (R86). -/
def valueResp (v : Byte) : Resp := respWord true v

end Sys2Proof.Machine
end

