-- ==== Sys2Proof/Machine/Ops.lean ====
section
/-! DEFINITION. The operations the rules share: APPEND (spec/40_padder_parser.md R105), error entry
(spec/60_exceptions.md R236) and the way out of an error, which is START (R240), reset
(spec/70_reset_and_hazards.md R260), the acceptance of a command (spec/44_host_commands.md R200) and
the performance of an internal operation (spec/43_digest_serializer.md R185). -/

namespace Sys2Proof.Machine

/-- APPEND(v, ps) (R105), with its precondition `bc ≤ 63`. -/
def Chip.append (c : Chip) (v : Byte) (ps : PadStage) : Except Fault Chip :=
  if h : c.bc.toNat < 64 then
    if c.bc = 63#7 then
      .ok { c with B := c.B.set c.bc.toNat (some v), bc := 64, fsm := .load, last := decide (ps = .len) }
    else
      .ok { c with B := c.B.set c.bc.toNat (some v), bc := c.bc + 1 }
  else .error .blockFull

/-- `raise E(info)` (R236): the flag of E is set and `fsm` moves to ERROR; nothing else changes. -/
def Chip.raise (c : Chip) : ErrorKind → Chip
  | .input => { c with errInput := true, fsm := .error }
  | .lengthLimit => { c with errLength := true, fsm := .error }
  | .seq => { c with errSeq := true, fsm := .error }

/-- START on the chip (R204): the IV into H, the per-job registers and the error flags cleared, ABSORB.
V, W, B and DIG stay. It is the only command that leaves ERROR (R240). -/
def Chip.openJob (c : Chip) : Chip :=
  { c with
    fsm := .absorb, H := some IV, L := 0, bc := 0, padStage := .none, last := false, t := 0
    errInput := false, errLength := false, errSeq := false }

/-- A host step: the offered word is accepted and performed as a whole, its response is returned, and
the host offers its next word (R200, R201). -/
def State.accept (s : State) (c : Chip) (r : Resp) : State :=
  { s with chip := c, offers := s.offers.tail, replies := s.replies ++ [r] }

/-- What a step that only changes the chip leaves. -/
def State.withChip (s : State) (c : Chip) : State := { s with chip := c }

/-- What is left once the next turn is taken. -/
def State.endTurn (s : State) : State := { s with turns := s.turns.tail }

/-- A model that finds a code in `fsm` which no rule writes records a fault and picks no operation (R88, I1);
else `r`. -/
def unlessUnused (s : State) (r : Result) : Result :=
  match s.chip.fsm with
  | .unused n => .fault (.unusedFsm n)
  | .idle | .absorb | .pad | .load | .expand | .round | .final | .serialize | .done | .error => r

/-- R40's row "any". -/
def Chip.meetsAnyRow (c : Chip) (maxBytes : Nat) : Bool :=
  decide (c.L.toNat % 8 = 0 ∧ c.L.toNat ≤ 8 * maxBytes ∧ (c.last = true → c.padStage = .len))

/-- No error flag is set. -/
def Chip.noFlag (c : Chip) : Bool := !c.errInput && !c.errLength && !c.errSeq

/-- R40's row of the state `fsm` is in. An element "written for this block" or "for this job" is one that
holds a value (notes/assumptions/9.md). -/
def Chip.meetsOwnRow (c : Chip) : Bool :=
  match c.fsm with
  | .idle =>
    decide (c.bc = 0#7 ∧ c.L = 0#64 ∧ c.padStage = .none ∧ c.last = false ∧ c.t = 0#6) && c.noFlag
  | .absorb =>
    decide (c.padStage = .none ∧ c.last = false ∧ c.bc.toNat = c.L.toNat / 8 % 64 ∧ c.bc.toNat ≤ 63 ∧
      c.t = 0#6) && c.noFlag
  | .pad =>
    decide (c.padStage ≠ .none ∧ c.bc.toNat ≤ 63 ∧ c.t = 0#6 ∧
      (c.padStage = .mark → c.bc.toNat = c.L.toNat / 8 % 64) ∧
      (c.padStage = .len → 57 ≤ c.bc.toNat ∧ c.bc.toNat ≤ 63))
  | .load => decide (c.bc = 64#7 ∧ c.t = 0#6)
  | .expand =>
    decide (c.bc = 0#7 ∧ 16 ≤ c.t.toNat ∧ ∀ i : Fin 64, i.val < c.t.toNat → (c.W[i]).isSome = true)
  | .round => decide (c.bc = 0#7)
  | .final => decide (c.bc = 0#7 ∧ c.t = 0#6)
  | .serialize => decide (c.bc = 0#7 ∧ c.t = 0#6 ∧ c.last = true ∧ c.padStage = .len)
  | .done =>
    decide (c.bc = 0#7 ∧ c.t = 0#6 ∧ c.last = true ∧ c.padStage = .len ∧ c.DIG.isSome = true) && c.noFlag
  | .error => !c.noFlag
  | .unused _ => true

/-- The predicates of R40's table, for a build with the limit `maxBytes`. -/
def Chip.meetsR40 (c : Chip) (maxBytes : Nat) : Bool := c.meetsAnyRow maxBytes && c.meetsOwnRow

/-- An internal operation (R88, R185): performed while `fsm` selects it, as one atomic step. In a state that
breaks R40's table, a broken precondition (R235), it is a fault: the one the operation names, else
`brokenInvariant`. -/
def internalStep (sel : Fsm) (op : Chip → Except Fault Chip) (s : State) : Result :=
  if s.chip.fsm = sel then
    match op s.chip with
    | .ok c => if s.chip.meetsR40 s.maxMsgBytes.val then .next (s.withChip c) else .fault .brokenInvariant
    | .error f => .fault f
  else .fault .notSelected

/-- DATA or END, which act in ABSORB alone (R205, R206): `act` there; held while busy, that is, nothing
changes and there is no response (R201); SeqError in IDLE, DONE and ERROR (R234). A code of `fsm` that
no rule writes is a fault (R88). -/
def sequencedStep (act : Chip → Except Fault Chip) (s : State) : Result :=
  match s.chip.fsm with
  | .absorb =>
    match act s.chip with
    | .ok c => .next (s.accept c ackResp)
    | .error f => .fault f
  | .idle | .done | .error => .next (s.accept (s.chip.raise .seq) ackResp)
  | .pad | .load | .expand | .round | .final | .serialize => .next s
  | .unused n => .fault (.unusedFsm n)

/-- The counter after index or round `t`: the step of 63 sets it to 0 (R133, R158). -/
def nextCount (t : BitVec 6) : BitVec 6 := if t = 63#6 then 0 else t + 1

end Sys2Proof.Machine
end

