-- ==== Sys2Proof/Machine/Compression.lean ====
section
/-! DEFINITION. The compression_engine's ROUND and FINAL (spec/42_compression_engine.md). -/

namespace Sys2Proof.Machine

/-- ROUND on the chip (R158): round `t` on the working registers. -/
def roundOp (c : Chip) : Except Fault Chip :=
  match c.readWork, c.readSchedule c.t.toNat with
  | .ok v, .ok w =>
    .ok { c with
      V := some (roundWork v (K c.t) w)
      t := nextCount c.t
      fsm := if c.t = 63#6 then .final else c.fsm }
  | .error f, _ => .error f
  | .ok _, .error f => .error f

/-- ROUND (R158). -/
def execRound (s : State) : Result := internalStep .round roundOp s

/-- The state FINAL chooses (R159): SERIALIZE after the last block, PAD while padding is in progress,
ABSORB otherwise. -/
def afterFinal (last : Bool) (ps : PadStage) : Fsm :=
  if last then .serialize else if ps = .none then .absorb else .pad

/-- FINAL on the chip (R159): the working registers added into the hash state. -/
def finalOp (c : Chip) : Except Fault Chip :=
  match c.readHash, c.readWork with
  | .ok H, .ok v => .ok { c with H := some (addHash H v), fsm := afterFinal c.last c.padStage }
  | .error f, _ => .error f
  | .ok _, .error f => .error f

/-- FINAL (R159). -/
def execFinal (s : State) : Result := internalStep .final finalOp s

end Sys2Proof.Machine
end

