-- ==== Sys2Proof/Machine/HostCommands.lean ====
section
/-! DEFINITION. The meanings of the host commands (spec/44_host_commands.md). A DATA or END word
offered while busy is held: the meaning then changes nothing and returns no response (R201). Every
command is a fault where `fsm` holds a code no rule writes (R88, I1). -/

namespace Sys2Proof.Machine

/-- NOP (R203). -/
def execNop (s : State) : Result := unlessUnused s (.next (s.accept s.chip ackResp))

/-- START (R204), accepted in every state. -/
def execStart (s : State) : Result := unlessUnused s (.next (s.accept s.chip.openJob ackResp))

/-- DATA in ABSORB on the chip (R205): the length check, then L and APPEND. -/
def dataAbsorb (maxMsgBytes : Nat) (b : Byte) (c : Chip) : Except Fault Chip :=
  if c.L.toNat / 8 = maxMsgBytes then .ok (c.raise .lengthLimit)
  else ({ c with L := c.L + 8 } : Chip).append b .none

/-- DATA b (R205): SeqError outside ABSORB comes before the length check (R237). -/
def execData (b : Byte) (s : State) : Result := sequencedStep (dataAbsorb s.maxMsgBytes.val b) s

/-- END in ABSORB on the chip (R206). -/
def endAbsorb (c : Chip) : Except Fault Chip := .ok { c with padStage := .mark, fsm := .pad }

/-- END (R206). -/
def execEnd (s : State) : Result := sequencedStep endAbsorb s

/-- RDSTAT (R207): STATUS as it stands before the step. -/
def execRdstat (s : State) : Result :=
  unlessUnused s (.next (s.accept s.chip (valueResp s.chip.status)))

/-- RDHEX i (R208): the character in DONE, VALID = 0 in every other state. -/
def execRdhex (i : BitVec 6) (s : State) : Result :=
  if s.chip.fsm = .done then
    match s.chip.readDigest i with
    | .ok v => .next (s.accept s.chip (valueResp v))
    | .error f => .fault f
  else unlessUnused s (.next (s.accept s.chip ackResp))

/-- ILLEGAL (R209): InputError in any state; a word with DATA's or END's OP is held while busy, since
the hold test reads only OP (R201). -/
def execIllegal (w : Cmd) (s : State) : Result :=
  if s.chip.cmdReady w then unlessUnused s (.next (s.accept (s.chip.raise .input) ackResp)) else .next s

end Sys2Proof.Machine
end

