-- ==== Sys2Proof/Machine/Padder.lean ====
section
/-! DEFINITION. The message_padder's PAD and the block_parser's LOAD (spec/40_padder_parser.md). -/

namespace Sys2Proof.Machine

/-- PAD on the chip (R106): one padding byte, chosen by `pad_stage` and `bc`. -/
def padOp (c : Chip) : Except Fault Chip :=
  match c.padStage with
  | .mark => ({ c with padStage := .fill } : Chip).append 0x80 .fill
  | .fill =>
    if c.bc = 56#7 then ({ c with padStage := .len } : Chip).append (be64Byte c.L 0) .len
    else c.append 0x00 .fill
  | .len =>
    if 57 ≤ c.bc.toNat then c.append (be64Byte c.L (c.bc.toNat - 56)) .len
    else .error .lengthByteIndex
  | .none => .error .padStageNone

/-- PAD (R106). -/
def execPad (s : State) : Result := internalStep .pad padOp s

/-- LOAD on the chip (R107): the block's words into W[0..15], the hash state into the working
registers. -/
def loadOp (c : Chip) : Except Fault Chip :=
  if c.bc = 64#7 then
    match c.readBlock, c.readHash with
    | .ok bytes, .ok H =>
      .ok { c with
        W := loadSchedule c.W (blockWords bytes), V := some (Work.ofHash H), t := 16, bc := 0, fsm := .expand }
    | .error f, _ => .error f
    | .ok _, .error f => .error f
  else .error .blockNotFull

/-- LOAD (R107). -/
def execLoad (s : State) : Result := internalStep .load loadOp s

end Sys2Proof.Machine
end

