-- ==== Sys2Proof/Machine/Schedule.lean ====
section
/-! DEFINITION. The message_schedule_expander's EXPAND (spec/41_schedule_expander.md). -/

namespace Sys2Proof.Machine

/-- EXPAND on the chip (R133): W[t] from the words 2, 7, 15 and 16 places before it. -/
def expandOp (c : Chip) : Except Fault Chip :=
  if 16 ≤ c.t.toNat then
    match c.readSchedule (c.t.toNat - 2), c.readSchedule (c.t.toNat - 7),
        c.readSchedule (c.t.toNat - 15), c.readSchedule (c.t.toNat - 16) with
    | .ok w2, .ok w7, .ok w15, .ok w16 =>
      .ok { c with
        W := c.W.set c.t.toNat (some (scheduleWord w2 w7 w15 w16)) c.t.isLt
        t := nextCount c.t
        fsm := if c.t = 63#6 then .round else c.fsm }
    | .error f, _, _, _ => .error f
    | _, .error f, _, _ => .error f
    | _, _, .error f, _ => .error f
    | _, _, _, .error f => .error f
  else .error .scheduleIndex

/-- EXPAND (R133). -/
def execExpand (s : State) : Result := internalStep .expand expandOp s

end Sys2Proof.Machine
end

