-- ==== Sys2Proof/Machine/Serializer.lean ====
section
/-! DEFINITION. The digest_serializer's SERIALIZE (spec/43_digest_serializer.md). -/

namespace Sys2Proof.Machine

/-- SERIALIZE on the chip (R183): the hash state as 64 characters. -/
def serializeOp (c : Chip) : Except Fault Chip :=
  match c.readHash with
  | .ok H => .ok { c with DIG := some (serializeHash H), fsm := .done }
  | .error f => .error f

/-- SERIALIZE (R183). -/
def execSerialize (s : State) : Result := internalStep .serialize serializeOp s

end Sys2Proof.Machine
end

