-- ==== Sys2Proof/Machine/Dispatch.lean ====
section
/-! DEFINITION. The one dispatch from an instruction to its meaning. -/

namespace Sys2Proof.Machine

def exec (i : Instr) (s : State) : Host.Outcome State Fault Refusal :=
  match i with
  -- host commands, spec/44_host_commands.md
  | .nop => Sys2Proof.Machine.execNop s
  | .start => Sys2Proof.Machine.execStart s
  | .data b => Sys2Proof.Machine.execData b s
  | .endMsg => Sys2Proof.Machine.execEnd s
  | .rdstat => Sys2Proof.Machine.execRdstat s
  | .rdhex n => Sys2Proof.Machine.execRdhex n s
  | .illegal w => Sys2Proof.Machine.execIllegal w s
  -- internal operations, spec/40_padder_parser.md to spec/43_digest_serializer.md
  | .pad => Sys2Proof.Machine.execPad s
  | .load => Sys2Proof.Machine.execLoad s
  | .expand => Sys2Proof.Machine.execExpand s
  | .round => Sys2Proof.Machine.execRound s
  | .final => Sys2Proof.Machine.execFinal s
  | .serialize => Sys2Proof.Machine.execSerialize s

end Sys2Proof.Machine
end

