-- ==== Sys2Proof/Machine/Fetch.lean ====
section
/-! DEFINITION. How an instruction comes to be performed: the host's step takes the word it offers
(spec/44_host_commands.md R200), the engine's step takes the operation `fsm` selects
(spec/30_encoding.md R88, spec/43_digest_serializer.md R185), reset is an input of its own
(spec/70_reset_and_hazards.md R260), and plain data in the state says which of them is next
(spec/20_memory.md R69). -/

namespace Sys2Proof.Machine

/-- The host's turn (R200): the offered word is decoded and performed; a host with no word to offer has
no step, and then nothing changes; a code of `fsm` no rule writes is a fault (R88). -/
def hostTurn (s : State) : Result :=
  match s.offers with
  | [] => unlessUnused s (.next s)
  | w :: _ => exec (decodeCmd w) s

/-- The engine's turn (R88, R185): the operation of the code in `fsm`; in IDLE, ABSORB, DONE and ERROR the
engine has no step, and then nothing changes; a code no rule writes is a fault. -/
def engineTurn (s : State) : Result :=
  unlessUnused s
    (match decodeFsm s.chip.fsm.code with
    | .ok i => exec i s
    | .error _ => .next s)

/-- The reset input (R260): the chip as after reset. The offered word is not accepted and gets no
response; the host goes on offering it. -/
def resetTurn (s : State) : Result := .next (s.withChip Chip.reset)

/-- Whose turn it is: the schedule's, and once that is used up the engine's while it is not quiescent,
else the host's. The engine is so never kept from stepping for ever (R270). -/
def State.nextTurn (s : State) : Turn :=
  match s.turns with
  | u :: _ => u
  | [] => if s.chip.fsm.quiescent then .host else .engine

/-- One turn of the machine. -/
def takeTurn (s : State) : Result :=
  match s.nextTurn with
  | .engine => engineTurn s.endTurn
  | .host => hostTurn s.endTurn
  | .reset => resetTurn s.endTurn

/-- The machine with a command word placed at the port, the host to step next. -/
def State.placeCommand (s : State) (w : Cmd) : State :=
  { s with offers := w :: s.offers.tail, turns := .host :: s.turns }

/-- The schedule with its absent words filled by 0; used by `placeOperation` alone. -/
def filledSchedule (W : Vector (Option Word) 64) : Vector (Option Word) 64 :=
  Vector.ofFn fun i => some ((W[i]).getD 0)

/-- The block buffer with its absent bytes filled by 0; used by `placeOperation` alone. -/
def filledBlock (B : Vector (Option Byte) 64) : Vector (Option Byte) 64 :=
  Vector.ofFn fun i => some ((B[i]).getD 0)

/-- The chip brought to the state `f` of the sequencer with the control registers R40's row of `f` asks
for, and with an absent operand of its operation filled in (IV for H and V, 0 for W and B): the engine
fetches an operation by being in its state, and R40 says what that state is (notes/assumptions/10.md). -/
def Chip.broughtTo (c : Chip) (f : Fsm) : Chip :=
  match f with
  | .pad =>
    { c with
      fsm := .pad, padStage := .mark, last := false, t := 0, bc := BitVec.ofNat 7 (c.L.toNat / 8 % 64) }
  | .load => { c with fsm := .load, t := 0, bc := 64, B := filledBlock c.B, H := some (c.H.getD IV) }
  | .expand => { c with fsm := .expand, t := 16, bc := 0, W := filledSchedule c.W }
  | .round =>
    { c with
      fsm := .round, t := 0, bc := 0, W := filledSchedule c.W, V := some (c.V.getD (Work.ofHash IV)) }
  | .final =>
    { c with
      fsm := .final, t := 0, bc := 0, H := some (c.H.getD IV), V := some (c.V.getD (Work.ofHash IV)) }
  | .serialize =>
    { c with fsm := .serialize, t := 0, bc := 0, padStage := .len, last := true, H := some (c.H.getD IV) }
  | .idle | .absorb | .done | .error | .unused _ => { c with fsm := f }

/-- The machine with the engine in the state of an FSM code, the engine to step next. -/
def State.placeOperation (s : State) (code : BitVec 4) : State :=
  { s with chip := s.chip.broughtTo (Fsm.ofCode code), turns := .engine :: s.turns }

/-- The machine with an instruction placed where its next step fetches it. -/
def State.placeCode (s : State) : Code → State
  | .cmd w => s.placeCommand w
  | .fsm c => s.placeOperation c

end Sys2Proof.Machine
end

