-- ==== Sys2Proof/Machine/Step.lean ====
section
/-! DEFINITION. One step of the machine: one accepted host command, one internal operation, or reset
(spec/92_eei_decisions.md D2), or a turn in which the agent whose turn it is has no step. -/

namespace Sys2Proof.Machine

/-- The step. -/
def step (s : State) : Host.Outcome State Fault Refusal := takeTurn s

/-- `s` with the instruction of the opcode table's bits `w` placed so that the next step performs it. -/
def State.withFetchWord (s : State) (nbits w : Nat) : State :=
  match codeOfTableWord nbits w with
  | some k => s.placeCode k
  | none => s

end Sys2Proof.Machine
end

