-- ==== Sys2Proof/Machine/Algorithm.lean ====
section
/-! DEFINITION. The normative functions of the algorithm, on whole messages and blocks
(spec/40_padder_parser.md R100, R101, R104; spec/41_schedule_expander.md R132;
spec/42_compression_engine.md R157; spec/43_digest_serializer.md R180; the step counts of
spec/70_reset_and_hazards.md R271). No step of the machine calls them: claims compare the machine
with them. -/

namespace Sys2Proof.Machine

/-- `z = (55 - n) mod 64`, the number of zero bytes before the length field (R100). -/
def zeroBytes (n : Nat) : Nat := ((55 - (n : Int)) % 64).toNat

/-- The 8-byte big-endian length field of a message of `n` bytes (R100). DESIGN CHOICE
(notes/assumptions/20.md): R100 defines `pad` only for 8 * n < 2^64; for a longer message this is the field
of 8 * n mod 2^64. -/
def lengthField (n : Nat) : List Byte :=
  (List.range 8).map fun k => be64Byte (BitVec.ofNat 64 (8 * n)) k

/-- `pad(m)` (R100), which the spec defines only for 8 * n < 2^64. DESIGN CHOICE
(notes/assumptions/20.md): for a longer message the length field is taken modulo 2^64. -/
def padMessage (m : List Byte) : List Byte :=
  m ++ [0x80] ++ List.replicate (zeroBytes m.length) 0x00 ++ lengthField m.length

/-- `nblocks(n)`, the number of blocks of a padded message (R101). -/
def nblocks (n : Nat) : Nat := (n + 8) / 64 + 1

/-- Block `k` of a padded message: its 16 big-endian words (R104). A byte past the end reads 0; a
padded message has no such byte. -/
def blockOf (P : List Byte) (k : Nat) : Vector Word 16 :=
  blockWords (Vector.ofFn fun i => P.getD (64 * k + i.val) 0)

/-- `parse(P)`: the blocks of a padded message, in order (R104). -/
def parse (P : List Byte) : List (Vector Word 16) :=
  (List.range (P.length / 64)).map (blockOf P)

/-- W with its word `t` computed, for 16 ≤ t ≤ 63 (R132); W itself for any other `t`. -/
def expandStep (W : Vector Word 64) (t : Nat) : Vector Word 64 :=
  if h : 16 ≤ t ∧ t ≤ 63 then
    W.set t (scheduleWord W[t - 2] W[t - 7] W[t - 15] W[t - 16])
  else W

/-- `expand(block)` (R132): the block's words, then words 16 to 63 in increasing order. -/
def expandBlock (block : Vector Word 16) : Vector Word 64 :=
  (List.range' 16 48).foldl expandStep
    (Vector.ofFn fun i => if h : i.val < 16 then block[i.val] else 0)

/-- The working registers after the rounds 0 to n - 1 of `compress(H, W)` (R157), for n ≤ 64. -/
def roundsFrom (v : Work) (W : Vector Word 64) (n : Nat) : Work :=
  (List.range n).foldl (fun v t => roundWork v (K (BitVec.ofNat 6 t)) (W.toList.getD t 0)) v

/-- `compress(H, W)` (R157). -/
def compress (H : Vector Word 8) (W : Vector Word 64) : Vector Word 8 :=
  addHash H (roundsFrom (Work.ofHash H) W 64)

/-- The hash state after some blocks, each `H := compress(H, expand(block))` (R180). -/
def hashBlocks (H : Vector Word 8) (blocks : List (Vector Word 16)) : Vector Word 8 :=
  blocks.foldl (fun H block => compress H (expandBlock block)) H

/-- `sha256(m)`, the 64 characters (R180), which the spec defines only for 8 * len(m) < 2^64. DESIGN CHOICE
(notes/assumptions/20.md): for a longer message it is that of `padMessage`, the length field modulo 2^64. -/
def sha256 (m : List Byte) : Vector Byte 64 := serializeHash (hashBlocks IV (parse (padMessage m)))

/-- The number of PAD steps of a job of `n` bytes (R101, R271). -/
def padSteps (n : Nat) : Nat := 9 + zeroBytes n

/-- `E(n)`, the number of engine steps of a job of `n` bytes (R271). -/
def engineSteps (n : Nat) : Nat := 114 * nblocks n + padSteps n + 1

end Sys2Proof.Machine
end

