-- ==== Sys2Proof/Machine/HostProgram.lean ====
section
/-! DEFINITION. The host programs of spec/30_encoding.md R90 to R92 as the words the port sees, and a
run of the machine. `WAIT` is a host loop of RDSTAT and no fixed word sequence (R91). -/

namespace Sys2Proof.Machine

/-- One line of a host program (R90, R91), its operand already a number. -/
inductive Line where
  | nop
  | start
  | data (b : Byte)
  | endMsg
  | rdstat
  | rdhex (i : BitVec 6)
  /-- The directive `.word w`: any word, illegal ones too. -/
  | word (w : Cmd)
  /-- `MSG b0, b1, ..., bk`, or `MSG "s"` by the bytes of `s`. -/
  | msg (m : List Byte)
  /-- `HASH "s"` by the bytes of `s`. -/
  | hash (m : List Byte)
  | readDigest
  deriving DecidableEq, Repr

/-- `MSG`: one DATA per byte, in order (R91). -/
def msgWords (m : List Byte) : List Cmd := m.map fun b => 0x2000#16 ||| b.setWidth 16

/-- `HASH`: START, the bytes, END (R91). -/
def hashWords (m : List Byte) : List Cmd := 0x1000#16 :: msgWords m ++ [0x3000#16]

/-- `READDIGEST`: RDHEX 0 to RDHEX 63 (R91). -/
def readDigestWords : List Cmd := (List.range 64).map fun i => 0x5000#16 ||| BitVec.ofNat 16 i

/-- The words of a line (R90, R91). -/
def Line.words : Line → List Cmd
  | .nop => [0x0000#16]
  | .start => [0x1000#16]
  | .data b => msgWords [b]
  | .endMsg => [0x3000#16]
  | .rdstat => [0x4000#16]
  | .rdhex i => [0x5000#16 ||| i.setWidth 16]
  | .word w => [w]
  | .msg m => msgWords m
  | .hash m => hashWords m
  | .readDigest => readDigestWords

/-- The words of a program, in order (R92). -/
def assemble (p : List Line) : List Cmd := p.flatMap Line.words

/-- `k` steps of the machine, stopping at the first that does not answer a next state. -/
def run (k : Nat) (s : State) : Result := Host.Core.run Sys2Proof.core k s

end Sys2Proof.Machine
end

