-- ==== Sys2Proof/Safety.lean ====
section
/-! DEFINITION. What counts as a safe state and a safe run, and the relations claims are stated in: the
invariants of spec/10_state.md R40, the transition table of spec/43_digest_serializer.md R184, and
what a command and an engine step leave of the host's side. -/

namespace Sys2Proof.Machine

/-- All three error flags are 0. -/
abbrev Chip.NoError (c : Chip) : Prop := c.errInput = false ∧ c.errLength = false ∧ c.errSeq = false

/-- At least one error flag is 1. -/
abbrev Chip.SomeError (c : Chip) : Prop := c.errInput = true ∨ c.errLength = true ∨ c.errSeq = true

/-- The table of R40, one field per row, for a build with the limit `maxBytes`. "Written for this block" and
"for this job" are read as holding a value, and ERROR's "keep the values they had", which speaks of two
states, is left out (DEDUCED: notes/assumptions/9.md). -/
structure Chip.R40 (c : Chip) (maxBytes : Nat) : Prop where
  any : c.L.toNat % 8 = 0 ∧ c.L.toNat ≤ 8 * maxBytes ∧ (c.last = true → c.padStage = .len)
  idle : c.fsm = .idle →
    c.bc = 0#7 ∧ c.L = 0#64 ∧ c.padStage = .none ∧ c.last = false ∧ c.t = 0#6 ∧ c.NoError
  absorb : c.fsm = .absorb →
    c.padStage = .none ∧ c.last = false ∧ c.bc.toNat = c.L.toNat / 8 % 64 ∧ c.bc.toNat ≤ 63 ∧ c.t = 0#6 ∧
      c.NoError
  pad : c.fsm = .pad →
    (c.padStage = .mark ∨ c.padStage = .fill ∨ c.padStage = .len) ∧ c.bc.toNat ≤ 63 ∧ c.t = 0#6 ∧
      (c.padStage = .mark → c.bc.toNat = c.L.toNat / 8 % 64) ∧
      (c.padStage = .len → 57 ≤ c.bc.toNat ∧ c.bc.toNat ≤ 63)
  load : c.fsm = .load → c.bc = 64#7 ∧ c.t = 0#6
  expand : c.fsm = .expand →
    c.bc = 0#7 ∧ 16 ≤ c.t.toNat ∧ c.t.toNat ≤ 63 ∧
      ∀ i : Fin 64, i.val < c.t.toNat → (c.W[i]).isSome = true
  round : c.fsm = .round → c.bc = 0#7 ∧ c.t.toNat ≤ 63
  final : c.fsm = .final → c.bc = 0#7 ∧ c.t = 0#6
  serialize : c.fsm = .serialize → c.bc = 0#7 ∧ c.t = 0#6 ∧ c.last = true ∧ c.padStage = .len
  done : c.fsm = .done →
    c.bc = 0#7 ∧ c.t = 0#6 ∧ c.last = true ∧ c.padStage = .len ∧ c.DIG.isSome = true ∧ c.NoError
  error : c.fsm = .error → c.SomeError

/-- A block is between LOAD and FINAL, R32's "in flight". -/
def Fsm.inFlight : Fsm → Bool
  | .load | .expand | .round | .final => true
  | .idle | .absorb | .pad | .serialize | .done | .error | .unused _ => false

/-- R40 together with what every step also keeps and R40 leaves unsaid (DEDUCED: notes/assumptions/9.md):
which elements hold a value (R39), what a block in flight says of the padding, and that no flag is
set outside ERROR. -/
structure Chip.Inv (c : Chip) (maxBytes : Nat) : Prop where
  r40 : c.R40 maxBytes
  /-- No code 0xA..0xF (R87). -/
  used : ∀ n, c.fsm ≠ .unused n
  /-- The last block in flight is the one that ends with the length field (R32, R105). -/
  inFlight : c.fsm.inFlight = true →
    c.padStage ≠ .mark ∧ (c.last = true ↔ c.padStage = .len) ∧
      (c.padStage = .none → c.L.toNat / 8 % 64 = 0)
  busyNoError : c.fsm.busy = true → c.NoError
  hash : c.fsm ≠ .idle → c.fsm ≠ .error → c.H.isSome = true
  block : c.fsm = .absorb ∨ c.fsm = .pad ∨ c.fsm = .load →
    ∀ i : Fin 64, i.val < c.bc.toNat → (c.B[i]).isSome = true
  work : c.fsm = .expand ∨ c.fsm = .round ∨ c.fsm = .final → c.V.isSome = true
  schedule : c.fsm = .round → ∀ i : Fin 64, (c.W[i]).isSome = true

/-- The invariant of the machine. -/
def State.Inv (s : State) : Prop := s.chip.Inv s.maxMsgBytes.val

/-- What accepting a command with response `r` leaves of the host's side and the schedule (R200). -/
def State.AcceptedWith (s t : State) (r : Resp) : Prop :=
  t.offers = s.offers.tail ∧ t.replies = s.replies ++ [r] ∧ t.turns = s.turns ∧
    t.maxMsgBytes = s.maxMsgBytes

/-- An engine step leaves the host's side and the schedule as they are. -/
def State.SameHost (s t : State) : Prop :=
  t.offers = s.offers ∧ t.replies = s.replies ∧ t.turns = s.turns ∧ t.maxMsgBytes = s.maxMsgBytes

/-- `c'` is `c` after APPEND(v, ps), with `pad_stage` the `ps` the calling step leaves (R105), said of
each element. -/
def Chip.Appended (c c' : Chip) (v : Byte) (ps : PadStage) : Prop :=
  (∀ i : Fin 64, c'.B[i] = if i.val = c.bc.toNat then some v else c.B[i]) ∧
    (c.bc = 63#7 → c'.bc = 64#7 ∧ c'.fsm = .load ∧ c'.last = decide (ps = .len)) ∧
    (c.bc ≠ 63#7 → c'.bc = c.bc + 1 ∧ c'.fsm = c.fsm ∧ c'.last = c.last) ∧
    c' = { c with B := c'.B, bc := c'.bc, fsm := c'.fsm, last := c'.last, padStage := ps }

/-- The next step accepts a START, or reset is active in it. -/
def State.OpensOrResets (s : State) : Prop :=
  s.nextTurn = .reset ∨ (s.nextTurn = .host ∧ s.offers.head? = some 0x1000#16)

/-- The table of R184 for an engine step: `fsm` after it. -/
def fsmAfterEngine (c : Chip) : Fsm :=
  match c.fsm with
  | .pad => if c.bc = 63#7 then .load else .pad
  | .load => .expand
  | .expand => if c.t = 63#6 then .round else .expand
  | .round => if c.t = 63#6 then .final else .round
  | .final => if c.last = true then .serialize else if c.padStage ≠ .none then .pad else .absorb
  | .serialize => .done
  | f => f

/-- The table of R184 for a word the host offers: `fsm` after it. -/
def fsmAfterOffer (maxBytes : Nat) (c : Chip) (w : Cmd) : Fsm :=
  if c.cmdReady w = false then c.fsm
  else if legal w = false then .error
  else if Cmd.op w = 0x1#4 then .absorb
  else if Cmd.op w = 0x2#4 then
    (if c.fsm = .absorb then
      (if c.L.toNat / 8 = maxBytes then .error else if c.bc = 63#7 then .load else .absorb)
    else .error)
  else if Cmd.op w = 0x3#4 then (if c.fsm = .absorb then .pad else .error)
  else c.fsm

/-- The table of R184 for a step of the machine. -/
def fsmAfterStep (s : State) : Fsm :=
  match s.nextTurn with
  | .reset => .idle
  | .engine => fsmAfterEngine s.chip
  | .host =>
    match s.offers with
    | [] => s.chip.fsm
    | w :: _ => fsmAfterOffer s.maxMsgBytes.val s.chip w

/-- The commands that change no state but by their response: NOP, RDSTAT and legal RDHEX (R70, R186). -/
def readsOnly : Instr → Bool
  | .nop | .rdstat | .rdhex _ => true
  | .start | .data _ | .endMsg | .illegal _ => false
  | .pad | .load | .expand | .round | .final | .serialize => false

/-- The first 64 primes p_0 = 2, ..., p_63 = 311, whose roots the ROMs hold (R150, R151). -/
def romPrimes : List Nat :=
  [2, 3, 5, 7, 11, 13, 17, 19, 23, 29, 31, 37, 41, 43, 47, 53,
   59, 61, 67, 71, 73, 79, 83, 89, 97, 101, 103, 107, 109, 113, 127, 131,
   137, 139, 149, 151, 157, 163, 167, 173, 179, 181, 191, 193, 197, 199, 211, 223,
   227, 229, 233, 239, 241, 251, 257, 263, 269, 271, 277, 281, 283, 293, 307, 311]

end Sys2Proof.Machine
end

