-- ==== Sys2Proof/WellFormed.lean ====
section
/-! DEFINITION. Which terms of `Instr` are instructions: `illegal w` is one only for a word that is not
legal (spec/30_encoding.md R84), since a legal word is another command. Every other term is well formed;
the operand widths see to it. -/

namespace Sys2Proof

/-- The well-formed instructions. The one check is R209's: ILLEGAL is a word with
`legal(cmd) = false`. -/
def Instr.wellFormed : Instr → Bool
  | .illegal w => !legal w
  | .nop | .start | .data _ | .endMsg | .rdstat | .rdhex _ => true
  | .pad | .load | .expand | .round | .final | .serialize => true

end Sys2Proof
end

