-- ==== Sys2Proof/Certificates/Slice0/Obligations.lean ====
section
/-! DEFINITION. The statements for the provers. Each docstring names the rules of spec/ it formalises. -/

open Sys2Proof Sys2Proof.Machine

/-! Encoding (spec/30_encoding.md). -/

/-- R81, R87: no bit of an encoding is dropped. Every well-formed instruction, at every operand, decodes
back from its encoding. -/
def Obligations.EncodeDecodeRoundTrip : Prop :=
  ∀ i : Instr, i.wellFormed = true → decode (encode i) = .ok i

/-- R81, R84, R87: each code has one meaning. Whatever a code decodes to is well formed and is encoded by
that code, so no two codes decode to one instruction and no reserved code falls to a neighbour. -/
def Obligations.DecodedCodeIsItsEncoding : Prop :=
  ∀ (k : Code) (i : Instr), decode k = .ok i → i.wellFormed = true ∧ encode i = k

/-- R81, R82, R83: a word decodes to ILLEGAL exactly when it is none of the table's words. -/
def Obligations.IllegalIsEveryOtherWord : Prop :=
  ∀ w : Cmd, decodeCmd w = .illegal w ↔
    ¬ (w = 0x0000#16 ∨ w = 0x1000#16 ∨ (∃ b : Byte, w = 0x2000#16 ||| b.setWidth 16) ∨ w = 0x3000#16 ∨
      w = 0x4000#16 ∨ ∃ i : Byte, i.toNat ≤ 0x3F ∧ w = 0x5000#16 ||| i.setWidth 16)

/-- R83: a word whose bits 11:8 are not 0 is illegal, whatever its OP. -/
def Obligations.ReservedFieldMakesIllegal : Prop :=
  ∀ w : Cmd, (∃ k, 8 ≤ k ∧ k ≤ 11 ∧ w.getLsbD k = true) → decodeCmd w = .illegal w

/-- R81, R87: a few words of the tables decode to the instruction they stand for. -/
def Obligations.SampleWordsDecode : Prop :=
  decode (.cmd 0x0000#16) = .ok .nop ∧ decode (.cmd 0x1000#16) = .ok .start ∧
    decode (.cmd 0x20A5#16) = .ok (.data 0xA5) ∧ decode (.cmd 0x3000#16) = .ok .endMsg ∧
    decode (.cmd 0x4000#16) = .ok .rdstat ∧ decode (.cmd 0x5029#16) = .ok (.rdhex 0x29) ∧
    decode (.cmd 0x5040#16) = .ok (.illegal 0x5040) ∧ decode (.cmd 0x2100#16) = .ok (.illegal 0x2100) ∧
    decode (.fsm 0x2#4) = .ok .pad ∧ decode (.fsm 0x3#4) = .ok .load ∧ decode (.fsm 0x4#4) = .ok .expand ∧
    decode (.fsm 0x5#4) = .ok .round ∧ decode (.fsm 0x6#4) = .ok .final ∧
    decode (.fsm 0x7#4) = .ok .serialize

/-- R90, R91: the words of a host program's lines decode to the commands they stand for, in order. -/
def Obligations.AssembledLinesDecode : Prop :=
  (∀ m : List Byte, (msgWords m).map decodeCmd = m.map Instr.data) ∧
  (∀ m : List Byte, (hashWords m).map decodeCmd = .start :: m.map Instr.data ++ [.endMsg]) ∧
  readDigestWords.map decodeCmd = (List.range 64).map (fun i => Instr.rdhex (BitVec.ofNat 6 i)) ∧
  (∀ b : Byte, (Line.data b).words.map decodeCmd = [.data b]) ∧
  (∀ i : BitVec 6, (Line.rdhex i).words.map decodeCmd = [.rdhex i]) ∧
  (∀ w : Cmd, (Line.word w).words = [w])

/-! Steps, agents and the handshake (spec/44_host_commands.md, spec/43_digest_serializer.md). -/

/-- R200, R202: on the host's turn, a step is the offered word's instruction, performed on the state whose
turn is taken. The turn is the host's by the schedule, or by the schedule's end in a quiescent state (the
model's schedule: notes/assumptions/4.md). -/
def Obligations.HostStepRunsOfferedWord : Prop :=
  ∀ (s : State) (w : Cmd) (ws : List Cmd) (i : Instr),
    s.offers = w :: ws → s.nextTurn = .host → decode (.cmd w) = .ok i → step s = exec i s.endTurn

/-- R88, R185: on the engine's turn in a busy state, a step is the operation that the code of `fsm`
decodes to, performed on the state whose turn is taken; it is the same whatever the host offers (the
model's schedule: notes/assumptions/4.md). -/
def Obligations.EngineStepRunsSelectedOperation : Prop :=
  ∀ s : State, s.nextTurn = .engine → s.chip.busy = true →
    ∃ i, decode (.fsm s.chip.fsm.code) = .ok i ∧ step s = exec i s.endTurn

/-- R22, R185: in IDLE, ABSORB, DONE and ERROR the engine has no step: its turn changes nothing, and when
no turn is fixed the turn is the host's. A host that offers nothing has no step either (R200). That the
turn of an agent without a step passes is the model's choice (notes/assumptions/6.md). -/
def Obligations.NoStepWhenQuiescent : Prop :=
  ∀ s : State, s.chip.fsm = .idle ∨ s.chip.fsm = .absorb ∨ s.chip.fsm = .done ∨ s.chip.fsm = .error →
    (s.nextTurn = .engine → step s = .next s.endTurn) ∧
      (s.turns = [] → s.nextTurn = .host ∧ (s.offers = [] → step s = .next s))

/-- R201: a word with DATA's or END's OP, legal or not, is held while busy: the step changes nothing, no
response is returned and the host goes on offering the same word. That a held word uses up the host's
turn is the model's choice (notes/assumptions/6.md). -/
def Obligations.HeldWordChangesNothing : Prop :=
  ∀ (s : State) (w : Cmd) (ws : List Cmd),
    s.offers = w :: ws → s.nextTurn = .host → s.chip.busy = true →
      (w.extractLsb' 12 4 = 0x2#4 ∨ w.extractLsb' 12 4 = 0x3#4) → step s = .next s.endTurn

/-- R37, R68, R200, R201: when the host's step answers, either `cmd_ready` holds, the offered word is gone
and one response is returned, or it does not hold and nothing changes. -/
def Obligations.AcceptedExactlyWhenReady : Prop :=
  ∀ (s t : State) (w : Cmd) (ws : List Cmd),
    s.offers = w :: ws → s.nextTurn = .host → step s = .next t →
      (s.chip.cmdReady w = true ∧ t.offers = ws ∧ ∃ r : Resp, t.replies = s.replies ++ [r]) ∨
        (s.chip.cmdReady w = false ∧ t = s.endTurn)

/-- R37: `cmd_ready` is 0 exactly for OP 0x2 and 0x3 while busy. -/
def Obligations.CommandReadyRule : Prop :=
  ∀ (c : Chip) (w : Cmd),
    c.cmdReady w = false ↔
      ((w.extractLsb' 12 4 = 0x2#4 ∨ w.extractLsb' 12 4 = 0x3#4) ∧
        (c.fsm = .pad ∨ c.fsm = .load ∨ c.fsm = .expand ∨ c.fsm = .round ∨ c.fsm = .final ∨
          c.fsm = .serialize))

/-- R260: reset in any state, whatever is offered. The control registers and flags are cleared, the
datapath elements hold no value, as at power-on; the offered word is not accepted and no response is
returned. -/
def Obligations.ResetClearsEveryElement : Prop :=
  ∀ s : State, s.nextTurn = .reset → ∃ t, step s = .next t ∧
    t.chip.fsm = .idle ∧ t.chip.t = 0#6 ∧ t.chip.bc = 0#7 ∧ t.chip.L = 0#64 ∧ t.chip.padStage = .none ∧
    t.chip.last = false ∧ t.chip.errInput = false ∧ t.chip.errLength = false ∧ t.chip.errSeq = false ∧
    t.chip.H = none ∧ t.chip.V = none ∧ (∀ i : Fin 64, t.chip.W[i] = none) ∧
    (∀ i : Fin 64, t.chip.B[i] = none) ∧ t.chip.DIG = none ∧
    t.chip = State.reset.chip ∧
    t.offers = s.offers ∧ t.replies = s.replies ∧ t.maxMsgBytes = s.maxMsgBytes

/-- R261: after reset STATUS is 0x00, `irq` is 0 and the engine has no step. -/
def Obligations.AfterResetOutputsAreZero : Prop :=
  ∀ s t : State, s.nextTurn = .reset → step s = .next t →
    t.chip.status = 0x00#8 ∧ t.chip.irq = false ∧ t.chip.busy = false

/-! Host commands (spec/44_host_commands.md). "Every state" is every state of the table of R87; where `fsm`
holds a code that no rule writes, every command stops (R88; `BrokenPreconditionsFault`). -/

/-- R203: NOP does nothing, in every state, and returns 0x8000. -/
def Obligations.NopLeavesChipUnchanged : Prop :=
  ∀ s : State, (∀ n, s.chip.fsm ≠ .unused n) → ∃ t, exec .nop s = .next t ∧ t.chip = s.chip ∧ s.AcceptedWith t 0x8000#16

/-- R204: START in every state. -/
def Obligations.StartOpensFreshJob : Prop :=
  ∀ s : State, (∀ n, s.chip.fsm ≠ .unused n) → ∃ t H, exec .start s = .next t ∧ s.AcceptedWith t 0x8000#16 ∧
    t.chip.H = some H ∧ (∀ i : Fin 8, H[i] = IV[i]) ∧
    t.chip.L = 0#64 ∧ t.chip.bc = 0#7 ∧ t.chip.padStage = .none ∧ t.chip.last = false ∧ t.chip.t = 0#6 ∧
    t.chip.errInput = false ∧ t.chip.errLength = false ∧ t.chip.errSeq = false ∧
    t.chip.fsm = .absorb ∧ t.chip.status = 0x01#8 ∧ t.chip.irq = false ∧
    t.chip.V = s.chip.V ∧ t.chip.W = s.chip.W ∧ t.chip.B = s.chip.B ∧ t.chip.DIG = s.chip.DIG

/-- R205: DATA in ABSORB below the limit puts its byte at `bc` and counts 8 bits; the byte that fills the
block moves `fsm` to LOAD. `pad_stage` is NONE in ABSORB (R40), as R105's call says. -/
def Obligations.DataAppendsMessageByte : Prop :=
  ∀ (s : State) (b : Byte), s.chip.fsm = .absorb → s.chip.L.toNat / 8 ≠ s.maxMsgBytes.val →
    s.chip.bc.toNat ≤ 63 →
    ∃ t, exec (.data b) s = .next t ∧ s.AcceptedWith t 0x8000#16 ∧
      (∀ i : Fin 64, t.chip.B[i] = if i.val = s.chip.bc.toNat then some b else s.chip.B[i]) ∧
      (s.chip.bc = 63#7 → t.chip.bc = 64#7 ∧ t.chip.fsm = .load ∧ t.chip.last = false) ∧
      (s.chip.bc ≠ 63#7 → t.chip.bc = s.chip.bc + 1 ∧ t.chip.fsm = .absorb ∧ t.chip.last = s.chip.last) ∧
      t.chip = { s.chip with
        L := s.chip.L + 8, B := t.chip.B, bc := t.chip.bc, fsm := t.chip.fsm, last := t.chip.last }

/-- R206: END in ABSORB starts the padder and freezes L. -/
def Obligations.EndStartsPadding : Prop :=
  ∀ s : State, s.chip.fsm = .absorb → ∃ t, exec .endMsg s = .next t ∧ s.AcceptedWith t 0x8000#16 ∧
    t.chip = { s.chip with padStage := .mark, fsm := .pad }

/-- R207: RDSTAT returns STATUS as it stands before the step and changes nothing of the chip. -/
def Obligations.RdstatReturnsStatus : Prop :=
  ∀ s : State, (∀ n, s.chip.fsm ≠ .unused n) → ∃ t, exec .rdstat s = .next t ∧ t.chip = s.chip ∧
    s.AcceptedWith t (0xC000#16 ||| s.chip.status.setWidth 16)

/-- R208: RDHEX i in DONE returns character i, the digest being there; in every other state it returns
0x8000; it changes nothing of the chip. -/
def Obligations.RdhexReturnsCharacter : Prop :=
  ∀ (s : State) (i : BitVec 6), (∀ n, s.chip.fsm ≠ .unused n) →
    (∀ d, s.chip.fsm = .done → s.chip.DIG = some d → ∃ t, exec (.rdhex i) s = .next t ∧ t.chip = s.chip ∧
      s.AcceptedWith t (0xC000#16 ||| (d[i.toNat]'i.isLt).setWidth 16)) ∧
    (s.chip.fsm ≠ .done → ∃ t, exec (.rdhex i) s = .next t ∧ t.chip = s.chip ∧
      s.AcceptedWith t 0x8000#16)

/-- R209: an illegal word that is not held raises InputError in any state, busy ones too; one that is held
(DATA's or END's OP while busy) changes nothing. -/
def Obligations.IllegalRaisesInputError : Prop :=
  ∀ (s : State) (w : Cmd), legal w = false → (∀ n, s.chip.fsm ≠ .unused n) →
    (s.chip.cmdReady w = true → ∃ t, exec (.illegal w) s = .next t ∧ s.AcceptedWith t 0x8000#16 ∧
      t.chip = { s.chip with errInput := true, fsm := .error }) ∧
    (s.chip.cmdReady w = false → exec (.illegal w) s = .next s)

/-- R234: DATA and END in IDLE, DONE and ERROR raise SeqError and do nothing else; busy states hold them. -/
def Obligations.OutOfSequenceRaisesSeqError : Prop :=
  ∀ (s : State) (i : Instr), (i = .endMsg ∨ ∃ b, i = .data b) →
    (s.chip.fsm = .idle ∨ s.chip.fsm = .done ∨ s.chip.fsm = .error →
      ∃ t, exec i s = .next t ∧ s.AcceptedWith t 0x8000#16 ∧
        t.chip = { s.chip with errSeq := true, fsm := .error }) ∧
    (s.chip.busy = true → exec i s = .next s)

/-- R233: DATA in ABSORB when the job holds MAX_MSG_BYTES bytes raises LengthLimitError; the byte is not
stored and L and `bc` stay. -/
def Obligations.DataAtLimitRaisesLengthError : Prop :=
  ∀ (s : State) (b : Byte), s.chip.fsm = .absorb → s.chip.L.toNat / 8 = s.maxMsgBytes.val →
    ∃ t, exec (.data b) s = .next t ∧ s.AcceptedWith t 0x8000#16 ∧
      t.chip = { s.chip with errLength := true, fsm := .error }

/-- R237: which error an accepted word raises, in the order InputError, SeqError, LengthLimitError, and
that it raises at most one: every other accepted word sets no flag, and a held word raises nothing. -/
def Obligations.ErrorPriorityOfAcceptedWord : Prop :=
  ∀ (s t : State) (w : Cmd), exec (decodeCmd w) s = .next t →
    (s.chip.cmdReady w = false → t = s) ∧
    (s.chip.cmdReady w = true →
      if legal w = false then t.chip = { s.chip with errInput := true, fsm := .error }
      else if (w.extractLsb' 12 4 = 0x2#4 ∨ w.extractLsb' 12 4 = 0x3#4) ∧ s.chip.fsm ≠ .absorb then
        t.chip = { s.chip with errSeq := true, fsm := .error }
      else if w.extractLsb' 12 4 = 0x2#4 ∧ s.chip.L.toNat / 8 = s.maxMsgBytes.val then
        t.chip = { s.chip with errLength := true, fsm := .error }
      else (t.chip.errInput = true → s.chip.errInput = true) ∧
        (t.chip.errLength = true → s.chip.errLength = true) ∧
        (t.chip.errSeq = true → s.chip.errSeq = true))

/-! Outputs (spec/10_state.md). -/

/-- R35: every bit of STATUS, and that at most one of READY, BUSY and DONE is 1. -/
def Obligations.StatusBitLayout : Prop :=
  ∀ c : Chip,
    c.status.getLsbD 0 = decide (c.fsm = .absorb) ∧
    c.status.getLsbD 1 = decide (c.fsm = .pad ∨ c.fsm = .load ∨ c.fsm = .expand ∨ c.fsm = .round ∨
      c.fsm = .final ∨ c.fsm = .serialize) ∧
    c.status.getLsbD 2 = decide (c.fsm = .done) ∧
    c.status.getLsbD 3 = c.errInput ∧ c.status.getLsbD 4 = c.errLength ∧ c.status.getLsbD 5 = c.errSeq ∧
    c.status.getLsbD 6 = false ∧ c.status.getLsbD 7 = false ∧
    ¬ (c.status.getLsbD 0 = true ∧ c.status.getLsbD 1 = true) ∧
    ¬ (c.status.getLsbD 0 = true ∧ c.status.getLsbD 2 = true) ∧
    ¬ (c.status.getLsbD 1 = true ∧ c.status.getLsbD 2 = true)

/-- R35, R36, R243: in a state that meets the invariant, ERROR is recognised by a STATUS bit 5:3, and `irq`
is 1 exactly when STATUS shows DONE or an error, never both. -/
def Obligations.IrqIsDoneOrErrorInStatus : Prop :=
  ∀ (c : Chip) (maxBytes : Nat), c.Inv maxBytes →
    (c.fsm = .error ↔
      (c.status.getLsbD 3 = true ∨ c.status.getLsbD 4 = true ∨ c.status.getLsbD 5 = true)) ∧
    (c.irq = true ↔ (c.status.getLsbD 2 = true ∨ c.fsm = .error)) ∧
    ¬ (c.status.getLsbD 2 = true ∧
      (c.status.getLsbD 3 = true ∨ c.status.getLsbD 4 = true ∨ c.status.getLsbD 5 = true))

/-! The engine's operations (spec/40_padder_parser.md to spec/43_digest_serializer.md). Each answers in the
states that meet its preconditions, R40's table (R235); in every other state it stops (below). -/

/-- R106: the byte PAD appends and the stage it leaves, for every stage the engine can find; in stage NONE,
which it cannot find, the fault R106 names. -/
def Obligations.PadAppendsPaddingByte : Prop :=
  ∀ s : State, s.chip.fsm = .pad →
    (s.chip.R40 s.maxMsgBytes.val → s.chip.padStage = .mark →
      ∃ t, exec .pad s = .next t ∧ s.SameHost t ∧ s.chip.Appended t.chip 0x80 .fill) ∧
    (s.chip.R40 s.maxMsgBytes.val → s.chip.padStage = .fill → s.chip.bc.toNat = 56 →
      ∃ t, exec .pad s = .next t ∧ s.SameHost t ∧ s.chip.Appended t.chip (be64Byte s.chip.L 0) .len) ∧
    (s.chip.R40 s.maxMsgBytes.val → s.chip.padStage = .fill → s.chip.bc.toNat ≠ 56 →
      ∃ t, exec .pad s = .next t ∧ s.SameHost t ∧ s.chip.Appended t.chip 0x00 .fill) ∧
    (s.chip.R40 s.maxMsgBytes.val → s.chip.padStage = .len →
      ∃ t, exec .pad s = .next t ∧ s.SameHost t ∧
        s.chip.Appended t.chip (be64Byte s.chip.L (s.chip.bc.toNat - 56)) .len) ∧
    (s.chip.padStage = .none → exec .pad s = .fault .padStageNone)

/-- R107: LOAD on a full block (`bc` is 64 by R40). -/
def Obligations.LoadParsesBlock : Prop :=
  ∀ (s : State) (bytes : Vector Byte 64) (H : Vector Word 8),
    s.chip.fsm = .load → s.chip.R40 s.maxMsgBytes.val → s.chip.H = some H →
    (∀ i : Fin 64, s.chip.B[i] = some bytes[i]) →
    ∃ t, exec .load s = .next t ∧ s.SameHost t ∧
      (∀ j : Fin 16, t.chip.W[j.val] =
        some (bytes[4 * j.val] ++ bytes[4 * j.val + 1] ++ bytes[4 * j.val + 2] ++ bytes[4 * j.val + 3])) ∧
      (∀ i : Fin 64, 16 ≤ i.val → t.chip.W[i] = s.chip.W[i]) ∧
      t.chip.V = some ⟨H[0], H[1], H[2], H[3], H[4], H[5], H[6], H[7]⟩ ∧
      t.chip.t = 16#6 ∧ t.chip.bc = 0#7 ∧ t.chip.fsm = .expand ∧
      t.chip = { s.chip with W := t.chip.W, V := t.chip.V, t := 16, bc := 0, fsm := .expand }

/-- R133: EXPAND at `t`, 16 ≤ t ≤ 63 by R40. -/
def Obligations.ExpandComputesScheduleWord : Prop :=
  ∀ (s : State) (w2 w7 w15 w16 : Word), s.chip.fsm = .expand →
    s.chip.R40 s.maxMsgBytes.val →
    s.chip.schedule? (s.chip.t.toNat - 2) = some w2 → s.chip.schedule? (s.chip.t.toNat - 7) = some w7 →
    s.chip.schedule? (s.chip.t.toNat - 15) = some w15 → s.chip.schedule? (s.chip.t.toNat - 16) = some w16 →
    ∃ t, exec .expand s = .next t ∧ s.SameHost t ∧
      (∀ i : Fin 64, t.chip.W[i] =
        if i.val = s.chip.t.toNat then some (smallSigma1 w2 + w7 + smallSigma0 w15 + w16)
        else s.chip.W[i]) ∧
      (s.chip.t = 63#6 → t.chip.t = 0#6 ∧ t.chip.fsm = .round) ∧
      (s.chip.t ≠ 63#6 → t.chip.t = s.chip.t + 1 ∧ t.chip.fsm = .expand) ∧
      t.chip = { s.chip with W := t.chip.W, t := t.chip.t, fsm := t.chip.fsm }

/-- R158: ROUND at `t`; all eight writes read the values from before the step. -/
def Obligations.RoundUpdatesWorkingRegisters : Prop :=
  ∀ (s : State) (v : Work) (w : Word), s.chip.fsm = .round → s.chip.R40 s.maxMsgBytes.val →
    s.chip.V = some v → s.chip.schedule? s.chip.t.toNat = some w →
    ∃ t v', exec .round s = .next t ∧ s.SameHost t ∧ t.chip.V = some v' ∧
      v'.h = v.g ∧ v'.g = v.f ∧ v'.f = v.e ∧
      v'.e = v.d + (v.h + bigSigma1 v.e + ch v.e v.f v.g + K s.chip.t + w) ∧
      v'.d = v.c ∧ v'.c = v.b ∧ v'.b = v.a ∧
      v'.a = (v.h + bigSigma1 v.e + ch v.e v.f v.g + K s.chip.t + w) + (bigSigma0 v.a + maj v.a v.b v.c) ∧
      (s.chip.t = 63#6 → t.chip.t = 0#6 ∧ t.chip.fsm = .final) ∧
      (s.chip.t ≠ 63#6 → t.chip.t = s.chip.t + 1 ∧ t.chip.fsm = .round) ∧
      t.chip = { s.chip with V := t.chip.V, t := t.chip.t, fsm := t.chip.fsm }

/-- R159: FINAL. -/
def Obligations.FinalAddsAndChooses : Prop :=
  ∀ (s : State) (H : Vector Word 8) (v : Work), s.chip.fsm = .final → s.chip.R40 s.maxMsgBytes.val →
    s.chip.H = some H → s.chip.V = some v →
    ∃ t H', exec .final s = .next t ∧ s.SameHost t ∧ t.chip.H = some H' ∧
      H' = #v[H[0] + v.a, H[1] + v.b, H[2] + v.c, H[3] + v.d,
        H[4] + v.e, H[5] + v.f, H[6] + v.g, H[7] + v.h] ∧
      (s.chip.last = true → t.chip.fsm = .serialize) ∧
      (s.chip.last = false → s.chip.padStage ≠ .none → t.chip.fsm = .pad) ∧
      (s.chip.last = false → s.chip.padStage = .none → t.chip.fsm = .absorb) ∧
      t.chip = { s.chip with H := t.chip.H, fsm := t.chip.fsm }

/-- R183, R182: SERIALIZE; character i is the hexadecimal digit of bits 31 - 4(i mod 8) down to
28 - 4(i mod 8) of H[i / 8]. -/
def Obligations.SerializeRendersHash : Prop :=
  ∀ (s : State) (H : Vector Word 8), s.chip.fsm = .serialize → s.chip.R40 s.maxMsgBytes.val →
    s.chip.H = some H →
    ∃ t d, exec .serialize s = .next t ∧ s.SameHost t ∧ t.chip.DIG = some d ∧
      (∀ (k : Fin 8) (j : Fin 8), d[8 * k.val + j.val] = hexchar ((H[k] >>> (28 - 4 * j.val)).setWidth 4)) ∧
      t.chip = { s.chip with DIG := t.chip.DIG, fsm := .done }

/-- R235, R15, R30, R34: no internal operation raises an error, touches the message length or the host's side. -/
def Obligations.EngineOperationsRaiseNoError : Prop :=
  ∀ (s t : State) (i : Instr),
    (i = .pad ∨ i = .load ∨ i = .expand ∨ i = .round ∨ i = .final ∨ i = .serialize) →
    exec i s = .next t →
      t.chip.errInput = s.chip.errInput ∧ t.chip.errLength = s.chip.errLength ∧
      t.chip.errSeq = s.chip.errSeq ∧ t.chip.fsm ≠ .error ∧ t.chip.fsm ≠ .idle ∧
      t.chip.L = s.chip.L ∧ s.SameHost t

/-- R88, R105, R106, R107, R133, R235: where a broken precondition of an operation stops the machine, by
name. The spec asks a model for a fault there; no state that meets the invariant gets there. On an unused
code every command and every turn but reset stops (notes/assumptions/7.md). Where several preconditions are
broken at once, which fault comes first is the model's choice (notes/assumptions/8.md). -/
def Obligations.BrokenPreconditionsFault : Prop :=
  ∀ s : State,
    (∀ n, s.nextTurn ≠ .reset → s.chip.fsm = .unused n → step s = .fault (.unusedFsm n)) ∧
    (∀ n w, s.chip.fsm = .unused n → exec (decodeCmd w) s = .fault (.unusedFsm n)) ∧
    (s.chip.fsm = .pad → s.chip.padStage = .none → exec .pad s = .fault .padStageNone) ∧
    (s.chip.fsm = .pad → s.chip.padStage = .len → s.chip.bc.toNat < 57 →
      exec .pad s = .fault .lengthByteIndex) ∧
    (s.chip.fsm = .pad → s.chip.padStage ≠ .none → 64 ≤ s.chip.bc.toNat →
      exec .pad s = .fault .blockFull) ∧
    (∀ b, s.chip.fsm = .absorb → s.chip.L.toNat / 8 ≠ s.maxMsgBytes.val → 64 ≤ s.chip.bc.toNat →
      exec (.data b) s = .fault .blockFull) ∧
    (s.chip.fsm = .load → s.chip.bc ≠ 64#7 → exec .load s = .fault .blockNotFull) ∧
    (s.chip.fsm = .expand → s.chip.t.toNat < 16 → exec .expand s = .fault .scheduleIndex)

/-- R235, R40: an internal operation that finds any predicate of R40's table broken stops with a fault and
has no effect. Where its own checks pass and its operands are there, the fault is `brokenInvariant`. R40's
"written for this block" is read as holding a value (notes/assumptions/9.md). -/
def Obligations.BrokenInvariantStopsOperation : Prop :=
  ∀ s : State, ¬ s.chip.R40 s.maxMsgBytes.val →
    (∀ i, decode (.fsm s.chip.fsm.code) = .ok i → ∃ f, exec i s = .fault f) ∧
    (s.chip.fsm = .pad → s.chip.padStage ≠ .none → s.chip.bc.toNat ≤ 63 →
      (s.chip.padStage = .len → 57 ≤ s.chip.bc.toNat) → exec .pad s = .fault .brokenInvariant) ∧
    (s.chip.fsm = .load → s.chip.bc = 64#7 → (∀ i : Fin 64, (s.chip.B[i]).isSome = true) →
      s.chip.H.isSome = true → exec .load s = .fault .brokenInvariant) ∧
    (s.chip.fsm = .expand → 16 ≤ s.chip.t.toNat →
      (s.chip.schedule? (s.chip.t.toNat - 2)).isSome = true →
      (s.chip.schedule? (s.chip.t.toNat - 7)).isSome = true →
      (s.chip.schedule? (s.chip.t.toNat - 15)).isSome = true →
      (s.chip.schedule? (s.chip.t.toNat - 16)).isSome = true →
      exec .expand s = .fault .brokenInvariant) ∧
    (s.chip.fsm = .round → s.chip.V.isSome = true → (s.chip.schedule? s.chip.t.toNat).isSome = true →
      exec .round s = .fault .brokenInvariant) ∧
    (s.chip.fsm = .final → s.chip.H.isSome = true → s.chip.V.isSome = true →
      exec .final s = .fault .brokenInvariant) ∧
    (s.chip.fsm = .serialize → s.chip.H.isSome = true → exec .serialize s = .fault .brokenInvariant)

/-- R39: every rule that reads an element which holds no value stops with the fault of that element. Where
several elements are absent, or another predicate of R40 is broken too, which fault comes first is the
model's choice (notes/assumptions/8.md). -/
def Obligations.AbsentReadsFault : Prop :=
  ∀ s : State,
    (s.chip.fsm = .load → s.chip.bc = 64#7 → (∃ i : Fin 64, s.chip.B[i] = none) →
      exec .load s = .fault (.absentRead .block)) ∧
    (s.chip.fsm = .load → s.chip.bc = 64#7 → (∀ i : Fin 64, (s.chip.B[i]).isSome = true) → s.chip.H = none →
      exec .load s = .fault (.absentRead .hashState)) ∧
    (s.chip.fsm = .expand → 16 ≤ s.chip.t.toNat →
      (s.chip.schedule? (s.chip.t.toNat - 2) = none ∨ s.chip.schedule? (s.chip.t.toNat - 7) = none ∨
        s.chip.schedule? (s.chip.t.toNat - 15) = none ∨ s.chip.schedule? (s.chip.t.toNat - 16) = none) →
      exec .expand s = .fault (.absentRead .schedule)) ∧
    (s.chip.fsm = .round → s.chip.V = none → exec .round s = .fault (.absentRead .working)) ∧
    (s.chip.fsm = .round → s.chip.V ≠ none → s.chip.schedule? s.chip.t.toNat = none →
      exec .round s = .fault (.absentRead .schedule)) ∧
    (s.chip.fsm = .final → s.chip.H = none → exec .final s = .fault (.absentRead .hashState)) ∧
    (s.chip.fsm = .final → s.chip.H ≠ none → s.chip.V = none →
      exec .final s = .fault (.absentRead .working)) ∧
    (s.chip.fsm = .serialize → s.chip.H = none → exec .serialize s = .fault (.absentRead .hashState)) ∧
    (∀ i, s.chip.fsm = .done → s.chip.DIG = none → exec (.rdhex i) s = .fault (.absentRead .digest))

/-! The whole machine. -/

/-- R40: the invariant, R40's table with what the model deduces beside it (notes/assumptions/9.md), holds
after reset, for every value of MAX_MSG_BYTES. -/
def Obligations.ResetMeetsInvariant : Prop := ∀ m : Config.MaxMsgBytes, (State.resetWith m).Inv

/-- R40, R39, R235: from every state that meets the invariant (R40's table with what the model deduces beside
it: notes/assumptions/9.md), whatever is offered and whoever's turn it
is, the step answers a next state, which meets the invariant. The machine never stops in a reachable
state, so no operation finds a precondition broken or reads an element that holds no value. -/
def Obligations.StepKeepsInvariantAndNeverStops : Prop :=
  ∀ s : State, s.Inv → ∃ t, step s = .next t ∧ t.Inv

/-- R40: the table of R40, as `Chip.R40` reads it, holds in every state reachable from reset, for every value
of MAX_MSG_BYTES, every sequence of offered words and every list of turns, and none of these runs stops. The
reading is the model's (DEDUCED, notes/assumptions/9.md): W and DIG "written for this block" or "for this
job" means only that they hold a value, and ERROR's "keep the values they had" is not part of it. -/
def Obligations.ReachableStatesMeetTable : Prop :=
  ∀ (m : Config.MaxMsgBytes) (offers : List Cmd) (turns : List Turn) (k : Nat),
    ∃ t, run k { State.resetWith m with offers := offers, turns := turns } = .next t ∧
      t.chip.R40 m.val ∧ t.maxMsgBytes = m

/-- R184: every step moves `fsm` as the transition table says. -/
def Obligations.StepFollowsTransitionTable : Prop :=
  ∀ s t : State, step s = .next t → t.chip.fsm = fsmAfterStep s

/-- R239, R240: ERROR is left only by START or reset; until then only the flags change. -/
def Obligations.ErrorLeftOnlyByStartOrReset : Prop :=
  ∀ s t : State, s.chip.fsm = .error → ¬ s.OpensOrResets → step s = .next t →
    t.chip = { s.chip with errInput := t.chip.errInput, errSeq := t.chip.errSeq } ∧
      (s.chip.errInput = true → t.chip.errInput = true) ∧ (s.chip.errSeq = true → t.chip.errSeq = true)

/-- R34: a flag that is set stays set until START or reset; START and reset clear all three. -/
def Obligations.ErrorFlagsAreSticky : Prop :=
  ∀ s t : State, step s = .next t →
    (s.OpensOrResets → t.chip.errInput = false ∧ t.chip.errLength = false ∧ t.chip.errSeq = false) ∧
    (¬ s.OpensOrResets →
      (s.chip.errInput = true → t.chip.errInput = true) ∧
      (s.chip.errLength = true → t.chip.errLength = true) ∧ (s.chip.errSeq = true → t.chip.errSeq = true))

/-- R72: after DONE, the digest does not change until START or reset, and every RDHEX accepted meanwhile
with no error returns the same character. -/
def Obligations.DigestStableAfterDone : Prop :=
  ∀ s t : State, s.chip.fsm = .done → ¬ s.OpensOrResets → step s = .next t →
    t.chip.DIG = s.chip.DIG ∧ t.chip.H = s.chip.H ∧ (t.chip.fsm = .done ∨ t.chip.fsm = .error)

/-- R30: L changes by START and reset, which set it to 0, and by a DATA in ABSORB, which adds 8; by no other
step. -/
def Obligations.LengthChangesOnlyByData : Prop :=
  ∀ s t : State, step s = .next t →
    (s.OpensOrResets → t.chip.L = 0#64) ∧
    (¬ s.OpensOrResets → t.chip.L = s.chip.L ∨
      (t.chip.L = s.chip.L + 8 ∧ s.chip.fsm = .absorb ∧ s.nextTurn = .host ∧
        ∃ b : Byte, s.offers.head? = some (0x2000#16 ||| b.setWidth 16)))

/-- R23, R24: H is written by START (the IV), by FINAL and by reset alone. -/
def Obligations.HashWrittenOnlyByStartFinalReset : Prop :=
  ∀ s t : State, step s = .next t →
    t.chip.H = s.chip.H ∨ s.OpensOrResets ∨ (s.nextTurn = .engine ∧ s.chip.fsm = .final)

/-! The algorithm's functions. -/

/-- R10: ROTR moves bit (i + n) mod 32 to bit i. -/
def Obligations.RotrRotatesRight : Prop :=
  ∀ (x : Word) (n i : Nat), 0 < n → n < 32 → i < 32 →
    (rotr x n).getLsbD i = x.getLsbD ((i + n) % 32)

/-- R155, R156: Ch chooses y where x is 1 and z where x is 0; Maj is the majority of the three bits. -/
def Obligations.ChooseAndMajorityBitByBit : Prop :=
  ∀ (x y z : Word) (i : Nat), i < 32 →
    (ch x y z).getLsbD i = (if x.getLsbD i then y.getLsbD i else z.getLsbD i) ∧
    ((maj x y z).getLsbD i = true ↔
      2 ≤ (x.getLsbD i).toNat + (y.getLsbD i).toNat + (z.getLsbD i).toNat)

/-- R14: BE32 and BE64_BYTE are big-endian, said in numbers. -/
def Obligations.BytesAreBigEndian : Prop :=
  (∀ b0 b1 b2 b3 : Byte,
    (be32 b0 b1 b2 b3).toNat = b0.toNat * 2 ^ 24 + b1.toNat * 2 ^ 16 + b2.toNat * 2 ^ 8 + b3.toNat) ∧
  (∀ (L : LenWord) (k : Nat), k ≤ 7 →
    (be64Byte L k).toNat = L.toNat / 2 ^ (8 * (7 - k)) % 256)

/-- R150, R151: the ROMs hold the first 32 bits of the fractional parts of the cube roots of the first 64
primes and of the square roots of the first 8. -/
def Obligations.RomsHoldRootsOfPrimes : Prop :=
  (∀ n, n < 312 → (Nat.Prime n ↔ n ∈ romPrimes)) ∧ romPrimes.length = 64 ∧ romPrimes.Pairwise (· < ·) ∧
  (∀ i, i < 64 → ∃ r, r ^ 3 ≤ romPrimes.getD i 0 * 2 ^ 96 ∧ romPrimes.getD i 0 * 2 ^ 96 < (r + 1) ^ 3 ∧
    (K (BitVec.ofNat 6 i)).toNat = r % 2 ^ 32) ∧
  (∀ i : Fin 8, ∃ r, r ^ 2 ≤ romPrimes.getD i.val 0 * 2 ^ 64 ∧
    romPrimes.getD i.val 0 * 2 ^ 64 < (r + 1) ^ 2 ∧ (IV[i]).toNat = r % 2 ^ 32)

/-- R101: the length of the padded message, its number of blocks, and the bounds of the padding. The spec
defines `pad` only for 8 * n < 2^64; that these lengths hold of longer lists too is the model's choice
(notes/assumptions/20.md). -/
def Obligations.PaddedLengthAndBlocks : Prop :=
  ∀ m : List Byte,
    ((padMessage m).length : Int) = m.length + 9 + (55 - (m.length : Int)) % 64 ∧
    (padMessage m).length = 64 * nblocks m.length ∧ (parse (padMessage m)).length = nblocks m.length ∧
    9 ≤ (padMessage m).length - m.length ∧ (padMessage m).length - m.length ≤ 72

/-- R102: the padded empty message. -/
def Obligations.EmptyMessagePadsToOneBlock : Prop :=
  padMessage [] = 0x80 :: List.replicate 63 0x00 ∧ nblocks 0 = 1

/-- R181, R182, R187: every character of a rendered hash state is one of 0 to 9 and a to f. -/
def Obligations.DigestCharactersAreLowercaseHex : Prop :=
  ∀ (H : Vector Word 8) (i : Fin 64),
    (0x30 ≤ (serializeHash H)[i].toNat ∧ (serializeHash H)[i].toNat ≤ 0x39) ∨
      (0x61 ≤ (serializeHash H)[i].toNat ∧ (serializeHash H)[i].toNat ≤ 0x66)

/-! Runs of the engine and of whole jobs. `turns = []` fixes no interleaving by hand: the engine steps
while it has an operation, else the host (the model's choice: notes/assumptions/4.md). -/

/-- R134: the 48 EXPAND steps of a block leave `expand(block)` in W and hand over to round 0; nothing but
W, `t` and `fsm` changes. -/
def Obligations.ExpandPhaseComputesSchedule : Prop :=
  ∀ (s : State) (block : Vector Word 16), s.turns = [] → s.chip.fsm = .expand →
    s.chip.R40 s.maxMsgBytes.val → s.chip.t = 16#6 →
    (∀ j : Fin 16, s.chip.W[j.val] = some block[j]) →
    ∃ t, run 48 s = .next t ∧ (∀ i : Fin 64, t.chip.W[i] = some (expandBlock block)[i]) ∧
      t = s.withChip { s.chip with W := t.chip.W, t := 0, fsm := .round }

/-- R160: a block's LOAD, 48 EXPAND, 64 ROUND and FINAL fold it into the hash state:
`H = compress(H_in, expand(block))`. -/
def Obligations.BlockFoldsIntoHash : Prop :=
  ∀ (s : State) (bytes : Vector Byte 64) (H : Vector Word 8), s.turns = [] → s.chip.fsm = .load →
    s.chip.R40 s.maxMsgBytes.val → s.chip.H = some H → (∀ i : Fin 64, s.chip.B[i] = some bytes[i]) →
    ∃ t, run 114 s = .next t ∧ t.chip.H = some (compress H (expandBlock (blockWords bytes))) ∧
      t.chip.fsm =
        (if s.chip.last = true then .serialize else if s.chip.padStage = .none then .absorb else .pad) ∧
      t = s.withChip { s.chip with
        H := t.chip.H, V := t.chip.V, W := t.chip.W, t := 0, bc := 0, fsm := t.chip.fsm }

/-- R270: from every state that meets the invariant, the engine left to itself ends its busy period within
301 steps (E(56), the longest: 8 PAD, 114, 64 PAD, 114, SERIALIZE). -/
def Obligations.BusyPeriodEnds : Prop :=
  ∀ s : State, s.Inv → s.turns = [] → ∃ k t, k ≤ 301 ∧ run k s = .next t ∧ t.chip.busy = false

/-- R186, R271: a job of `n` bytes from any quiescent state reaches DONE with `DIG = sha256(m)` after
1 START, n DATA, 1 END and exactly E(n) engine steps, with no flag set. -/
def Obligations.JobComputesSha256 : Prop :=
  ∀ (s : State) (m : List Byte) (rest : List Cmd), m.length ≤ s.maxMsgBytes.val → s.turns = [] →
    s.chip.fsm.quiescent = true → s.offers = hashWords m ++ rest →
    ∃ t, run (m.length + 2 + engineSteps m.length) s = .next t ∧ t.chip.fsm = .done ∧
      t.chip.DIG = some (sha256 m) ∧ t.chip.H = some (hashBlocks IV (parse (padMessage m))) ∧
      t.chip.NoError ∧ t.offers = rest ∧
      t.replies = s.replies ++ List.replicate (m.length + 2) 0x8000#16

/-- R263, R187: the complete host sequence HASH, READDIGEST returns the 64 characters of `sha256(m)`, each
as 0xC000 ∨ its ASCII code. -/
def Obligations.HostSequenceReadsSha256 : Prop :=
  ∀ (s : State) (m : List Byte), m.length ≤ s.maxMsgBytes.val → s.turns = [] →
    s.chip.fsm.quiescent = true → s.offers = hashWords m ++ readDigestWords →
    ∃ t, run (m.length + 2 + engineSteps m.length + 64) s = .next t ∧ t.offers = [] ∧
      t.replies = s.replies ++ List.replicate (m.length + 2) 0x8000#16 ++
        (sha256 m).toList.map fun c => 0xC000#16 ||| c.setWidth 16

/-- R70, R69: the digest does not depend on the interleaving. Whatever turns the agents take, and whatever
NOP, RDSTAT and legal RDHEX stand between START, the DATA of m, and END, the job reaches DONE with
`DIG = sha256(m)` and no flag set. Once the turns are used up the engine steps while busy, else the host
(the model's choice: notes/assumptions/4.md). -/
def Obligations.DigestIndependentOfInterleaving : Prop :=
  ∀ (s : State) (m : List Byte) (ws : List Cmd), m.length ≤ s.maxMsgBytes.val →
    s.chip.fsm.quiescent = true → Turn.reset ∉ s.turns → s.offers = 0x1000#16 :: ws →
    ws.filter (fun w => !readsOnly (decodeCmd w)) = msgWords m ++ [0x3000#16] →
    ∃ k t, run k s = .next t ∧ t.chip.fsm = .done ∧ t.chip.DIG = some (sha256 m) ∧ t.chip.NoError

/-- R76: no state written by one job affects the result of a later job. Two machines that differ in any way
in their chips accept START with the same words to follow and the same turns: from then on, every
step of both gives the same responses, STATUS and `irq`. -/
def Obligations.JobsAreIndependentOfThePast : Prop :=
  ∀ (s₁ s₂ t₁ t₂ : State), s₁.maxMsgBytes = s₂.maxMsgBytes → s₁.offers = s₂.offers → s₁.turns = s₂.turns →
    exec .start s₁ = .next t₁ → exec .start s₂ = .next t₂ →
    ∀ k, ∃ u₁ u₂ rs, run k t₁ = .next u₁ ∧ run k t₂ = .next u₂ ∧
      u₁.replies = t₁.replies ++ rs ∧ u₂.replies = t₂.replies ++ rs ∧
      u₁.chip.status = u₂.chip.status ∧ u₁.chip.irq = u₂.chip.irq ∧ u₁.offers = u₂.offers
end

