-- ==== Sys2Proof/Laws/Algorithm.lean ====
section
/-! SUPPORT. The small lemmas of the algorithm's functions: one more step of each iteration, and what it
writes. -/

namespace Sys2Proof.Machine

/-- One more round. -/
theorem roundsFrom_succ (v : Work) (W : Vector Word 64) (n : Nat) :
    roundsFrom v W (n + 1) =
      roundWork (roundsFrom v W n) (K (BitVec.ofNat 6 n)) (W.toList.getD n 0) := by
  simp [roundsFrom, List.range_succ, List.foldl_append]

theorem roundsFrom_zero (v : Work) (W : Vector Word 64) : roundsFrom v W 0 = v := rfl

/-- Word `t` of the schedule after its step. -/
theorem expandStep_get_self {W : Vector Word 64} {t : Nat} (h : 16 ≤ t ∧ t ≤ 63) :
    (expandStep W t)[t]'(by omega) =
      scheduleWord (W[t - 2]'(by omega)) (W[t - 7]'(by omega)) (W[t - 15]'(by omega))
        (W[t - 16]'(by omega)) := by
  simp [expandStep, h]

/-- The other words stay. -/
theorem expandStep_get_of_ne {W : Vector Word 64} {t i : Nat} (hi : i < 64) (h : i ≠ t) :
    (expandStep W t)[i] = W[i] := by
  unfold expandStep
  split
  · exact Vector.getElem_set_ne _ _ h.symm
  · rfl

theorem hashBlocks_append (H : Vector Word 8) (bs : List (Vector Word 16)) (b : Vector Word 16) :
    hashBlocks H (bs ++ [b]) = compress (hashBlocks H bs) (expandBlock b) := by
  simp [hashBlocks, List.foldl_append]

theorem lengthField_length (n : Nat) : (lengthField n).length = 8 := by simp [lengthField]

theorem zeroBytes_lt (n : Nat) : zeroBytes n < 64 := by unfold zeroBytes; omega

/-- The byte after the zeros is at offset 56 of a block (R100). -/
theorem zeroBytes_mod (n : Nat) : (n + 1 + zeroBytes n) % 64 = 56 := by unfold zeroBytes; omega

end Sys2Proof.Machine
end

