-- ==== Sys2Proof/Laws/Encoding.lean ====
section
/-! SUPPORT. The fields of a command word, legality in numbers, and which words decode to which command. -/

namespace Sys2Proof

/-- A command word is its three fields. -/
theorem Cmd.eq_fields (w : Cmd) : w = Cmd.op w ++ Cmd.rsv w ++ Cmd.arg w := by
  unfold Cmd.op Cmd.rsv Cmd.arg
  apply BitVec.eq_of_getLsbD_eq
  intro i hi
  simp only [BitVec.getLsbD_append, BitVec.getLsbD_extractLsb']
  by_cases h8 : i < 8
  · simp [h8]
  · by_cases h12 : i - 8 < 4
    · simp [h8, h12, show 8 + (i - 8) = i by omega]
    · simp [h8, h12, show 12 + (i - 8 - 4) = i by omega, show i - 8 - 4 < 4 by omega]

/-- `legal` as R84 writes it. -/
theorem legal_iff (w : Cmd) :
    legal w = true ↔ (Cmd.op w).toNat ≤ 5 ∧ Cmd.rsv w = 0#4 ∧
      ((Cmd.op w = 0x0#4 ∨ Cmd.op w = 0x1#4 ∨ Cmd.op w = 0x3#4 ∨ Cmd.op w = 0x4#4) → Cmd.arg w = 0#8) ∧
      (Cmd.op w = 0x5#4 → (Cmd.arg w).toNat ≤ 0x3F) := by
  have e5 : (0x5#4).toNat = 5 := rfl
  have e3 : (0x3F#8).toNat = 63 := rfl
  simp only [legal, BitVec.le_def, e5, e3, Bool.and_eq_true, decide_eq_true_eq, Bool.or_eq_true,
    Bool.not_eq_true', decide_eq_false_iff_not, and_assoc]
  tauto

/-- The six values of OP a legal word can have. -/
theorem Cmd.op_of_legal {w : Cmd} (h : legal w = true) :
    Cmd.op w = 0x0#4 ∨ Cmd.op w = 0x1#4 ∨ Cmd.op w = 0x2#4 ∨ Cmd.op w = 0x3#4 ∨ Cmd.op w = 0x4#4 ∨
      Cmd.op w = 0x5#4 := by
  have h5 := ((legal_iff w).mp h).1
  revert h5
  generalize Cmd.op w = o
  revert o
  decide

/-- A legal word with an OP that takes no operand is that OP's one word. -/
theorem Cmd.eq_of_legal_of_op {w : Cmd} (h : legal w = true)
    (ho : Cmd.op w = 0x0#4 ∨ Cmd.op w = 0x1#4 ∨ Cmd.op w = 0x3#4 ∨ Cmd.op w = 0x4#4) :
    w = Cmd.op w ++ 0#4 ++ 0#8 := by
  obtain ⟨-, hr, ha, -⟩ := (legal_iff w).mp h
  have := Cmd.eq_fields w
  rwa [hr, ha ho] at this

/-- A word that is not legal decodes to ILLEGAL (R202). -/
theorem decodeCmd_of_not_legal {w : Cmd} (h : legal w = false) : decodeCmd w = .illegal w := by
  simp [decodeCmd, h]

/-- A legal word, by its OP (R202). -/
theorem decodeCmd_of_legal {w : Cmd} (h : legal w = true) :
    (Cmd.op w = 0x0#4 ∧ decodeCmd w = .nop) ∨ (Cmd.op w = 0x1#4 ∧ decodeCmd w = .start) ∨
    (Cmd.op w = 0x2#4 ∧ decodeCmd w = .data (Cmd.arg w)) ∨ (Cmd.op w = 0x3#4 ∧ decodeCmd w = .endMsg) ∨
    (Cmd.op w = 0x4#4 ∧ decodeCmd w = .rdstat) ∨
    (Cmd.op w = 0x5#4 ∧ decodeCmd w = .rdhex ((Cmd.arg w).extractLsb' 0 6)) := by
  rcases Cmd.op_of_legal h with ho | ho | ho | ho | ho | ho <;> simp [decodeCmd, h, ho]

/-- START's word is the legal one with OP 1. -/
theorem legal_and_op_one_iff (w : Cmd) : (legal w = true ∧ Cmd.op w = 0x1#4) ↔ w = 0x1000#16 := by
  constructor
  · rintro ⟨h, ho⟩
    have := Cmd.eq_of_legal_of_op h (.inr (.inl ho))
    rw [ho] at this
    simpa using this
  · rintro rfl; decide

end Sys2Proof
end

