-- ==== Sys2Proof/Laws/Reads.lean ====
section
/-! SUPPORT. What the operand reads, the response words and the codes of `fsm` are: one lemma per
function, which the proofs cite. -/

namespace Sys2Proof.Machine

/-- Reading an element of the schedule, said of the element. -/
theorem Chip.readSchedule_eq_ok_iff {c : Chip} {i : Nat} {w : Word} :
    c.readSchedule i = .ok w ↔ c.schedule? i = some w := by
  unfold Chip.readSchedule
  cases c.schedule? i <;> simp

theorem Chip.schedule?_of_lt {c : Chip} {i : Nat} (h : i < 64) : c.schedule? i = c.W[i] := by
  simp [Chip.schedule?, h]

theorem Chip.readHash_eq_ok_iff {c : Chip} {H : Vector Word 8} : c.readHash = .ok H ↔ c.H = some H := by
  unfold Chip.readHash
  cases c.H <;> simp

theorem Chip.readWork_eq_ok_iff {c : Chip} {v : Work} : c.readWork = .ok v ↔ c.V = some v := by
  unfold Chip.readWork
  cases c.V <;> simp

/-- Reading the block buffer, said of its bytes. -/
theorem Chip.readBlock_eq_ok_iff {c : Chip} {bytes : Vector Byte 64} :
    c.readBlock = .ok bytes ↔ ∀ i : Fin 64, c.B[i] = some bytes[i] := by
  unfold Chip.readBlock
  constructor
  · intro hb i
    by_cases h : ∀ i : Fin 64, (c.B[i]).isSome = true
    · rw [if_pos h] at hb
      rw [← Except.ok.inj hb]
      obtain ⟨b, hb⟩ := Option.isSome_iff_exists.mp (h i)
      simp only [Fin.getElem_fin] at hb
      simp [hb]
    · rw [if_neg h] at hb
      simp at hb
  · intro hb
    rw [if_pos fun i => by rw [hb i]; rfl]
    refine congrArg Except.ok (Vector.ext fun i hi => ?_)
    have := hb ⟨i, hi⟩
    simp only [Fin.getElem_fin] at this
    simp [this]

/-- The block buffer cannot be read while one of its bytes holds no value. -/
theorem Chip.readBlock_of_absent {c : Chip} {i : Fin 64} (h : c.B[i] = none) :
    c.readBlock = .error (.absentRead .block) := by
  unfold Chip.readBlock
  rw [if_neg]
  intro hall
  simpa [h] using hall i

/-- The schedule after LOAD, word by word. -/
theorem loadSchedule_get (W : Vector (Option Word) 64) (block : Vector Word 16) (i : Fin 64) :
    (loadSchedule W block)[i] = if h : i.val < 16 then some block[i.val] else W[i] := by
  simp [loadSchedule]

theorem blockWords_get (bytes : Vector Byte 64) (j : Fin 16) :
    (blockWords bytes)[j] =
      be32 bytes[4 * j.val] bytes[4 * j.val + 1] bytes[4 * j.val + 2] bytes[4 * j.val + 3] := by
  simp [blockWords]

theorem serializeHash_get (H : Vector Word 8) (i : Fin 64) :
    (serializeHash H)[i] = hexchar (nibble (H[i.val / 8]'(by omega)) (i.val % 8)) := by
  simp [serializeHash]

theorem addHash_get (H : Vector Word 8) (v : Work) (i : Fin 8) :
    (addHash H v)[i] = H[i] + v.toVector[i] := by
  simp [addHash]

/-- The code of a value of `fsm` names it. -/
theorem Fsm.ofCode_code (f : Fsm) : Fsm.ofCode f.code = f := by
  cases f with
  | unused n => revert n; decide
  | _ => decide

/-- Every one of the 16 codes is the code of one value of `fsm`. -/
theorem Fsm.code_ofCode (c : BitVec 4) : (Fsm.ofCode c).code = c := by
  revert c; decide

/-- In a busy state the engine decodes an operation from `fsm` (R88). -/
theorem decodeFsm_code_of_busy {f : Fsm} (h : f.busy = true) : ∃ i, decodeFsm f.code = .ok i := by
  cases f with
  | pad => exact ⟨.pad, by decide⟩
  | load => exact ⟨.load, by decide⟩
  | expand => exact ⟨.expand, by decide⟩
  | round => exact ⟨.round, by decide⟩
  | final => exact ⟨.final, by decide⟩
  | serialize => exact ⟨.serialize, by decide⟩
  | idle | absorb | done | error | unused n => simp [Fsm.busy] at h

theorem ackResp_eq : ackResp = 0x8000#16 := by decide

theorem valueResp_eq (v : Byte) : valueResp v = 0xC000#16 ||| v.setWidth 16 := by
  revert v; decide

end Sys2Proof.Machine
end

