-- ==== Sys2Proof/Laws/State.lean ====
section
/-! SUPPORT. One lemma per field and update of the state: what `accept`, `withChip`, `endTurn`, `raise` and
`openJob` leave in each field. -/

namespace Sys2Proof.Machine

variable (s : State) (c : Chip) (r : Resp) (e : ErrorKind)

@[simp] theorem State.accept_chip : (s.accept c r).chip = c := rfl
@[simp] theorem State.accept_maxMsgBytes : (s.accept c r).maxMsgBytes = s.maxMsgBytes := rfl
@[simp] theorem State.accept_offers : (s.accept c r).offers = s.offers.tail := rfl
@[simp] theorem State.accept_replies : (s.accept c r).replies = s.replies ++ [r] := rfl
@[simp] theorem State.accept_turns : (s.accept c r).turns = s.turns := rfl

@[simp] theorem State.withChip_chip : (s.withChip c).chip = c := rfl
@[simp] theorem State.withChip_maxMsgBytes : (s.withChip c).maxMsgBytes = s.maxMsgBytes := rfl
@[simp] theorem State.withChip_offers : (s.withChip c).offers = s.offers := rfl
@[simp] theorem State.withChip_replies : (s.withChip c).replies = s.replies := rfl
@[simp] theorem State.withChip_turns : (s.withChip c).turns = s.turns := rfl

@[simp] theorem State.endTurn_chip : s.endTurn.chip = s.chip := rfl
@[simp] theorem State.endTurn_maxMsgBytes : s.endTurn.maxMsgBytes = s.maxMsgBytes := rfl
@[simp] theorem State.endTurn_offers : s.endTurn.offers = s.offers := rfl
@[simp] theorem State.endTurn_replies : s.endTurn.replies = s.replies := rfl
@[simp] theorem State.endTurn_turns : s.endTurn.turns = s.turns.tail := rfl

/-- With no turn fixed, taking a turn leaves the state as it is. -/
theorem State.endTurn_of_turns_nil (h : s.turns = []) : s.endTurn = s := by
  cases s; simp_all [State.endTurn]

@[simp] theorem Chip.raise_fsm : (c.raise e).fsm = .error := by cases e <;> rfl
@[simp] theorem Chip.raise_H : (c.raise e).H = c.H := by cases e <;> rfl
@[simp] theorem Chip.raise_V : (c.raise e).V = c.V := by cases e <;> rfl
@[simp] theorem Chip.raise_W : (c.raise e).W = c.W := by cases e <;> rfl
@[simp] theorem Chip.raise_t : (c.raise e).t = c.t := by cases e <;> rfl
@[simp] theorem Chip.raise_B : (c.raise e).B = c.B := by cases e <;> rfl
@[simp] theorem Chip.raise_bc : (c.raise e).bc = c.bc := by cases e <;> rfl
@[simp] theorem Chip.raise_L : (c.raise e).L = c.L := by cases e <;> rfl
@[simp] theorem Chip.raise_padStage : (c.raise e).padStage = c.padStage := by cases e <;> rfl
@[simp] theorem Chip.raise_last : (c.raise e).last = c.last := by cases e <;> rfl
@[simp] theorem Chip.raise_DIG : (c.raise e).DIG = c.DIG := by cases e <;> rfl
@[simp] theorem Chip.raise_errInput : (c.raise e).errInput = (c.errInput || decide (e = .input)) := by
  cases e <;> simp [Chip.raise]
@[simp] theorem Chip.raise_errLength :
    (c.raise e).errLength = (c.errLength || decide (e = .lengthLimit)) := by
  cases e <;> simp [Chip.raise]
@[simp] theorem Chip.raise_errSeq : (c.raise e).errSeq = (c.errSeq || decide (e = .seq)) := by
  cases e <;> simp [Chip.raise]

@[simp] theorem Chip.openJob_fsm : c.openJob.fsm = .absorb := rfl
@[simp] theorem Chip.openJob_H : c.openJob.H = some IV := rfl
@[simp] theorem Chip.openJob_V : c.openJob.V = c.V := rfl
@[simp] theorem Chip.openJob_W : c.openJob.W = c.W := rfl
@[simp] theorem Chip.openJob_t : c.openJob.t = 0 := rfl
@[simp] theorem Chip.openJob_B : c.openJob.B = c.B := rfl
@[simp] theorem Chip.openJob_bc : c.openJob.bc = 0 := rfl
@[simp] theorem Chip.openJob_L : c.openJob.L = 0 := rfl
@[simp] theorem Chip.openJob_padStage : c.openJob.padStage = .none := rfl
@[simp] theorem Chip.openJob_last : c.openJob.last = false := rfl
@[simp] theorem Chip.openJob_DIG : c.openJob.DIG = c.DIG := rfl
@[simp] theorem Chip.openJob_errInput : c.openJob.errInput = false := rfl
@[simp] theorem Chip.openJob_errLength : c.openJob.errLength = false := rfl
@[simp] theorem Chip.openJob_errSeq : c.openJob.errSeq = false := rfl

end Sys2Proof.Machine
end

