-- ==== Sys2Proof/Laws/Ops.lean ====
section
/-! SUPPORT. What each shared operation can do, said once: APPEND, an internal operation, and a command
that acts in ABSORB alone. -/

namespace Sys2Proof.Machine

/-- APPEND answers exactly when `bc ≤ 63`, with the chip R105 says. -/
theorem Chip.append_of_le {c : Chip} (v : Byte) (ps : PadStage) (h : c.bc.toNat ≤ 63) :
    c.append v ps = .ok { c with
      B := c.B.set c.bc.toNat (some v) (by omega)
      bc := if c.bc = 63#7 then 64 else c.bc + 1
      fsm := if c.bc = 63#7 then .load else c.fsm
      last := if c.bc = 63#7 then decide (ps = .len) else c.last } := by
  have h' : c.bc.toNat < 64 := by omega
  unfold Chip.append
  by_cases h63 : c.bc = 63#7 <;> simp [h63, h']

theorem Chip.append_of_gt {c : Chip} (v : Byte) (ps : PadStage) (h : 64 ≤ c.bc.toNat) :
    c.append v ps = .error .blockFull := by
  have h' : ¬ c.bc.toNat < 64 := by omega
  simp [Chip.append, h']

/-- If APPEND answers, `bc` was at most 63. -/
theorem Chip.le_of_append_ok {c c' : Chip} {v : Byte} {ps : PadStage} (h : c.append v ps = .ok c') :
    c.bc.toNat ≤ 63 := by
  by_contra hc
  rw [Chip.append_of_gt v ps (by omega)] at h
  cases h

/-- APPEND as the relation of Safety.lean, for a chip whose `pad_stage` is already the one the calling
step leaves. -/
theorem Chip.appended_of_append_ok {c c' : Chip} {v : Byte} {ps : PadStage} (hps : c.padStage = ps)
    (h : c.append v ps = .ok c') : c.Appended c' v ps := by
  have hle := Chip.le_of_append_ok h
  rw [Chip.append_of_le v ps hle] at h
  cases h
  refine ⟨fun i => ?_, ?_, ?_, ?_⟩
  · simp [Vector.getElem_set, eq_comm]
  · intro h63
    replace h63 : c.bc = 63#7 := h63
    simp [h63]
  · intro h63
    replace h63 : ¬ c.bc = 63#7 := h63
    simp [h63]
  · simp [hps]

theorem Chip.noFlag_iff {c : Chip} : c.noFlag = true ↔ c.NoError := by
  unfold Chip.noFlag Chip.NoError
  cases c.errInput <;> cases c.errLength <;> cases c.errSeq <;> simp

theorem Chip.noFlag_eq_false_iff {c : Chip} : c.noFlag = false ↔ c.SomeError := by
  unfold Chip.noFlag Chip.SomeError
  cases c.errInput <;> cases c.errLength <;> cases c.errSeq <;> simp

theorem PadStage.ne_none_iff {p : PadStage} : p ≠ .none ↔ (p = .mark ∨ p = .fill ∨ p = .len) := by
  cases p <;> simp

/-- The check an internal operation makes is R40's table. -/
theorem Chip.meetsR40_iff {c : Chip} {maxBytes : Nat} : c.meetsR40 maxBytes = true ↔ c.R40 maxBytes := by
  have ht : c.t.toNat ≤ 63 := by have := c.t.isLt; omega
  unfold Chip.meetsR40 Chip.meetsAnyRow Chip.meetsOwnRow
  constructor
  · intro h
    simp only [Bool.and_eq_true, decide_eq_true_eq] at h
    constructor
    case any => exact h.1
    all_goals
      intro hf
      have h := h.2
      simp only [hf, Bool.and_eq_true, decide_eq_true_eq, Chip.noFlag_iff, PadStage.ne_none_iff,
        Bool.not_eq_true', Chip.noFlag_eq_false_iff] at h
      tauto
  · intro h
    simp only [Bool.and_eq_true, decide_eq_true_eq]
    refine ⟨h.any, ?_⟩
    cases hf : c.fsm <;> simp only [Bool.and_eq_true, decide_eq_true_eq, Chip.noFlag_iff,
      PadStage.ne_none_iff, Bool.not_eq_true', Chip.noFlag_eq_false_iff]
    case idle => have := h.idle hf; tauto
    case absorb => have := h.absorb hf; tauto
    case pad => exact h.pad hf
    case load => exact h.load hf
    case expand => have := h.expand hf; tauto
    case round => exact (h.round hf).1
    case final => exact h.final hf
    case serialize => exact h.serialize hf
    case done => have := h.done hf; tauto
    case error => exact h.error hf

/-- Where `fsm` holds a code a rule writes, the check for an unused one is passed. -/
theorem unlessUnused_of_used {s : State} {r : Result} (h : ∀ n, s.chip.fsm ≠ .unused n) :
    unlessUnused s r = r := by
  unfold unlessUnused
  cases hf : s.chip.fsm with
  | unused n => exact absurd hf (h n)
  | _ => rfl

theorem unlessUnused_of_unused {s : State} {r : Result} {n : Fin 6} (h : s.chip.fsm = .unused n) :
    unlessUnused s r = .fault (.unusedFsm n) := by
  simp [unlessUnused, h]

/-- The check for an unused code, inverted. -/
theorem unlessUnused_eq_next_iff {s t : State} {r : Result} :
    unlessUnused s r = .next t ↔ (∀ n, s.chip.fsm ≠ .unused n) ∧ r = .next t := by
  unfold unlessUnused
  cases hf : s.chip.fsm with
  | unused n => simp
  | _ => simp

/-- An internal operation, inverted: it answers exactly when `fsm` selects it, its chip operation answers
and the state meets R40's table, and it changes the chip alone. -/
theorem internalStep_eq_next_iff {sel : Fsm} {op : Chip → Except Fault Chip} {s t : State} :
    internalStep sel op s = .next t ↔ s.chip.fsm = sel ∧
      ∃ c, op s.chip = .ok c ∧ s.chip.R40 s.maxMsgBytes.val ∧ t = s.withChip c := by
  unfold internalStep
  by_cases h : s.chip.fsm = sel
  · cases hop : op s.chip with
    | ok c =>
      by_cases hr : s.chip.meetsR40 s.maxMsgBytes.val = true
      · simp [h, hr, Chip.meetsR40_iff.mp hr, eq_comm]
      · have hn : ¬ s.chip.R40 s.maxMsgBytes.val := fun h => hr (Chip.meetsR40_iff.mpr h)
        simp [h, hr, hn]
    | error f => simp [h]
  · simp [h]

/-- Where an internal operation's chip operation answers but the state breaks R40's table. -/
theorem internalStep_of_broken {sel : Fsm} {op : Chip → Except Fault Chip} {s : State} {c : Chip}
    (hf : s.chip.fsm = sel) (hop : op s.chip = .ok c) (hr : ¬ s.chip.R40 s.maxMsgBytes.val) :
    internalStep sel op s = .fault .brokenInvariant := by
  have : ¬ s.chip.meetsR40 s.maxMsgBytes.val = true := fun h => hr (Chip.meetsR40_iff.mp h)
  simp [internalStep, hf, hop, this]

/-- Where an internal operation's chip operation stops. -/
theorem internalStep_of_error {sel : Fsm} {op : Chip → Except Fault Chip} {s : State} {f : Fault}
    (hf : s.chip.fsm = sel) (hop : op s.chip = .error f) : internalStep sel op s = .fault f := by
  simp [internalStep, hf, hop]

/-- DATA and END, inverted: accepted in ABSORB with what the command does there, held while busy, a SeqError
in IDLE, DONE and ERROR. -/
theorem sequencedStep_eq_next_iff {act : Chip → Except Fault Chip} {s t : State} :
    sequencedStep act s = .next t ↔
      (s.chip.fsm = .absorb ∧ ∃ c, act s.chip = .ok c ∧ t = s.accept c ackResp) ∨
      ((s.chip.fsm = .idle ∨ s.chip.fsm = .done ∨ s.chip.fsm = .error) ∧
        t = s.accept (s.chip.raise .seq) ackResp) ∨
      (s.chip.busy = true ∧ t = s) := by
  unfold sequencedStep Chip.busy
  cases hf : s.chip.fsm with
  | absorb => cases ha : act s.chip <;> simp [Fsm.busy, eq_comm]
  | _ => simp [Fsm.busy, eq_comm]

/-- The counter after index or round `t`. -/
theorem nextCount_toNat (t : BitVec 6) : (nextCount t).toNat = if t = 63#6 then 0 else t.toNat + 1 := by
  unfold nextCount
  split
  · rfl
  · next h =>
    have : t.toNat ≠ 63 := fun h' => h (BitVec.eq_of_toNat_eq (by simpa using h'))
    simp; omega

end Sys2Proof.Machine
end

