-- ==== Sys2Proof/Laws/Operations.lean ====
section
/-! SUPPORT. What each chip operation of the engine, and DATA in ABSORB, answers, and when it answers at
all: one lemma per operation. -/

namespace Sys2Proof.Machine

/-- PAD: which byte it appends and which stage it leaves (R106). -/
theorem padOp_eq_ok_cases {c c' : Chip} (h : padOp c = .ok c') :
    c.bc.toNat ≤ 63 ∧ ∃ v ps, c.Appended c' v ps ∧
      ((c.padStage = .mark ∧ v = 0x80 ∧ ps = .fill) ∨
      (c.padStage = .fill ∧ c.bc = 56#7 ∧ v = be64Byte c.L 0 ∧ ps = .len) ∨
      (c.padStage = .fill ∧ c.bc ≠ 56#7 ∧ v = 0x00 ∧ ps = .fill) ∨
      (c.padStage = .len ∧ 57 ≤ c.bc.toNat ∧ v = be64Byte c.L (c.bc.toNat - 56) ∧ ps = .len)) := by
  unfold padOp at h
  cases hs : c.padStage with
  | none => simp [hs] at h
  | mark =>
    simp only [hs] at h
    exact ⟨Chip.le_of_append_ok (c := { c with padStage := .fill }) h, _, _,
      Chip.appended_of_append_ok (c := { c with padStage := .fill }) rfl h,
      .inl ⟨rfl, rfl, rfl⟩⟩
  | fill =>
    simp only [hs] at h
    split at h
    · next h56 =>
      exact ⟨Chip.le_of_append_ok (c := { c with padStage := .len }) h, _, _,
        Chip.appended_of_append_ok (c := { c with padStage := .len }) rfl h,
        .inr (.inl ⟨rfl, h56, rfl, rfl⟩)⟩
    · next h56 =>
      exact ⟨Chip.le_of_append_ok h, _, _, Chip.appended_of_append_ok hs h,
        .inr (.inr (.inl ⟨rfl, h56, rfl, rfl⟩))⟩
  | len =>
    simp only [hs] at h
    split at h
    · next h57 =>
      exact ⟨Chip.le_of_append_ok h, _, _, Chip.appended_of_append_ok hs h,
        .inr (.inr (.inr ⟨rfl, h57, rfl, rfl⟩))⟩
    · cases h

/-- PAD answers in every state that R40's row of PAD allows. -/
theorem padOp_answers {c : Chip} (hb : c.bc.toNat ≤ 63) (hs : c.padStage ≠ .none)
    (hl : c.padStage = .len → 57 ≤ c.bc.toNat) : ∃ c', padOp c = .ok c' := by
  unfold padOp
  cases h : c.padStage with
  | none => exact absurd h hs
  | mark => exact ⟨_, Chip.append_of_le (c := { c with padStage := .fill }) _ _ hb⟩
  | fill =>
    by_cases h56 : c.bc = 56#7
    · simp only [if_pos h56]
      exact ⟨_, Chip.append_of_le (c := { c with padStage := .len }) _ _ hb⟩
    · simp only [if_neg h56]
      exact ⟨_, Chip.append_of_le _ _ hb⟩
  | len =>
    simp only [hl h, if_true]
    exact ⟨_, Chip.append_of_le _ _ hb⟩

/-- DATA in ABSORB: the length error at the limit, else L and APPEND (R205). -/
theorem dataAbsorb_eq_ok_cases {m : Nat} {b : Byte} {c c' : Chip} (h : dataAbsorb m b c = .ok c') :
    (c.L.toNat / 8 = m ∧ c' = c.raise .lengthLimit) ∨
    (c.L.toNat / 8 ≠ m ∧ ({ c with L := c.L + 8 } : Chip).append b .none = .ok c') := by
  unfold dataAbsorb at h
  split at h
  · next hm => cases h; exact .inl ⟨hm, rfl⟩
  · next hm => exact .inr ⟨hm, h⟩

/-- LOAD, inverted (R107). -/
theorem loadOp_eq_ok_iff {c c' : Chip} :
    loadOp c = .ok c' ↔ c.bc = 64#7 ∧ ∃ bytes H, (∀ i : Fin 64, c.B[i] = some bytes[i]) ∧ c.H = some H ∧
      c' = { c with
        W := loadSchedule c.W (blockWords bytes), V := some (Work.ofHash H), t := 16, bc := 0, fsm := .expand } := by
  unfold loadOp
  by_cases h : c.bc = 64#7
  · cases hB : c.readBlock with
    | error f =>
      simp only [h, if_true, true_and, reduceCtorEq, false_iff, not_exists, not_and]
      intro bytes H hb _ _
      rw [Chip.readBlock_eq_ok_iff.mpr hb] at hB
      cases hB
    | ok bytes =>
      have hb := Chip.readBlock_eq_ok_iff.mp hB
      cases hH : c.H with
      | none => simp [h, Chip.readHash, hH]
      | some H =>
        simp only [h, Chip.readHash, hH, if_true, true_and]
        constructor
        · intro he; cases he; exact ⟨bytes, H, hb, rfl, rfl⟩
        · rintro ⟨bytes', H', hb', hH', rfl⟩
          cases hH'
          have : bytes' = bytes := by
            refine Vector.ext fun i hi => ?_
            have h1 := hb ⟨i, hi⟩
            rw [hb' ⟨i, hi⟩] at h1
            exact Option.some.inj h1
          rw [this]
  · simp [h]

/-- EXPAND, inverted (R133). -/
theorem expandOp_eq_ok_iff {c c' : Chip} :
    expandOp c = .ok c' ↔ 16 ≤ c.t.toNat ∧ ∃ w2 w7 w15 w16,
      c.schedule? (c.t.toNat - 2) = some w2 ∧ c.schedule? (c.t.toNat - 7) = some w7 ∧
      c.schedule? (c.t.toNat - 15) = some w15 ∧ c.schedule? (c.t.toNat - 16) = some w16 ∧
      c' = { c with
        W := c.W.set c.t.toNat (some (scheduleWord w2 w7 w15 w16)) c.t.isLt
        t := nextCount c.t
        fsm := if c.t = 63#6 then .round else c.fsm } := by
  unfold expandOp Chip.readSchedule
  by_cases h : 16 ≤ c.t.toNat
  · cases c.schedule? (c.t.toNat - 2) <;> cases c.schedule? (c.t.toNat - 7) <;>
      cases c.schedule? (c.t.toNat - 15) <;> cases c.schedule? (c.t.toNat - 16) <;> simp [h, eq_comm]
  · simp [h]

/-- ROUND, inverted (R158). -/
theorem roundOp_eq_ok_iff {c c' : Chip} :
    roundOp c = .ok c' ↔ ∃ v w, c.V = some v ∧ c.schedule? c.t.toNat = some w ∧
      c' = { c with
        V := some (roundWork v (K c.t) w)
        t := nextCount c.t
        fsm := if c.t = 63#6 then .final else c.fsm } := by
  unfold roundOp Chip.readSchedule Chip.readWork
  cases c.V <;> cases c.schedule? c.t.toNat <;> simp [eq_comm]

/-- FINAL, inverted (R159). -/
theorem finalOp_eq_ok_iff {c c' : Chip} :
    finalOp c = .ok c' ↔ ∃ H v, c.H = some H ∧ c.V = some v ∧
      c' = { c with H := some (addHash H v), fsm := afterFinal c.last c.padStage } := by
  unfold finalOp Chip.readHash Chip.readWork
  cases c.H <;> cases c.V <;> simp [eq_comm]

/-- SERIALIZE, inverted (R183). -/
theorem serializeOp_eq_ok_iff {c c' : Chip} :
    serializeOp c = .ok c' ↔ ∃ H, c.H = some H ∧
      c' = { c with DIG := some (serializeHash H), fsm := .done } := by
  unfold serializeOp Chip.readHash
  cases c.H <;> simp [eq_comm]

end Sys2Proof.Machine
end

