-- ==== Sys2Proof/Laws/Turns.lean ====
section
/-! SUPPORT. What a step is, by whose turn it is: the equations of `step` and its one inversion lemma. -/

namespace Sys2Proof.Machine

theorem step_of_reset {s : State} (h : s.nextTurn = .reset) :
    step s = .next (s.endTurn.withChip Chip.reset) := by
  simp [step, takeTurn, h, resetTurn]

theorem step_of_host_nil {s : State} (h : s.nextTurn = .host) (ho : s.offers = [])
    (hf : ∀ n, s.chip.fsm ≠ .unused n) : step s = .next s.endTurn := by
  simp [step, takeTurn, h, hostTurn, ho, unlessUnused_of_used (s := s.endTurn) hf]

theorem step_of_host_cons {s : State} {w : Cmd} {ws : List Cmd} (h : s.nextTurn = .host)
    (ho : s.offers = w :: ws) : step s = exec (decodeCmd w) s.endTurn := by
  simp [step, takeTurn, h, hostTurn, ho]

theorem step_of_engine_unused {s : State} {n : Fin 6} (h : s.nextTurn = .engine)
    (hf : s.chip.fsm = .unused n) : step s = .fault (.unusedFsm n) := by
  simp [step, takeTurn, h, engineTurn, unlessUnused, hf]

theorem step_of_engine_quiescent {s : State} (h : s.nextTurn = .engine)
    (hf : s.chip.fsm.quiescent = true) : step s = .next s.endTurn := by
  unfold step takeTurn engineTurn
  rw [h]
  cases hs : s.chip.fsm <;> simp_all [Fsm.quiescent, Fsm.code, decodeFsm, unlessUnused]

theorem step_of_engine_pad {s : State} (h : s.nextTurn = .engine) (hf : s.chip.fsm = .pad) :
    step s = exec .pad s.endTurn := by
  simp [step, takeTurn, h, engineTurn, unlessUnused, hf, Fsm.code, decodeFsm]

theorem step_of_engine_load {s : State} (h : s.nextTurn = .engine) (hf : s.chip.fsm = .load) :
    step s = exec .load s.endTurn := by
  simp [step, takeTurn, h, engineTurn, unlessUnused, hf, Fsm.code, decodeFsm]

theorem step_of_engine_expand {s : State} (h : s.nextTurn = .engine) (hf : s.chip.fsm = .expand) :
    step s = exec .expand s.endTurn := by
  simp [step, takeTurn, h, engineTurn, unlessUnused, hf, Fsm.code, decodeFsm]

theorem step_of_engine_round {s : State} (h : s.nextTurn = .engine) (hf : s.chip.fsm = .round) :
    step s = exec .round s.endTurn := by
  simp [step, takeTurn, h, engineTurn, unlessUnused, hf, Fsm.code, decodeFsm]

theorem step_of_engine_final {s : State} (h : s.nextTurn = .engine) (hf : s.chip.fsm = .final) :
    step s = exec .final s.endTurn := by
  simp [step, takeTurn, h, engineTurn, unlessUnused, hf, Fsm.code, decodeFsm]

theorem step_of_engine_serialize {s : State} (h : s.nextTurn = .engine) (hf : s.chip.fsm = .serialize) :
    step s = exec .serialize s.endTurn := by
  simp [step, takeTurn, h, engineTurn, unlessUnused, hf, Fsm.code, decodeFsm]

/-- A step, inverted: reset, a turn of an agent that has no step, the offered word's instruction, or the
operation of one of the six busy states. -/
theorem step_eq_next_cases {s t : State} (h : step s = .next t) :
    (s.nextTurn = .reset ∧ t = s.endTurn.withChip Chip.reset) ∨
    (s.nextTurn = .host ∧ s.offers = [] ∧ t = s.endTurn) ∨
    (s.nextTurn = .host ∧ ∃ w ws, s.offers = w :: ws ∧ exec (decodeCmd w) s.endTurn = .next t) ∨
    (s.nextTurn = .engine ∧ s.chip.fsm.quiescent = true ∧ t = s.endTurn) ∨
    (s.nextTurn = .engine ∧ s.chip.fsm = .pad ∧ ∃ c, padOp s.chip = .ok c ∧ t = s.endTurn.withChip c) ∨
    (s.nextTurn = .engine ∧ s.chip.fsm = .load ∧ ∃ c, loadOp s.chip = .ok c ∧ t = s.endTurn.withChip c) ∨
    (s.nextTurn = .engine ∧ s.chip.fsm = .expand ∧
      ∃ c, expandOp s.chip = .ok c ∧ t = s.endTurn.withChip c) ∨
    (s.nextTurn = .engine ∧ s.chip.fsm = .round ∧ ∃ c, roundOp s.chip = .ok c ∧ t = s.endTurn.withChip c) ∨
    (s.nextTurn = .engine ∧ s.chip.fsm = .final ∧ ∃ c, finalOp s.chip = .ok c ∧ t = s.endTurn.withChip c) ∨
    (s.nextTurn = .engine ∧ s.chip.fsm = .serialize ∧
      ∃ c, serializeOp s.chip = .ok c ∧ t = s.endTurn.withChip c) := by
  cases hu : s.nextTurn with
  | reset =>
    rw [step_of_reset hu] at h
    cases h; exact .inl ⟨rfl, rfl⟩
  | host =>
    cases ho : s.offers with
    | nil =>
      simp only [step, takeTurn, hu, hostTurn, State.endTurn_offers, ho, unlessUnused_eq_next_iff] at h
      cases h.2; exact .inr (.inl ⟨rfl, rfl, rfl⟩)
    | cons w ws =>
      rw [step_of_host_cons hu ho] at h
      exact .inr (.inr (.inl ⟨rfl, w, ws, rfl, h⟩))
  | engine =>
    cases hf : s.chip.fsm with
    | unused n =>
      rw [step_of_engine_unused hu hf] at h
      cases h
    | idle | absorb | done | error =>
      rw [step_of_engine_quiescent hu (by rw [hf]; rfl)] at h
      cases h; simp [Fsm.quiescent]
    | pad =>
      rw [step_of_engine_pad hu hf] at h
      obtain ⟨-, c, hc, -, rfl⟩ := internalStep_eq_next_iff.mp h
      simp at hc; simp [hc, Fsm.quiescent]
    | load =>
      rw [step_of_engine_load hu hf] at h
      obtain ⟨-, c, hc, -, rfl⟩ := internalStep_eq_next_iff.mp h
      simp at hc; simp [hc, Fsm.quiescent]
    | expand =>
      rw [step_of_engine_expand hu hf] at h
      obtain ⟨-, c, hc, -, rfl⟩ := internalStep_eq_next_iff.mp h
      simp at hc; simp [hc, Fsm.quiescent]
    | round =>
      rw [step_of_engine_round hu hf] at h
      obtain ⟨-, c, hc, -, rfl⟩ := internalStep_eq_next_iff.mp h
      simp at hc; simp [hc, Fsm.quiescent]
    | final =>
      rw [step_of_engine_final hu hf] at h
      obtain ⟨-, c, hc, -, rfl⟩ := internalStep_eq_next_iff.mp h
      simp at hc; simp [hc, Fsm.quiescent]
    | serialize =>
      rw [step_of_engine_serialize hu hf] at h
      obtain ⟨-, c, hc, -, rfl⟩ := internalStep_eq_next_iff.mp h
      simp at hc; simp [hc, Fsm.quiescent]

end Sys2Proof.Machine
end

