-- ==== Sys2Proof/Laws/Commands.lean ====
section
/-! SUPPORT. What the host's step can do with an offered word, said once, in terms of the word. -/

namespace Sys2Proof.Machine

theorem Chip.cmdReady_eq_false_iff {c : Chip} {w : Cmd} :
    c.cmdReady w = false ↔ (Cmd.op w = 0x2#4 ∨ Cmd.op w = 0x3#4) ∧ c.busy = true := by
  simp only [Chip.cmdReady, Bool.not_eq_false', Bool.and_eq_true, decide_eq_true_eq]

/-- An offered word whose instruction answers: an illegal one accepted or held, a reading command, START,
DATA at the limit or below it, END, a SeqError, or DATA or END held. -/
theorem exec_offered_cases {s t : State} {w : Cmd} (h : exec (decodeCmd w) s = .next t) :
    (legal w = false ∧ s.chip.cmdReady w = true ∧ t = s.accept (s.chip.raise .input) ackResp) ∨
    (legal w = false ∧ s.chip.cmdReady w = false ∧ t = s) ∨
    (legal w = true ∧ (Cmd.op w = 0x0#4 ∨ Cmd.op w = 0x4#4 ∨ Cmd.op w = 0x5#4) ∧
      ∃ r, t = s.accept s.chip r) ∨
    (w = 0x1000#16 ∧ t = s.accept s.chip.openJob ackResp) ∨
    (legal w = true ∧ Cmd.op w = 0x2#4 ∧ s.chip.fsm = .absorb ∧
      s.chip.L.toNat / 8 = s.maxMsgBytes.val ∧ t = s.accept (s.chip.raise .lengthLimit) ackResp) ∨
    (legal w = true ∧ Cmd.op w = 0x2#4 ∧ s.chip.fsm = .absorb ∧
      s.chip.L.toNat / 8 ≠ s.maxMsgBytes.val ∧
      ∃ c, ({ s.chip with L := s.chip.L + 8 } : Chip).append (Cmd.arg w) .none = .ok c ∧
        t = s.accept c ackResp) ∨
    (legal w = true ∧ Cmd.op w = 0x3#4 ∧ s.chip.fsm = .absorb ∧
      t = s.accept { s.chip with padStage := .mark, fsm := .pad } ackResp) ∨
    (legal w = true ∧ (Cmd.op w = 0x2#4 ∨ Cmd.op w = 0x3#4) ∧
      (s.chip.fsm = .idle ∨ s.chip.fsm = .done ∨ s.chip.fsm = .error) ∧
      t = s.accept (s.chip.raise .seq) ackResp) ∨
    (legal w = true ∧ (Cmd.op w = 0x2#4 ∨ Cmd.op w = 0x3#4) ∧ s.chip.busy = true ∧ t = s) := by
  cases hl : legal w with
  | false =>
    rw [decodeCmd_of_not_legal hl] at h
    simp only [exec, execIllegal] at h
    cases hr : s.chip.cmdReady w
    · simp [hr] at h; simp [h]
    · simp only [hr, if_true, unlessUnused_eq_next_iff] at h
      cases h.2; simp
  | true =>
    rcases decodeCmd_of_legal hl with ⟨ho, hd⟩ | ⟨ho, hd⟩ | ⟨ho, hd⟩ | ⟨ho, hd⟩ | ⟨ho, hd⟩ | ⟨ho, hd⟩ <;>
      rw [hd] at h
    · cases (unlessUnused_eq_next_iff.mp h).2; simp [ho]
    · have hw := (legal_and_op_one_iff w).mp ⟨hl, ho⟩
      cases (unlessUnused_eq_next_iff.mp h).2; simp [hw]
    · rcases (sequencedStep_eq_next_iff (act := dataAbsorb s.maxMsgBytes.val (Cmd.arg w))).mp h with
        ⟨hf, c, hc, rfl⟩ | ⟨hf, rfl⟩ | ⟨hb, rfl⟩
      · rcases dataAbsorb_eq_ok_cases hc with ⟨hm, rfl⟩ | ⟨hm, ha⟩
        · simp [ho, hf, hm]
        · exact .inr (.inr (.inr (.inr (.inr (.inl ⟨rfl, ho, hf, hm, c, ha, rfl⟩)))))
      · simp [ho, hf]
      · simp [ho, hb]
    · rcases (sequencedStep_eq_next_iff (act := endAbsorb)).mp h with ⟨hf, c, hc, rfl⟩ | ⟨hf, rfl⟩ | ⟨hb, rfl⟩
      · cases hc; simp [ho, hf]
      · simp [ho, hf]
      · simp [ho, hb]
    · cases (unlessUnused_eq_next_iff.mp h).2; simp only [ho]; simp
    · simp only [exec, execRdhex] at h
      split at h
      · split at h <;> cases h
        simp only [ho]; simp
      · cases (unlessUnused_eq_next_iff.mp h).2; simp only [ho]; simp

end Sys2Proof.Machine
end

