-- ==== Sys2Proof/Laws/PerInstr.lean ====
section
/-! SUPPORT. Statements made per instruction, about the instruction as syntax. -/

namespace Sys2Proof

/-- The encoding of `i` is matched by the row of spec/opcode_table.json that is its own and by no other of
its format; ILLEGAL's word is matched by no CMD row. -/
def matchesOwnRowOnly (i : Instr) : Bool :=
  match rowOf? i with
  | some r =>
    (cmdRows ++ fsmRows).filter (fun r' => r'.isCmd == r.isCmd && r'.matches (encode i).tableWord) == [r]
  | none => cmdRows.all fun r => !r.matches (encode i).tableWord

/-- A field of a word that agrees with a row under its mask. -/
theorem field_of_masked {w m p : Cmd} (h : w &&& m = p) (start len : Nat) :
    w.extractLsb' start len &&& m.extractLsb' start len = p.extractLsb' start len := by
  rw [← BitVec.extractLsb'_and, h]

/-- A word that a CMD row matches is legal. -/
theorem legal_of_row_matches {w : Cmd} {r : Row} (hr : r ∈ cmdRows) (h : r.matches w = true) :
    legal w = true := by
  have hall (m : Cmd) : m &&& 0xFFFF#16 = m := by
    rw [show (0xFFFF#16 : Cmd) = BitVec.allOnes 16 by decide, BitVec.and_allOnes]
  simp only [cmdRows, List.mem_cons, List.not_mem_nil, or_false] at hr
  rcases hr with rfl | rfl | rfl | rfl | rfl | rfl <;> simp only [Row.matches, beq_iff_eq] at h
  · rw [hall] at h; subst h; decide
  · rw [hall] at h; subst h; decide
  · have ho := field_of_masked h 12 4
    have hv := field_of_masked h 8 4
    refine (legal_iff w).mpr ?_
    have e1 : Cmd.op w = 0x2#4 := by
      revert ho; unfold Cmd.op; generalize w.extractLsb' 12 4 = o; revert o; decide
    have e2 : Cmd.rsv w = 0#4 := by
      revert hv; unfold Cmd.rsv; generalize w.extractLsb' 8 4 = o; revert o; decide
    simp [e1, e2]
  · rw [hall] at h; subst h; decide
  · rw [hall] at h; subst h; decide
  · have ho := field_of_masked h 12 4
    have hv := field_of_masked h 8 4
    have ha := field_of_masked h 0 8
    refine (legal_iff w).mpr ?_
    have e1 : Cmd.op w = 0x5#4 := by
      revert ho; unfold Cmd.op; generalize w.extractLsb' 12 4 = o; revert o; decide
    have e2 : Cmd.rsv w = 0#4 := by
      revert hv; unfold Cmd.rsv; generalize w.extractLsb' 8 4 = o; revert o; decide
    have e3 : (Cmd.arg w).toNat ≤ 0x3F := by
      revert ha; unfold Cmd.arg; generalize w.extractLsb' 0 8 = o; revert o; decide
    simp [e1, e2, e3]

end Sys2Proof

namespace Sys2Proof.Laws.MatchesTableRow

/-- A well-formed instruction is encoded as its own row of the opcode table says, and as no other. -/
def Statement (i : Instr) : Prop := i.wellFormed = true → matchesOwnRowOnly i = true

theorem nop : Statement .nop := fun _ => by decide
theorem start : Statement .start := fun _ => by decide
theorem data (b : Byte) : Statement (.data b) := fun _ => by revert b; decide
theorem endMsg : Statement .endMsg := fun _ => by decide
theorem rdstat : Statement .rdstat := fun _ => by decide
theorem rdhex (i : BitVec 6) : Statement (.rdhex i) := fun _ => by revert i; decide

theorem illegal (w : Cmd) : Statement (.illegal w) := by
  intro h
  have hl : legal w = false := by simpa [Instr.wellFormed] using h
  refine List.all_eq_true.mpr fun r hr => ?_
  cases hm : r.matches w with
  | false => simp [encode, Code.tableWord, hm]
  | true => simp [legal_of_row_matches hr hm] at hl

theorem pad : Statement .pad := fun _ => by decide
theorem load : Statement .load := fun _ => by decide
theorem expand : Statement .expand := fun _ => by decide
theorem round : Statement .round := fun _ => by decide
theorem final : Statement .final := fun _ => by decide
theorem serialize : Statement .serialize := fun _ => by decide

end Sys2Proof.Laws.MatchesTableRow
end

