-- ==== Sys2Proof/Laws/Runs.lean ====
section
/-! SUPPORT. Runs of the machine, step by step, and what no step changes. -/

namespace Sys2Proof.Machine

theorem run_zero (s : State) : run 0 s = .next s := rfl

/-- A run of `k + 1` steps whose first step answers. -/
theorem run_succ_of_next {k : Nat} {s t : State} (h : step s = .next t) : run (k + 1) s = run k t := by
  have h' : Sys2Proof.core.step s = .next t := h
  simp only [run, Host.Core.run, h']
  rfl

/-- A run of `j + k` steps is one of `j` and then one of `k`. -/
theorem run_add {j k : Nat} {s t : State} (h : run j s = .next t) : run (j + k) s = run k t := by
  induction j generalizing s with
  | zero => rw [run_zero] at h; cases h; rw [Nat.zero_add]
  | succ j ih =>
    cases hs : step s with
    | next u =>
      rw [run_succ_of_next hs] at h
      rw [Nat.add_right_comm, run_succ_of_next hs]
      exact ih h
    | fault f =>
      have h' : Sys2Proof.core.step s = .fault f := hs
      simp [run, Host.Core.run, h'] at h
    | refused r =>
      have h' : Sys2Proof.core.step s = .refused r := hs
      simp [run, Host.Core.run, h'] at h

/-- No instruction writes the build parameter (R8). -/
theorem exec_maxMsgBytes {i : Instr} {s t : State} (h : exec i s = .next t) :
    t.maxMsgBytes = s.maxMsgBytes := by
  cases i with
  | nop | start | rdstat =>
    cases (unlessUnused_eq_next_iff.mp h).2; rfl
  | data b =>
    rcases sequencedStep_eq_next_iff.mp h with ⟨-, c, -, rfl⟩ | ⟨-, rfl⟩ | ⟨-, rfl⟩ <;> rfl
  | endMsg =>
    rcases (sequencedStep_eq_next_iff (act := endAbsorb)).mp h with ⟨-, c, -, rfl⟩ | ⟨-, rfl⟩ | ⟨-, rfl⟩ <;> rfl
  | rdhex i =>
    simp only [exec, execRdhex] at h
    split at h
    · split at h <;> cases h
      rfl
    · cases (unlessUnused_eq_next_iff.mp h).2; rfl
  | illegal w =>
    simp only [exec, execIllegal] at h
    split at h
    · cases (unlessUnused_eq_next_iff.mp h).2; rfl
    · cases h; rfl
  | pad | load | expand | round | final | serialize =>
    obtain ⟨-, c, -, -, rfl⟩ := internalStep_eq_next_iff.mp h
    rfl

/-- No step writes the build parameter (R8). -/
theorem step_maxMsgBytes {s t : State} (h : step s = .next t) : t.maxMsgBytes = s.maxMsgBytes := by
  rcases step_eq_next_cases h with ⟨-, rfl⟩ | ⟨-, -, rfl⟩ | ⟨-, w, ws, -, hx⟩ | ⟨-, -, rfl⟩ |
    ⟨-, -, c, -, rfl⟩ | ⟨-, -, c, -, rfl⟩ | ⟨-, -, c, -, rfl⟩ | ⟨-, -, c, -, rfl⟩ | ⟨-, -, c, -, rfl⟩ |
    ⟨-, -, c, -, rfl⟩
  case inr.inr.inl => exact exec_maxMsgBytes (s := s.endTurn) hx
  all_goals rfl

/-- The word of START, accepted in every state of the table of R87, by the host's step. -/
theorem step_of_start {s : State} {ws : List Cmd} (h : s.nextTurn = .host)
    (ho : s.offers = 0x1000#16 :: ws) (hf : ∀ n, s.chip.fsm ≠ .unused n) : step s = .next (s.endTurn.accept s.chip.openJob ackResp) := by
  rw [step_of_host_cons h ho]
  exact unlessUnused_of_used (s := s.endTurn) hf

end Sys2Proof.Machine
end

