-- ==== Sys2Proof/Tests/Slice0.lean ====
section
/-! SUPPORT. The model's own tests. Expected values are the vectors of spec/95_test_vectors.md (CV, X, and
the tables of its section 2), spec/30_encoding.md and the value tables of R136 and R161; each test names
its source. The second half shows, for every statement with hypotheses, a state that meets them. -/

open Sys2Proof Sys2Proof.Machine

namespace Sys2Proof.Tests

/-! Helpers. -/

/-- The machine around a chip: nothing offered, no turn fixed. -/
def at' (c : Chip) : State := { State.reset with chip := c }

/-- The outcome is a next state of which `p` holds. -/
def sees (r : Result) (p : State → Bool) : Bool :=
  match r with
  | .next t => p t
  | .fault _ => false
  | .refused _ => false

/-- The outcome is this fault. -/
def stops (r : Result) (f : Fault) : Bool :=
  match r with
  | .next _ => false
  | .fault g => decide (g = f)
  | .refused _ => false

/-- A block buffer that holds the listed bytes from B[0] on. -/
def block (l : List Byte) : Vector (Option Byte) 64 := Vector.ofFn fun i => l[i.val]?

/-- A schedule that holds the listed words from W[0] on. -/
def sched (l : List Word) : Vector (Option Word) 64 := Vector.ofFn fun i => l[i.val]?

/-- The padded message "abc": 61 62 63 80, zeros, and the length 0x18. -/
def abcBytes : List Byte := [0x61, 0x62, 0x63, 0x80] ++ List.replicate 59 0 ++ [0x18]

/-- The 16 words of that block (spec/95_test_vectors.md 2.2). -/
def abcWords : List Word := [0x61626380] ++ List.replicate 14 0 ++ [0x18]

/-- A digest of 64 characters '0'. -/
def zeros : Vector Byte 64 := Vector.replicate 64 0x30

/-- A job that has just been opened. -/
def opened : Chip := Chip.reset.openJob

/-- ABSORB with `n` message bytes 0x61 in the block, for n ≤ 63. -/
def absorbed (n : Nat) : Chip :=
  { opened with B := block (List.replicate n 0x61), bc := BitVec.ofNat 7 n, L := BitVec.ofNat 64 (8 * n) }

/-- PAD with a stage, a count and a length. -/
def padding (ps : PadStage) (bc : BitVec 7) (L : LenWord) : Chip :=
  { opened with fsm := .pad, padStage := ps, bc := bc, L := L }

/-- LOAD with the block of "abc". -/
def loading : Chip :=
  { opened with fsm := .load, B := block abcBytes, bc := 64, L := 0x18, padStage := .len, last := true }

/-- EXPAND at `t` with a schedule. -/
def expanding (t : BitVec 6) (W : Vector (Option Word) 64) : Chip :=
  { opened with
    fsm := .expand, t := t, W := W, V := some (Work.ofHash IV), L := 0x18, padStage := .len, last := true }

/-- ROUND at `t` of the "abc" block with a schedule word everywhere. -/
def rounding (t : BitVec 6) (w : Word) : Chip :=
  { opened with
    fsm := .round, t := t, W := sched (List.replicate 64 w), V := some (Work.ofHash IV), L := 0x18,
    padStage := .len, last := true }

/-- The working registers after round 63 of "abc" (spec/95_test_vectors.md 2.4). -/
def abcWork : Work :=
  ⟨0x506e3058, 0xd39a2165, 0x04d24d6c, 0xb85e2ce9, 0x5ef50f24, 0xfb121210, 0x948d25b6, 0x961f4894⟩

/-- FINAL of the "abc" block, or of a block like it. -/
def finishing (last : Bool) (ps : PadStage) : Chip :=
  { opened with fsm := .final, V := some abcWork, L := 0x18, padStage := ps, last := last }

/-- The hash state of "abc" (spec/95_test_vectors.md 2.4). -/
def abcHash : Vector Word 8 :=
  #v[0xba7816bf#32, 0x8f01cfea#32, 0x414140de#32, 0x5dae2223#32,
     0xb00361a3#32, 0x96177a9c#32, 0xb410ff61#32, 0xf20015ad#32]

/-- SERIALIZE of "abc". -/
def serializing : Chip :=
  { opened with fsm := .serialize, H := some abcHash, L := 0x18, padStage := .len, last := true }

/-- DONE after "abc". -/
def finished : Chip := { serializing with fsm := .done, DIG := some (serializeHash abcHash) }

/-- ERROR with err_input. -/
def failed : Chip := { opened with fsm := .error, errInput := true }

/-! WellFormed and Decode (spec/30_encoding.md R80 to R88). -/

/-- The one check of WellFormed: a legal word is no ILLEGAL. -/
theorem test_wellformed_refuses_legal_word : (Instr.illegal 0x0000#16).wellFormed = false := by decide

theorem test_wellformed_refuses_legal_rdhex : (Instr.illegal 0x503F#16).wellFormed = false := by decide

theorem test_wellformed_accepts_reserved_op : (Instr.illegal 0x6000#16).wellFormed = true := by decide

theorem test_decode_nop : decode (.cmd 0b0000_0000_00000000#16) = .ok .nop := by decide

theorem test_decode_start : decode (.cmd 0b0001_0000_00000000#16) = .ok .start := by decide

/-- DATA 'a' of CV3. -/
theorem test_decode_data : decode (.cmd 0b0010_0000_01100001#16) = .ok (.data 0x61) := by decide

theorem test_decode_end : decode (.cmd 0b0011_0000_00000000#16) = .ok .endMsg := by decide

theorem test_decode_rdstat : decode (.cmd 0b0100_0000_00000000#16) = .ok .rdstat := by decide

theorem test_decode_rdhex : decode (.cmd 0b0101_0000_00111111#16) = .ok (.rdhex 63) := by decide

/-- CV19: RDHEX 64 is illegal. CV21: so is DATA with RSV = 1. -/
theorem test_decode_illegal :
    decode (.cmd 0b0101_0000_01000000#16) = .ok (.illegal 0x5040) ∧
      decode (.cmd 0b0010_0001_00000000#16) = .ok (.illegal 0x2100) := by decide

/-- The words of CV22. -/
theorem test_decode_nonzero_fields_illegal :
    [0x0001#16, 0x0100#16, 0x1001#16, 0x3080#16, 0x4001#16].map decodeCmd =
      [.illegal 0x0001, .illegal 0x0100, .illegal 0x1001, .illegal 0x3080, .illegal 0x4001] := by decide

theorem test_decode_pad : decode (.fsm 0b0010#4) = .ok .pad := by decide

theorem test_decode_load : decode (.fsm 0b0011#4) = .ok .load := by decide

theorem test_decode_expand : decode (.fsm 0b0100#4) = .ok .expand := by decide

theorem test_decode_round : decode (.fsm 0b0101#4) = .ok .round := by decide

theorem test_decode_final : decode (.fsm 0b0110#4) = .ok .final := by decide

theorem test_decode_serialize : decode (.fsm 0b0111#4) = .ok .serialize := by decide

/-- R87: IDLE, ABSORB, DONE and ERROR are no operations. -/
theorem test_decode_quiescent_codes_rejected :
    [0x0#4, 0x1#4, 0x8#4, 0x9#4].map decodeFsm =
      [.error (.noOperation 0x0), .error (.noOperation 0x1), .error (.noOperation 0x8),
        .error (.noOperation 0x9)] := by decide

/-- R87, R88: no operation has a code 0xA to 0xF. -/
theorem test_decode_unused_codes_rejected :
    decodeFsm 0xA#4 = .error (.unusedCode 0xA) ∧ decodeFsm 0xF#4 = .error (.unusedCode 0xF) := by decide

theorem test_decodeTableWord :
    decodeTableWord 16 0x2061 = some (.data 0x61) ∧ decodeTableWord 4 0x5 = some .round ∧
      decodeTableWord 8 0xA = none := by decide

/-- The next step after reset runs a placed word of either format. -/
theorem test_withFetchWord_runs :
    sees (step (State.reset.withFetchWord 16 0x1000)) (fun t => t.chip.fsm = .absorb) = true ∧
      sees (step (State.reset.withFetchWord 8 0x7)) (fun t => t.chip.fsm = .done) = true := by decide

/-! The functions (spec/95_test_vectors.md 2.1, spec/41_schedule_expander.md R136,
spec/42_compression_engine.md R161). -/

theorem test_rotr : rotr 0x00000001 7 = 0x02000000 ∧ rotr 0x80000000 25 = 0x00000040 := by decide

theorem test_shr : shr 0xffffffff 3 = 0x1fffffff ∧ shr 0xffffffff 10 = 0x003fffff := by decide

theorem test_add_wraps : (0xffffffff : Word) + 1 = 0 ∧ (0x80000000 : Word) + 0x80000000 + 5 = 5 := by decide

theorem test_be32 : be32 0x61 0x62 0x63 0x80 = 0x61626380 := by decide

theorem test_be64Byte : (List.range 8).map (be64Byte 0x1c0) = [0, 0, 0, 0, 0, 0, 1, 0xc0] := by decide

theorem test_smallSigma :
    smallSigma0 0x61626380 = 0x940e90ef ∧ smallSigma1 0x61626380 = 0x7da86405 ∧
      smallSigma0 0x12345678 = 0xe7fce6ee ∧ smallSigma1 0x12345678 = 0xa1f78649 ∧
      smallSigma0 0xffffffff = 0x1fffffff ∧ smallSigma1 0xffffffff = 0x003fffff := by decide

theorem test_bigSigma :
    bigSigma0 0x61626380 = 0x8dd59276 ∧ bigSigma1 0x61626380 = 0xc0b865f2 ∧
      bigSigma0 0x12345678 = 0x66146474 ∧ bigSigma1 0x12345678 = 0x3561abda ∧
      bigSigma0 0x80000000 = 0x20040200 ∧ bigSigma1 0x80000000 = 0x02100040 := by decide

theorem test_ch_maj :
    ch 0xff00ff00 0x12345678 0x9abcdef0 = 0x12bc56f0 ∧ maj 0xff00ff00 0x12345678 0x9abcdef0 = 0x9a34de70 ∧
      ch 0 0xffffffff 0x0f0f0f0f = 0x0f0f0f0f ∧ maj 0xffffffff 0x0f0f0f0f 0xf0f0f0f0 = 0xffffffff := by decide

theorem test_hexchar : [0x0#4, 0x9#4, 0xa#4, 0xf#4].map hexchar = [0x30, 0x39, 0x61, 0x66] := by decide

/-- The rows n = 0, 3, 55, 56, 63, 64, 119 and 120 of X6. -/
theorem test_engineSteps :
    [0, 3, 55, 56, 63, 64, 119, 120].map engineSteps = [179, 176, 124, 301, 294, 293, 238, 415] := by decide

/-- S3, and the "abc" block of spec/95_test_vectors.md 2.2. -/
theorem test_padMessage :
    padMessage [] = 0x80 :: List.replicate 63 0 ∧ padMessage [0x61, 0x62, 0x63] = abcBytes := by decide

/-! Host commands. -/

/-- CV1. -/
theorem test_nop :
    sees (exec .nop (at' finished)) (fun t => t.chip = finished ∧ t.replies = [0x8000]) = true := by decide

/-- CV2. -/
theorem test_start_from_reset :
    sees (exec .start State.reset) (fun t => t.chip.fsm = .absorb ∧ t.chip.H = some IV ∧ t.chip.L = 0 ∧
      t.chip.status = 0x01 ∧ t.chip.irq = false ∧ t.replies = [0x8000]) = true := by decide

/-- CV25: START drops the block in flight. -/
theorem test_start_from_expand :
    sees (exec .start (at' (expanding 22 (sched [])))) (fun t => t.chip.fsm = .absorb ∧ t.chip.H = some IV ∧
      t.chip.L = 0 ∧ t.chip.t = 0 ∧ t.chip.padStage = .none ∧ t.chip.last = false) = true := by decide

/-- CV4. -/
theorem test_data_fills_block :
    sees (exec (.data 0x41) (at' (absorbed 63))) (fun t => t.chip.B[63] = some 0x41 ∧ t.chip.bc = 64 ∧
      t.chip.L = 0x200 ∧ t.chip.fsm = .load ∧ t.chip.status = 0x02) = true := by decide

/-- CV17: the limit is 2 bytes and 2 are there. -/
theorem test_data_at_limit :
    sees (exec (.data 0x03) { at' (absorbed 2) with maxMsgBytes := 2 }) (fun t => t.chip.errLength ∧
      t.chip.status = 0x10 ∧ t.chip.L = 0x10 ∧ t.chip.bc = 2 ∧ t.chip.B[2] = none) = true := by decide

/-- CV9. -/
theorem test_end :
    sees (exec .endMsg (at' (absorbed 3))) (fun t => t.chip.padStage = .mark ∧ t.chip.fsm = .pad ∧
      t.chip.L = 0x18 ∧ t.chip.status = 0x02) = true := by decide

/-- CV23: a second error sets its flag as well. -/
theorem test_end_in_error :
    sees (exec .endMsg (at' failed)) (fun t => t.chip.status = 0x28 ∧ t.chip.fsm = .error) = true := by decide

/-- CV7, CV11. -/
theorem test_rdstat :
    sees (exec .rdstat (at' loading)) (fun t => t.chip = loading ∧ t.replies = [0xc002]) = true ∧
      sees (exec .rdstat (at' finished)) (fun t => t.replies = [0xc004]) = true := by decide

/-- CV12, CV13. -/
theorem test_rdhex_done :
    sees (exec (.rdhex 0) (at' finished)) (fun t => t.replies = [0xc062]) = true ∧
      sees (exec (.rdhex 63) (at' finished)) (fun t => t.replies = [0xc064]) = true := by decide

/-- X2, CV8: outside DONE no character is read, so an absent digest is no fault. -/
theorem test_rdhex_elsewhere :
    sees (exec (.rdhex 5) State.reset) (fun t => t.replies = [0x8000]) = true ∧
      sees (exec (.rdhex 0) (at' loading)) (fun t => t.replies = [0x8000]) = true := by decide

/-- CV21: an illegal word with DATA's OP raises InputError alone. -/
theorem test_illegal_in_idle :
    sees (exec (.illegal 0x2100) State.reset) (fun t => t.chip.status = 0x08 ∧ t.replies = [0x8000]) = true := by
  decide

/-- CV20 and CV27: a reserved OP is accepted while busy, a word with DATA's OP is held. -/
theorem test_illegal_while_busy :
    sees (exec (.illegal 0x6000) (at' (padding .mark 0 0))) (fun t => t.chip.status = 0x08) = true ∧
      sees (exec (.illegal 0x2100) (at' (padding .mark 0 0))) (fun t => t = at' (padding .mark 0 0)) = true := by
  decide

/-! Internal operations. -/

/-- spec/95_test_vectors.md 2.2: MARK at bc = 63; the byte chosen at bc = 56. -/
theorem test_pad_mark_fills_block :
    sees (exec .pad (at' (padding .mark 63 0x1f8))) (fun t => t.chip.B[63] = some 0x80 ∧
      t.chip.padStage = .fill ∧ t.chip.bc = 64 ∧ t.chip.fsm = .load ∧ t.chip.last = false) = true := by decide

/-- spec/95_test_vectors.md 2.2: the length field's bytes at bc = 62 and 63 for L = 1b8. -/
theorem test_pad_length :
    sees (exec .pad (at' (padding .len 62 0x1b8))) (fun t => t.chip.B[62] = some 0x01 ∧ t.chip.bc = 63) = true ∧
      sees (exec .pad (at' (padding .len 63 0x1b8))) (fun t => t.chip.B[63] = some 0xb8 ∧ t.chip.bc = 64 ∧
        t.chip.fsm = .load ∧ t.chip.last) = true := by decide

/-- spec/95_test_vectors.md 2.2: LOAD of "abc". -/
theorem test_load :
    sees (exec .load (at' loading)) (fun t => t.chip.W = sched abcWords ∧ t.chip.V = some (Work.ofHash IV) ∧
      t.chip.t = 16 ∧ t.chip.bc = 0 ∧ t.chip.fsm = .expand) = true := by decide

/-- spec/95_test_vectors.md 2.3: W[17] of "abc". -/
theorem test_expand_abc :
    sees (exec .expand (at' (expanding 17 (sched (abcWords ++ [0x61626380]))))) (fun t =>
      t.chip.W[17] = some 0x000f0000 ∧ t.chip.t = 18 ∧ t.chip.fsm = .expand) = true := by decide

/-- spec/95_test_vectors.md 2.3: W[63] of "abc" from its words 47, 48, 56 and 61. -/
theorem test_expand_last :
    sees (exec .expand (at' (expanding 63 (sched (List.replicate 47 0 ++ [0x065c43da, 0xfb3e89cb] ++
      List.replicate 7 0 ++ [0xef57b9cd] ++ List.replicate 4 0 ++ [0x668b2ff8, 0]))))) (fun t =>
      t.chip.W[63] = some 0x12b1edeb ∧ t.chip.t = 0 ∧ t.chip.fsm = .round) = true := by decide

/-- spec/95_test_vectors.md 2.4: round 0 of "abc". -/
theorem test_round_abc :
    sees (exec .round (at' (rounding 0 0x61626380))) (fun t => t.chip.V = some ⟨0x5d6aebcd, 0x6a09e667,
      0xbb67ae85, 0x3c6ef372, 0xfa2a4622, 0x510e527f, 0x9b05688c, 0x1f83d9ab⟩ ∧ t.chip.t = 1 ∧
      t.chip.fsm = .round) = true := by decide

/-- spec/95_test_vectors.md 2.4: T1 and T2 of round 0 of "abc" and of the empty message. -/
theorem test_round_terms :
    roundT1 (Work.ofHash IV) (K 0) 0x61626380 = 0x54da50e8 ∧ roundT2 (Work.ofHash IV) = 0x08909ae5 ∧
      roundT1 (Work.ofHash IV) (K 0) 0x80000000 = 0x7377ed68 := by decide

/-- spec/95_test_vectors.md 2.4: FINAL of "abc". -/
theorem test_final_last :
    sees (exec .final (at' (finishing true .len))) (fun t => t.chip.H = some abcHash ∧
      t.chip.fsm = .serialize) = true := by decide

/-- R159: FINAL returns to PAD while padding is in progress and to ABSORB otherwise. -/
theorem test_final_returns :
    sees (exec .final (at' (finishing false .fill))) (fun t => t.chip.fsm = .pad) = true ∧
      sees (exec .final (at' (finishing false .none))) (fun t => t.chip.fsm = .absorb) = true := by decide

/-- spec/95_test_vectors.md 2.5: characters 0, 1, 7, 8, 62 and 63 of "abc". -/
theorem test_serialize :
    sees (exec .serialize (at' serializing)) (fun t => t.chip.fsm = .done ∧ t.chip.DIG.map (fun d =>
      [d[0], d[1], d[7], d[8], d[62], d[63]]) = some [0x62, 0x61, 0x66, 0x38, 0x61, 0x64]) = true := by decide

/-! Reset. -/

/-- X1, X5: reset wins over an offered word, which is not accepted. -/
theorem test_reset_wins :
    sees (step { at' finished with offers := [0x1000], turns := [.reset] }) (fun t => t.chip = Chip.reset ∧
      t.chip.status = 0x00 ∧ t.chip.irq = false ∧ t.offers = [0x1000] ∧ t.replies = []) = true := by decide

/-! Witnesses: for every statement with hypotheses, a state and operands that meet all of them, one for each
clause at the boundary of its range. A witness named after a clause says which. -/

/-- A step that answers: the state it answers with, for hypotheses `step s = .next t`. -/
theorem sees_next {r : Result} {p : State → Bool} (h : sees r p = true) : ∃ t, r = .next t := by
  cases r with
  | next t => exact ⟨t, rfl⟩
  | fault _ => exact absurd h (by simp [sees])
  | refused _ => exact absurd h (by simp [sees])

theorem witness_EncodeDecodeRoundTrip :
    (Instr.illegal 0xFFFF#16).wellFormed = true ∧ (Instr.rdhex 63).wellFormed = true ∧
      (Instr.data 0xFF).wellFormed = true ∧ Instr.serialize.wellFormed = true := by decide

theorem witness_DecodedCodeIsItsEncoding :
    decode (.cmd 0x5040#16) = .ok (.illegal 0x5040) ∧ decode (.cmd 0x503F#16) = .ok (.rdhex 63) ∧
      decode (.fsm 0x7#4) = .ok .serialize := by decide

theorem witness_ReservedFieldMakesIllegal :
    (8 ≤ 8 ∧ 8 ≤ 11 ∧ (0x2100#16).getLsbD 8 = true) ∧ 8 ≤ 11 ∧ 11 ≤ 11 ∧ (0x0800#16).getLsbD 11 = true := by
  decide

theorem witness_HostStepRunsOfferedWord :
    ∃ s : State, s.offers = 0x2061#16 :: [] ∧ s.nextTurn = .host ∧ decode (.cmd 0x2061#16) = .ok (.data 0x61) :=
  ⟨{ at' opened with offers := [0x2061] }, by decide⟩

/-- By the schedule, in a busy state. -/
theorem witness_HostStepRunsOfferedWord_scheduled :
    ∃ s : State, s.offers = 0x4000#16 :: [] ∧ s.nextTurn = .host ∧ s.chip.busy = true ∧
      decode (.cmd 0x4000#16) = .ok .rdstat :=
  ⟨{ at' loading with offers := [0x4000], turns := [.host] }, by decide⟩

theorem witness_EngineStepRunsSelectedOperation :
    ((at' (padding .mark 0 0)).nextTurn = .engine ∧ (at' (padding .mark 0 0)).chip.busy = true) ∧
      (at' serializing).nextTurn = .engine ∧ (at' serializing).chip.busy = true := by decide

theorem witness_NoStepWhenQuiescent :
    ∃ s : State, s.chip.fsm = .error ∧ s.nextTurn = .engine := ⟨{ at' failed with turns := [.engine] }, by decide⟩

theorem witness_NoStepWhenQuiescent_idle :
    State.reset.chip.fsm = .idle ∧ State.reset.turns = [] ∧ State.reset.offers = [] := by decide

/-- An END and an illegal word with DATA's OP, held in the first and in the last busy state. -/
theorem witness_HeldWordChangesNothing :
    (∃ s : State, s.offers = 0x3000#16 :: [] ∧ s.nextTurn = .host ∧ s.chip.busy = true ∧
      ((0x3000#16).extractLsb' 12 4 = 0x2#4 ∨ (0x3000#16).extractLsb' 12 4 = 0x3#4)) ∧
    ∃ s : State, s.offers = 0x2100#16 :: [] ∧ s.nextTurn = .host ∧ s.chip.busy = true ∧
      ((0x2100#16).extractLsb' 12 4 = 0x2#4 ∨ (0x2100#16).extractLsb' 12 4 = 0x3#4) :=
  ⟨⟨{ at' (padding .mark 0 0) with offers := [0x3000], turns := [.host] }, by decide⟩,
    ⟨{ at' serializing with offers := [0x2100], turns := [.host] }, by decide⟩⟩

/-- A word that is accepted, and one that is held. -/
theorem witness_AcceptedExactlyWhenReady :
    (∃ s t : State, s.offers = 0x6000#16 :: [] ∧ s.nextTurn = .host ∧ step s = .next t ∧
      s.chip.cmdReady 0x6000#16 = true) ∧
    ∃ s t : State, s.offers = 0x2061#16 :: [] ∧ s.nextTurn = .host ∧ step s = .next t ∧
      s.chip.cmdReady 0x2061#16 = false :=
  ⟨⟨{ at' loading with offers := [0x6000], turns := [.host] }, _, rfl, rfl, rfl, by decide⟩,
    ⟨{ at' loading with offers := [0x2061], turns := [.host] }, _, rfl, rfl, rfl, by decide⟩⟩

theorem witness_ResetClearsEveryElement :
    ∃ s : State, s.nextTurn = .reset ∧ s.chip.fsm = .done := ⟨{ at' finished with turns := [.reset] }, by decide⟩

theorem witness_AfterResetOutputsAreZero :
    ∃ s t : State, s.nextTurn = .reset ∧ step s = .next t :=
  ⟨{ at' failed with turns := [.reset] }, _, rfl, rfl⟩

/-- After reset, and in a busy state. -/
theorem witness_NopLeavesChipUnchanged :
    (∀ n, State.reset.chip.fsm ≠ .unused n) ∧ ∀ n, (at' loading).chip.fsm ≠ .unused n := by decide

theorem witness_StartOpensFreshJob :
    (∀ n, (at' failed).chip.fsm ≠ .unused n) ∧ ∀ n, (at' (expanding 22 (sched []))).chip.fsm ≠ .unused n := by
  decide

theorem witness_RdstatReturnsStatus :
    (∀ n, (at' finished).chip.fsm ≠ .unused n) ∧ ∀ n, (at' loading).chip.fsm ≠ .unused n := by decide

/-- The first byte of a block. -/
theorem witness_DataAppendsMessageByte :
    ∃ s : State, s.chip.fsm = .absorb ∧ s.chip.L.toNat / 8 ≠ s.maxMsgBytes.val ∧ s.chip.bc.toNat ≤ 63 ∧
      s.chip.bc ≠ 63#7 :=
  ⟨at' (absorbed 0), by decide⟩

/-- The byte that fills the block; the last byte below the limit. -/
theorem witness_DataAppendsMessageByte_full :
    ∃ s : State, s.chip.fsm = .absorb ∧ s.chip.L.toNat / 8 ≠ s.maxMsgBytes.val ∧ s.chip.bc.toNat ≤ 63 ∧
      s.chip.bc = 63#7 ∧ s.chip.L.toNat / 8 + 1 = s.maxMsgBytes.val :=
  ⟨{ at' (absorbed 63) with maxMsgBytes := 64 }, by decide⟩

theorem witness_EndStartsPadding : ∃ s : State, s.chip.fsm = .absorb := ⟨at' (absorbed 3), by decide⟩

theorem witness_RdhexReturnsCharacter :
    (∃ s d, (∀ n, s.chip.fsm ≠ .unused n) ∧ s.chip.fsm = .done ∧ s.chip.DIG = some d ∧ s = at' finished) ∧
      (∀ n, (at' loading).chip.fsm ≠ .unused n) ∧ (at' loading).chip.fsm ≠ .done :=
  ⟨⟨at' finished, _, by decide, rfl, rfl, rfl⟩, by decide⟩

theorem witness_IllegalRaisesInputError :
    (legal 0x2100#16 = false ∧ (∀ n, State.reset.chip.fsm ≠ .unused n) ∧
        State.reset.chip.cmdReady 0x2100#16 = true) ∧
      (∀ n, (at' (padding .mark 0 0)).chip.fsm ≠ .unused n) ∧ (legal 0x6000#16 = false ∧ (at' (padding .mark 0 0)).chip.cmdReady 0x6000#16 = true) ∧
      legal 0x2100#16 = false ∧ (at' (padding .mark 0 0)).chip.cmdReady 0x2100#16 = false := by decide

theorem witness_OutOfSequenceRaisesSeqError :
    State.reset.chip.fsm = .idle ∧ (at' finished).chip.fsm = .done ∧ (at' failed).chip.fsm = .error ∧
      (at' loading).chip.busy = true := by decide

/-- CV17, and CV18 with a limit of 0. -/
theorem witness_DataAtLimitRaisesLengthError :
    (∃ s : State, s.chip.fsm = .absorb ∧ s.chip.L.toNat / 8 = s.maxMsgBytes.val ∧ s.maxMsgBytes.val = 2) ∧
      ∃ s : State, s.chip.fsm = .absorb ∧ s.chip.L.toNat / 8 = s.maxMsgBytes.val ∧ s.maxMsgBytes.val = 0 :=
  ⟨⟨{ at' (absorbed 2) with maxMsgBytes := 2 }, by decide⟩, ⟨{ at' opened with maxMsgBytes := 0 }, by decide⟩⟩

/-- A held word; the branches InputError, SeqError and LengthLimitError; an accepted word with none. -/
theorem witness_ErrorPriorityOfAcceptedWord :
    (∃ t, exec (decodeCmd 0x2100#16) (at' loading) = .next t) ∧ (at' loading).chip.cmdReady 0x2100#16 = false ∧
    (∃ t, exec (decodeCmd 0x2100#16) State.reset = .next t) ∧ State.reset.chip.cmdReady 0x2100#16 = true ∧
    (∃ t, exec (decodeCmd 0x2061#16) (at' finished) = .next t) ∧ (at' finished).chip.cmdReady 0x2061#16 = true ∧
    (∃ t, exec (decodeCmd 0x2000#16) { at' opened with maxMsgBytes := 0 } = .next t) ∧
      (at' opened).chip.cmdReady 0x2000#16 = true ∧
    (∃ t, exec (decodeCmd 0x2061#16) (at' (absorbed 63)) = .next t) ∧
      (at' (absorbed 63)).chip.cmdReady 0x2061#16 = true :=
  ⟨⟨_, rfl⟩, by decide, ⟨_, rfl⟩, by decide, ⟨_, rfl⟩, by decide, ⟨_, rfl⟩, by decide, ⟨_, rfl⟩, by decide⟩

/-- MARK at both ends of a block. -/
theorem witness_PadAppendsPaddingByte_mark :
    (∃ s : State, s.chip.fsm = .pad ∧ s.chip.R40 s.maxMsgBytes.val ∧ s.chip.padStage = .mark ∧
      s.chip.bc = 0#7) ∧
    ∃ s : State, s.chip.fsm = .pad ∧ s.chip.R40 s.maxMsgBytes.val ∧ s.chip.padStage = .mark ∧
      s.chip.bc = 63#7 :=
  ⟨⟨at' (padding .mark 0 0), rfl, by constructor <;> decide, rfl, rfl⟩,
    ⟨at' (padding .mark 63 0x1f8), rfl, by constructor <;> decide, rfl, rfl⟩⟩

/-- FILL at 56, and at 55, 57 and 63. -/
theorem witness_PadAppendsPaddingByte_fill :
    (∃ s : State, s.chip.fsm = .pad ∧ s.chip.R40 s.maxMsgBytes.val ∧ s.chip.padStage = .fill ∧
      s.chip.bc.toNat = 56) ∧
    ∀ b ∈ [55#7, 57#7, 63#7], ∃ s : State, s.chip.fsm = .pad ∧ s.chip.bc = b ∧
      s.chip.R40 s.maxMsgBytes.val ∧ s.chip.padStage = .fill ∧ s.chip.bc.toNat ≠ 56 :=
  ⟨⟨at' (padding .fill 56 0x1b8), rfl, by constructor <;> decide, rfl, rfl⟩, fun b hb =>
    ⟨at' (padding .fill b 0x1b8), rfl, rfl, by constructor <;> (revert b; decide), rfl, by revert b; decide⟩⟩

/-- LEN at 57 and at 63. -/
theorem witness_PadAppendsPaddingByte_len :
    ∀ b ∈ [57#7, 63#7], ∃ s : State, s.chip.fsm = .pad ∧ s.chip.bc = b ∧ s.chip.R40 s.maxMsgBytes.val ∧
      s.chip.padStage = .len :=
  fun b hb => ⟨at' (padding .len b 0x1b8), rfl, rfl, by constructor <;> (revert b; decide), rfl⟩

theorem witness_PadAppendsPaddingByte_none :
    (at' (padding .none 63 0)).chip.fsm = .pad ∧ (at' (padding .none 63 0)).chip.padStage = .none := by decide

/-- The bytes of the "abc" block. -/
def abcVector : Vector Byte 64 := Vector.ofFn fun i => abcBytes.getD i.val 0

theorem witness_LoadParsesBlock :
    (at' loading).chip.fsm = .load ∧ (at' loading).chip.R40 (at' loading).maxMsgBytes.val ∧
      (at' loading).chip.H = some IV ∧ ∀ i : Fin 64, (at' loading).chip.B[i] = some abcVector[i] :=
  ⟨rfl, by constructor <;> decide, rfl, by decide⟩

/-- At the first index and at the last. -/
theorem witness_ExpandComputesScheduleWord :
    (∃ s : State, s.chip.fsm = .expand ∧ s.chip.t = 16#6 ∧ s.chip.R40 s.maxMsgBytes.val ∧
      s.chip.schedule? (s.chip.t.toNat - 2) = some 0 ∧ s.chip.schedule? (s.chip.t.toNat - 7) = some 0 ∧
      s.chip.schedule? (s.chip.t.toNat - 15) = some 0 ∧
      s.chip.schedule? (s.chip.t.toNat - 16) = some 0x61626380) ∧
    ∃ s : State, s.chip.fsm = .expand ∧ s.chip.t = 63#6 ∧ s.chip.R40 s.maxMsgBytes.val ∧
      s.chip.schedule? (s.chip.t.toNat - 2) = some 1 ∧ s.chip.schedule? (s.chip.t.toNat - 7) = some 1 ∧
      s.chip.schedule? (s.chip.t.toNat - 15) = some 1 ∧ s.chip.schedule? (s.chip.t.toNat - 16) = some 1 :=
  ⟨⟨at' (expanding 16 (sched abcWords)), rfl, rfl, by constructor <;> decide, by decide⟩,
    ⟨at' (expanding 63 (sched (List.replicate 63 1))), rfl, rfl, by constructor <;> decide, by decide⟩⟩

/-- At the first round and at the last. -/
theorem witness_RoundUpdatesWorkingRegisters :
    ∀ n ∈ [0#6, 63#6], ∃ s : State, s.chip.fsm = .round ∧ s.chip.t = n ∧ s.chip.R40 s.maxMsgBytes.val ∧
      s.chip.V = some (Work.ofHash IV) ∧ s.chip.schedule? s.chip.t.toNat = some 5 :=
  fun n hn => ⟨at' (rounding n 5), rfl, rfl, by constructor <;> (revert n; decide), rfl, by revert n; decide⟩

/-- For each of the three states FINAL chooses. -/
theorem witness_FinalAddsAndChooses :
    ∀ p ∈ [(true, PadStage.len), (false, .fill), (false, .none)], ∃ s : State, s.chip.fsm = .final ∧
      s.chip.R40 s.maxMsgBytes.val ∧ s.chip.H = some IV ∧ s.chip.V = some abcWork ∧ s.chip.last = p.1 ∧
      s.chip.padStage = p.2 :=
  fun p hp => ⟨at' (finishing p.1 p.2), rfl, by constructor <;> (revert p; decide), rfl, rfl, rfl, rfl⟩

theorem witness_SerializeRendersHash :
    (at' serializing).chip.fsm = .serialize ∧ (at' serializing).chip.R40 (at' serializing).maxMsgBytes.val ∧
      (at' serializing).chip.H = some abcHash :=
  ⟨rfl, by constructor <;> decide, rfl⟩

theorem witness_EngineOperationsRaiseNoError :
    (∃ t, exec .pad (at' (padding .mark 0 0)) = .next t) ∧ (∃ t, exec .load (at' loading) = .next t) ∧
      (∃ t, exec .expand (at' (expanding 16 (sched abcWords))) = .next t) ∧
      (∃ t, exec .round (at' (rounding 0 5)) = .next t) ∧
      (∃ t, exec .final (at' (finishing true .len)) = .next t) ∧
      ∃ t, exec .serialize (at' serializing) = .next t :=
  ⟨sees_next (p := fun _ => true) (by decide), sees_next (p := fun _ => true) (by decide),
    sees_next (p := fun _ => true) (by decide), sees_next (p := fun _ => true) (by decide),
    sees_next (p := fun _ => true) (by decide), sees_next (p := fun _ => true) (by decide)⟩

/-- Each clause of the statement, at the value next to its boundary; the fault is the one it names. -/
theorem witness_BrokenPreconditionsFault :
    (at' { opened with fsm := .unused 0 }).nextTurn = .engine ∧
    ({ at' { opened with fsm := .unused 5 } with turns := [.engine] } : State).nextTurn = .engine ∧
    stops (step { at' { opened with fsm := .unused 5 } with turns := [.engine] }) (.unusedFsm 5) = true ∧
    stops (step { at' { opened with fsm := .unused 5 } with turns := [.host] }) (.unusedFsm 5) = true ∧
    [0x0000#16, 0x1000#16, 0x2000#16, 0x3000#16, 0x4000#16, 0x5000#16, 0x6000#16, 0x2100#16].all (fun w =>
      stops (exec (decodeCmd w) (at' { opened with fsm := .unused 0 })) (.unusedFsm 0)) = true ∧
    stops (exec .pad (at' (padding .none 0 0))) .padStageNone = true ∧
    stops (exec .pad (at' (padding .len 56 0))) .lengthByteIndex = true ∧
    stops (exec .pad (at' (padding .fill 64 0))) .blockFull = true ∧
    stops (exec (.data 0) (at' { opened with bc := 64 })) .blockFull = true ∧
    stops (exec .load (at' { loading with bc := 63 })) .blockNotFull = true ∧
    stops (exec .load (at' { loading with bc := 65 })) .blockNotFull = true ∧
    stops (exec .expand (at' (expanding 15 (sched abcWords)))) .scheduleIndex = true := by decide

/-- Each clause of the statement: one predicate of R40's row (or of its row "any") is broken, every operand is
there, and the fault is the one the statement names. -/
theorem witness_BrokenInvariantStopsOperation :
    stops (exec .pad (at' { padding .mark 0 0 with t := 1 })) .brokenInvariant = true ∧
    stops (exec .pad (at' (padding .mark 5 0))) .brokenInvariant = true ∧
    stops (exec .load (at' { loading with t := 1 })) .brokenInvariant = true ∧
    stops (exec .load (at' { loading with L := 0x19 })) .brokenInvariant = true ∧
    stops (exec .expand (at' { expanding 16 (sched abcWords) with bc := 1 })) .brokenInvariant = true ∧
    stops (exec .expand (at' (expanding 17 ((sched (List.replicate 17 1)).set 5 none)))) .brokenInvariant = true ∧
    stops (exec .round (at' { rounding 63 5 with bc := 64 })) .brokenInvariant = true ∧
    stops (exec .final (at' { finishing true .len with t := 63 })) .brokenInvariant = true ∧
    stops (exec .final (at' (finishing true .fill))) .brokenInvariant = true ∧
    stops (exec .serialize (at' { serializing with last := false })) .brokenInvariant = true ∧
    stops (exec .serialize { at' serializing with maxMsgBytes := 2 }) .brokenInvariant = true := by decide

/-- The premise of that statement, at one of these states. -/
theorem witness_BrokenInvariantStopsOperation_premise :
    ∃ s : State, ¬ s.chip.R40 s.maxMsgBytes.val ∧ decode (.fsm s.chip.fsm.code) = .ok .serialize :=
  ⟨at' { serializing with last := false }, fun h => absurd (h.serialize rfl) (by decide), by decide⟩

/-- Each clause of the statement; the fault is the one it names. -/
theorem witness_AbsentReadsFault :
    stops (exec .load (at' { loading with B := block (List.replicate 63 0) })) (.absentRead .block) = true ∧
    stops (exec .load (at' { loading with H := none })) (.absentRead .hashState) = true ∧
    stops (exec .expand (at' (expanding 16 (sched (List.replicate 14 0))))) (.absentRead .schedule) = true ∧
    stops (exec .round (at' { rounding 0 5 with V := none })) (.absentRead .working) = true ∧
    stops (exec .round (at' { rounding 63 5 with W := sched (List.replicate 63 0) }))
      (.absentRead .schedule) = true ∧
    stops (exec .final (at' { finishing true .len with H := none })) (.absentRead .hashState) = true ∧
    stops (exec .final (at' { finishing true .len with V := none })) (.absentRead .working) = true ∧
    stops (exec .serialize (at' { serializing with H := none })) (.absentRead .hashState) = true ∧
    stops (exec (.rdhex 0) (at' { finished with DIG := none })) (.absentRead .digest) = true := by decide

/-- The invariant is met after reset. -/
theorem reset_inv : State.reset.Inv where
  r40 := by constructor <;> decide
  used := by decide
  inFlight := by decide
  busyNoError := by decide
  hash := by decide
  block := by decide
  work := by decide
  schedule := by decide

/-- The invariant is met where a busy period is longest: END after 56 bytes. -/
theorem longest_padding_inv : (at' { absorbed 56 with fsm := .pad, padStage := .mark }).Inv where
  r40 := by constructor <;> decide
  used := by decide
  inFlight := by decide
  busyNoError := by decide
  hash := by decide
  block := by decide
  work := by decide
  schedule := by decide

/-- The invariant is met in the last EXPAND of a block. -/
theorem last_expand_inv : (at' (expanding 63 (sched (List.replicate 63 1)))).Inv where
  r40 := by constructor <;> decide
  used := by decide
  inFlight := by decide
  busyNoError := by decide
  hash := by decide
  block := by decide
  work := by decide
  schedule := by decide

/-- The invariant is met in DONE. -/
theorem finished_inv : (at' finished).Inv where
  r40 := by constructor <;> decide
  used := by decide
  inFlight := by decide
  busyNoError := by decide
  hash := by decide
  block := by decide
  work := by decide
  schedule := by decide

/-- The invariant is met in ERROR. -/
theorem failed_inv : (at' failed).Inv where
  r40 := by constructor <;> decide
  used := by decide
  inFlight := by decide
  busyNoError := by decide
  hash := by decide
  block := by decide
  work := by decide
  schedule := by decide

theorem witness_StepKeepsInvariantAndNeverStops :
    State.reset.Inv ∧ (at' { absorbed 56 with fsm := .pad, padStage := .mark }).Inv ∧
      (at' (expanding 63 (sched (List.replicate 63 1)))).Inv ∧ (at' finished).Inv ∧ (at' failed).Inv :=
  ⟨reset_inv, longest_padding_inv, last_expand_inv, finished_inv, failed_inv⟩

/-- In DONE, in ERROR and while busy. -/
theorem witness_IrqIsDoneOrErrorInStatus :
    (∃ c m, Chip.Inv c m ∧ c.fsm = .done) ∧ (∃ c m, Chip.Inv c m ∧ c.fsm = .error) ∧
      ∃ c m, Chip.Inv c m ∧ c.busy = true :=
  ⟨⟨_, _, finished_inv, rfl⟩, ⟨_, _, failed_inv, rfl⟩, ⟨_, _, longest_padding_inv, rfl⟩⟩

/-- A host's step, an engine's step and a reset. -/
theorem witness_StepFollowsTransitionTable :
    (∃ t, step { at' opened with offers := [0x3000] } = .next t) ∧ (∃ t, step (at' serializing) = .next t) ∧
      ∃ t, step { at' finished with turns := [.reset] } = .next t := ⟨⟨_, rfl⟩, ⟨_, rfl⟩, ⟨_, rfl⟩⟩

theorem witness_ErrorLeftOnlyByStartOrReset :
    ∃ s t : State, s.chip.fsm = .error ∧ ¬ s.OpensOrResets ∧ step s = .next t ∧ s.chip.errInput = true ∧
      s.offers = [0x3000#16] :=
  ⟨{ at' failed with offers := [0x3000] }, _, rfl, by unfold State.OpensOrResets; decide, rfl, rfl, rfl⟩

/-- A START, a reset, and a step that is neither. -/
theorem witness_ErrorFlagsAreSticky :
    (∃ s t : State, step s = .next t ∧ s.OpensOrResets ∧ s.nextTurn = .host ∧ s.chip.errInput = true) ∧
      (∃ s t : State, step s = .next t ∧ s.OpensOrResets ∧ s.nextTurn = .reset ∧ s.chip.errInput = true) ∧
      ∃ s t : State, step s = .next t ∧ ¬ s.OpensOrResets ∧ s.chip.errInput = true :=
  ⟨⟨{ at' failed with offers := [0x1000] }, _, rfl, by unfold State.OpensOrResets; decide, rfl, rfl⟩,
    ⟨{ at' failed with turns := [.reset] }, _, rfl, by unfold State.OpensOrResets; decide, rfl, rfl⟩,
    ⟨{ at' failed with offers := [0x2000] }, _, rfl, by unfold State.OpensOrResets; decide, rfl⟩⟩

/-- After DONE: an RDHEX, and a DATA that ends in ERROR. -/
theorem witness_DigestStableAfterDone :
    (∃ s t : State, s.chip.fsm = .done ∧ ¬ s.OpensOrResets ∧ step s = .next t ∧ t.chip.fsm = .done) ∧
      ∃ s t : State, s.chip.fsm = .done ∧ ¬ s.OpensOrResets ∧ step s = .next t ∧ t.chip.fsm = .error :=
  ⟨⟨{ at' finished with offers := [0x503f] }, _, rfl, by unfold State.OpensOrResets; decide, rfl, rfl⟩,
    ⟨{ at' finished with offers := [0x2062] }, _, rfl, by unfold State.OpensOrResets; decide, rfl, rfl⟩⟩

/-- A START, a DATA that counts, and a DATA at the limit. -/
theorem witness_LengthChangesOnlyByData :
    (∃ s t : State, step s = .next t ∧ s.OpensOrResets ∧ s.chip.L = 0x18#64) ∧
      (∃ s t : State, step s = .next t ∧ ¬ s.OpensOrResets ∧ t.chip.L = s.chip.L + 8) ∧
      ∃ s t : State, step s = .next t ∧ ¬ s.OpensOrResets ∧ t.chip.L = s.chip.L :=
  ⟨⟨{ at' finished with offers := [0x1000] }, _, rfl, by unfold State.OpensOrResets; decide, rfl⟩,
    ⟨{ at' (absorbed 3) with offers := [0x2061] }, _, rfl, by unfold State.OpensOrResets; decide, rfl⟩,
    ⟨{ at' (absorbed 3) with offers := [0x2061], maxMsgBytes := 3 }, _, rfl,
      by unfold State.OpensOrResets; decide, rfl⟩⟩

/-- A START, a FINAL and a step that is neither. -/
theorem witness_HashWrittenOnlyByStartFinalReset :
    (∃ s t : State, step s = .next t ∧ s.OpensOrResets) ∧
      (∃ s t : State, step s = .next t ∧ s.nextTurn = .engine ∧ s.chip.fsm = .final) ∧
      ∃ s t : State, step s = .next t ∧ t.chip.H = s.chip.H :=
  ⟨⟨{ at' finished with offers := [0x1000] }, _, rfl, by unfold State.OpensOrResets; decide⟩,
    ⟨at' (finishing true .len), _, rfl, rfl, rfl⟩, ⟨at' (padding .mark 0 0), _, rfl, rfl⟩⟩

theorem witness_RotrRotatesRight : 0 < 1 ∧ 1 < 32 ∧ 31 < 32 ∧ (31 + 1) % 32 = 0 := by decide

theorem witness_ChooseAndMajorityBitByBit : 0 < 32 ∧ 31 < 32 := by decide

theorem witness_BytesAreBigEndian : 0 ≤ 7 ∧ 7 ≤ 7 ∧ be64Byte 0x0100000000000002 0 = 1 ∧
    be64Byte 0x0100000000000002 7 = 2 := by decide

theorem witness_RomsHoldRootsOfPrimes : 311 < 312 ∧ 63 < 64 ∧ romPrimes.getD 63 0 = 311 := by decide

/-- The "abc" block at its first EXPAND. -/
theorem witness_ExpandPhaseComputesSchedule :
    ∃ (s : State) (words : Vector Word 16), s.turns = [] ∧ s.chip.fsm = .expand ∧
      s.chip.R40 s.maxMsgBytes.val ∧ s.chip.t = 16#6 ∧ ∀ j : Fin 16, s.chip.W[j.val] = some words[j] :=
  ⟨at' (expanding 16 (sched abcWords)), Vector.ofFn fun i => abcWords.getD i.val 0, rfl, rfl,
    by constructor <;> decide, rfl, by decide⟩

/-- The "abc" block, and blocks after which FINAL goes to PAD and to ABSORB. -/
theorem witness_BlockFoldsIntoHash :
    ∀ p ∈ [(true, PadStage.len), (false, .fill), (false, .none)], ∃ s : State, s.turns = [] ∧
      s.chip.fsm = .load ∧ s.chip.R40 s.maxMsgBytes.val ∧ s.chip.H = some IV ∧
      (∀ i : Fin 64, s.chip.B[i] = some abcVector[i]) ∧ s.chip.last = p.1 ∧ s.chip.padStage = p.2 :=
  fun p hp => ⟨at' { loading with last := p.1, padStage := p.2 }, rfl, rfl,
    by constructor <;> (revert p; decide), rfl, by
    show ∀ i : Fin 64, loading.B[i] = some abcVector[i]
    decide, rfl, rfl⟩

theorem witness_BusyPeriodEnds :
    ∃ s : State, s.Inv ∧ s.turns = [] ∧ s.chip.busy = true := ⟨_, longest_padding_inv, rfl, rfl⟩

/-- The empty message, with a limit of 0, from reset. -/
theorem witness_JobComputesSha256 :
    ∃ s : State, ([] : List Byte).length ≤ s.maxMsgBytes.val ∧ s.turns = [] ∧ s.chip.fsm.quiescent = true ∧
      s.offers = hashWords [] ++ [] ∧ s.maxMsgBytes.val = 0 :=
  ⟨{ State.reset with offers := hashWords [], maxMsgBytes := 0 }, by decide⟩

/-- "abc" after an error. -/
theorem witness_HostSequenceReadsSha256 :
    ∃ s : State, ([0x61, 0x62, 0x63] : List Byte).length ≤ s.maxMsgBytes.val ∧ s.turns = [] ∧
      s.chip.fsm.quiescent = true ∧ s.offers = hashWords [0x61, 0x62, 0x63] ++ readDigestWords :=
  ⟨{ at' failed with offers := hashWords [0x61, 0x62, 0x63] ++ readDigestWords }, by decide⟩

/-- "a" with polls between its words and turns that are not taken at once. -/
theorem witness_DigestIndependentOfInterleaving :
    ∃ (s : State) (ws : List Cmd), ([0x61] : List Byte).length ≤ s.maxMsgBytes.val ∧
      s.chip.fsm.quiescent = true ∧ Turn.reset ∉ s.turns ∧ s.offers = 0x1000#16 :: ws ∧
      ws.filter (fun w => !readsOnly (decodeCmd w)) = msgWords [0x61] ++ [0x3000#16] ∧ ws.length = 5 :=
  ⟨{ at' finished with
      offers := [0x1000, 0x4000, 0x2061, 0x503f, 0x3000, 0x0000], turns := [.engine, .host, .engine, .host] },
    [0x4000, 0x2061, 0x503f, 0x3000, 0x0000], by decide⟩

/-- A machine after reset and one after a job that ended in an error. -/
theorem witness_JobsAreIndependentOfThePast :
    ∃ s₁ s₂ t₁ t₂ : State, s₁.maxMsgBytes = s₂.maxMsgBytes ∧ s₁.offers = s₂.offers ∧ s₁.turns = s₂.turns ∧
      exec .start s₁ = .next t₁ ∧ exec .start s₂ = .next t₂ ∧ s₁.chip ≠ s₂.chip :=
  ⟨State.reset, at' failed, _, _, rfl, rfl, rfl, rfl, rfl, by decide⟩

end Sys2Proof.Tests
end

section
/-! PROOFS. The primitives of spec/00_scope.md: ROTR bit by bit (R10), and the two byte orders in
numbers (R14). -/
namespace Sys2Proof.Machine

theorem rotr_eq_rotateRight {n : Nat} (hn : n < 32) (x : Word) : rotr x n = x.rotateRight n :=
  (BitVec.rotateRight_eq_rotateRightAux_of_lt hn).symm

/-- The bit that lands on bit `i` comes from `n` places above it, or, past bit 31, from the low end. -/
theorem getLsbD_rotr {n i : Nat} (hn : n < 32) (hi : i < 32) (x : Word) :
    (rotr x n).getLsbD i = x.getLsbD ((i + n) % 32) := by
  rw [rotr_eq_rotateRight hn, BitVec.getLsbD_rotateRight_of_lt hn]
  by_cases h : i < 32 - n
  · have source : (i + n) % 32 = n + i := by omega
    simp [h, source]
  · have source : (i + n) % 32 = i - (32 - n) := by omega
    simp [h, hi, source]

/-- Settles O45: `rotr` is the library's rotation, on each side of the place where it wraps. -/
theorem rotrRotatesRight : Obligations.RotrRotatesRight :=
  fun x _ _ _ hn hi => getLsbD_rotr hn hi x

/-- In `x ++ y` the bits of `y` lie below those of `x`, so the two parts add without overlap. -/
theorem toNat_append_eq_add {m n : Nat} (x : BitVec m) (y : BitVec n) :
    (x ++ y).toNat = x.toNat * 2 ^ n + y.toNat := by
  rw [BitVec.toNat_append, ← Nat.shiftLeft_add_eq_or_of_lt y.isLt, Nat.shiftLeft_eq]

theorem toNat_be32 (b0 b1 b2 b3 : Byte) :
    (be32 b0 b1 b2 b3).toNat =
      b0.toNat * 2 ^ 24 + b1.toNat * 2 ^ 16 + b2.toNat * 2 ^ 8 + b3.toNat := by
  calc (be32 b0 b1 b2 b3).toNat
      = ((b0.toNat * 2 ^ 8 + b1.toNat) * 2 ^ 8 + b2.toNat) * 2 ^ 8 + b3.toNat := by
        simp only [be32, toNat_append_eq_add]
    _ = b0.toNat * 2 ^ 24 + b1.toNat * 2 ^ 16 + b2.toNat * 2 ^ 8 + b3.toNat := by ring

theorem toNat_be64Byte {k : Nat} (hk : k ≤ 7) (L : LenWord) :
    (be64Byte L k).toNat = L.toNat / 2 ^ (8 * (7 - k)) % 256 := by
  have lowBit : 56 - 8 * k = 8 * (7 - k) := by omega
  rw [be64Byte, BitVec.extractLsb'_toNat, Nat.shiftRight_eq_div_pow, lowBit]

/-- Settles O47: concatenation puts each byte below the ones before it, and byte `k` starts at bit 56 - 8k. -/
theorem bytesAreBigEndian : Obligations.BytesAreBigEndian :=
  ⟨toNat_be32, fun L _ hk => toNat_be64Byte hk L⟩

end Sys2Proof.Machine
end

section
/-! PROOFS. The outputs of spec/10_state.md that are functions of the state: the busy set (R22) and
`cmd_ready` (R37). -/
namespace Sys2Proof.Machine

theorem Fsm.busy_iff (f : Fsm) :
    f.busy = true ↔
      f = .pad ∨ f = .load ∨ f = .expand ∨ f = .round ∨ f = .final ∨ f = .serialize := by
  cases f <;> simp [Fsm.busy]

theorem Chip.busy_iff (c : Chip) :
    c.busy = true ↔
      c.fsm = .pad ∨ c.fsm = .load ∨ c.fsm = .expand ∨ c.fsm = .round ∨ c.fsm = .final ∨
        c.fsm = .serialize :=
  c.fsm.busy_iff

/-- Settles O12: the OP test is the model's own, and `busy` is the list of the six busy states. -/
theorem commandReadyRule : Obligations.CommandReadyRule :=
  fun c _ => Chip.cmdReady_eq_false_iff.trans (and_congr_right' c.busy_iff)

end Sys2Proof.Machine
end

section
/-! PROOFS. The reserved field of a command word (spec/30_encoding.md R83). -/
namespace Sys2Proof

theorem Cmd.getLsbD_rsv {i : Nat} (hi : i < 4) (w : Cmd) :
    (Cmd.rsv w).getLsbD i = w.getLsbD (8 + i) := by
  simp [Cmd.rsv, hi]

theorem Cmd.rsv_ne_zero_of_getLsbD {w : Cmd} {k : Nat} (hlow : 8 ≤ k) (hhigh : k ≤ 11)
    (hbit : w.getLsbD k = true) : Cmd.rsv w ≠ 0#4 := by
  intro hzero
  have hk : w.getLsbD k = false := by
    calc w.getLsbD k
        = w.getLsbD (8 + (k - 8)) := by rw [Nat.add_sub_of_le hlow]
      _ = (Cmd.rsv w).getLsbD (k - 8) := (Cmd.getLsbD_rsv (by omega) w).symm
      _ = false := by rw [hzero, BitVec.getLsbD_zero]
  rw [hk] at hbit
  cases hbit

theorem legal_eq_false_of_rsv_ne_zero {w : Cmd} (h : Cmd.rsv w ≠ 0#4) : legal w = false := by
  refine Bool.eq_false_iff.mpr fun hlegal => ?_
  obtain ⟨-, hrsv, -⟩ := (legal_iff w).mp hlegal
  exact h hrsv

/-- Settles O4: bits 8 to 11 are RSV, and R84 asks for RSV = 0 at every OP. -/
theorem reservedFieldMakesIllegal : Obligations.ReservedFieldMakesIllegal := by
  rintro w ⟨k, hlow, hhigh, hbit⟩
  have hrsv : Cmd.rsv w ≠ 0#4 := Cmd.rsv_ne_zero_of_getLsbD hlow hhigh hbit
  exact decodeCmd_of_not_legal (legal_eq_false_of_rsv_ne_zero hrsv)

end Sys2Proof
end

section
/-! PROOFS. The padder and the parser (spec/40_padder_parser.md): PAD's byte (R106), LOAD (R107) and the
padded empty message (R102). -/
namespace Sys2Proof.Machine

theorem State.sameHost_withChip (s : State) (c : Chip) : s.SameHost (s.withChip c) := ⟨rfl, rfl, rfl, rfl⟩

/-- An internal operation where its preconditions hold. -/
theorem internalStep_of_ok {sel : Fsm} {op : Chip → Except Fault Chip} {s : State} {c : Chip}
    (hf : s.chip.fsm = sel) (hop : op s.chip = .ok c) (hr : s.chip.R40 s.maxMsgBytes.val) :
    internalStep sel op s = .next (s.withChip c) :=
  internalStep_eq_next_iff.mpr ⟨hf, c, hop, hr, rfl⟩

/-- R106's table: the byte PAD appends and the stage it leaves. PAD stops in stage NONE, whose row here
is not read (`padOp_none`). -/
def Chip.padChoice (c : Chip) : Byte × PadStage :=
  match c.padStage with
  | .none => (0x00, .none)
  | .mark => (0x80, .fill)
  | .fill => if c.bc = 56#7 then (be64Byte c.L 0, .len) else (0x00, .fill)
  | .len => (be64Byte c.L (c.bc.toNat - 56), .len)

theorem padOp_none {c : Chip} (h : c.padStage = .none) : padOp c = .error .padStageNone := by
  simp [padOp, h]

theorem padOp_appends_padChoice {c c' : Chip} (h : padOp c = .ok c') :
    c.Appended c' c.padChoice.1 c.padChoice.2 := by
  obtain ⟨-, v, ps, happ, hcase⟩ := padOp_eq_ok_cases h
  obtain ⟨hs, rfl, rfl⟩ | ⟨hs, h56, rfl, rfl⟩ | ⟨hs, h56, rfl, rfl⟩ | ⟨hs, -, rfl, rfl⟩ := hcase
  · simpa [Chip.padChoice, hs] using happ
  · simpa [Chip.padChoice, hs, h56] using happ
  · simpa [Chip.padChoice, hs, h56] using happ
  · simpa [Chip.padChoice, hs] using happ

/-- R40's row of PAD is all that PAD needs to answer. -/
theorem Chip.R40.padOp_answers {c : Chip} {m : Nat} (hr : c.R40 m) (hf : c.fsm = .pad) :
    ∃ c', padOp c = .ok c' := by
  obtain ⟨hstage, hbc, -, -, hlen⟩ := hr.pad hf
  exact Machine.padOp_answers hbc (PadStage.ne_none_iff.mpr hstage) fun hs => (hlen hs).1

theorem exec_pad_appends_padChoice {s : State} (hf : s.chip.fsm = .pad)
    (hr : s.chip.R40 s.maxMsgBytes.val) :
    ∃ t, exec .pad s = .next t ∧ s.SameHost t ∧
      s.chip.Appended t.chip s.chip.padChoice.1 s.chip.padChoice.2 := by
  obtain ⟨c, hop⟩ := hr.padOp_answers hf
  exact ⟨s.withChip c, internalStep_of_ok hf hop hr, s.sameHost_withChip c, padOp_appends_padChoice hop⟩

/-- Settles O27: PAD appends what `padChoice` says, and each clause is one row of it. -/
theorem padAppendsPaddingByte : Obligations.PadAppendsPaddingByte := by
  intro s hf
  refine ⟨fun hr hmark => ?_, fun hr hfill h56 => ?_, fun hr hfill h56 => ?_, fun hr hlen => ?_,
    fun hnone => internalStep_of_error hf (padOp_none hnone)⟩
  · simpa [Chip.padChoice, hmark] using exec_pad_appends_padChoice hf hr
  · have hbc : s.chip.bc = 56#7 := BitVec.eq_of_toNat_eq h56
    simpa [Chip.padChoice, hfill, hbc] using exec_pad_appends_padChoice hf hr
  · have hbc : s.chip.bc ≠ 56#7 := fun h => h56 (congrArg BitVec.toNat h)
    simpa [Chip.padChoice, hfill, hbc] using exec_pad_appends_padChoice hf hr
  · simpa [Chip.padChoice, hlen] using exec_pad_appends_padChoice hf hr

theorem loadSchedule_get_low (W : Vector (Option Word) 64) (bytes : Vector Byte 64) (j : Fin 16) :
    (loadSchedule W (blockWords bytes))[j.val] =
      some (bytes[4 * j.val] ++ bytes[4 * j.val + 1] ++ bytes[4 * j.val + 2] ++ bytes[4 * j.val + 3]) := by
  refine (loadSchedule_get W _ ⟨j.val, by omega⟩).trans ?_
  rw [dif_pos j.isLt]
  exact congrArg some (blockWords_get bytes j)

theorem loadSchedule_get_high {W : Vector (Option Word) 64} {block : Vector Word 16} {i : Fin 64}
    (hi : 16 ≤ i.val) : (loadSchedule W block)[i] = W[i] := by
  rw [loadSchedule_get, dif_neg (by omega)]

/-- Settles O28: R40 gives the full block LOAD asks for; the words are read off the loaded schedule. -/
theorem loadParsesBlock : Obligations.LoadParsesBlock := by
  intro s bytes H hf hr hH hB
  obtain ⟨hbc, -⟩ := hr.load hf
  have hop := loadOp_eq_ok_iff.mpr ⟨hbc, bytes, H, hB, hH, rfl⟩
  exact ⟨_, internalStep_of_ok hf hop hr, s.sameHost_withChip _, loadSchedule_get_low s.chip.W bytes,
    fun _ => loadSchedule_get_high, rfl, rfl, rfl, rfl, rfl⟩

theorem lengthField_zero : lengthField 0 = List.replicate 8 0x00 := by decide

/-- Settles O50: 55 zero bytes before a length field of 8 zero bytes. -/
theorem emptyMessagePadsToOneBlock : Obligations.EmptyMessagePadsToOneBlock := by
  refine ⟨?_, rfl⟩
  calc padMessage []
      = 0x80 :: (List.replicate 55 0x00 ++ lengthField 0) := rfl
    _ = 0x80 :: List.replicate 63 0x00 := by rw [lengthField_zero, List.replicate_append_replicate]

end Sys2Proof.Machine
end

section
/-! PROOFS. The message_schedule_expander (spec/41_schedule_expander.md): EXPAND (R133). -/
namespace Sys2Proof.Machine

/-- R40's row of EXPAND bounds the index, so only the four words are left for EXPAND to ask for. -/
theorem Chip.R40.expandOp_of_words {c : Chip} {m : Nat} {w2 w7 w15 w16 : Word} (hr : c.R40 m)
    (hf : c.fsm = .expand) (h2 : c.schedule? (c.t.toNat - 2) = some w2)
    (h7 : c.schedule? (c.t.toNat - 7) = some w7) (h15 : c.schedule? (c.t.toNat - 15) = some w15)
    (h16 : c.schedule? (c.t.toNat - 16) = some w16) :
    expandOp c = .ok { c with
      W := c.W.set c.t.toNat (some (scheduleWord w2 w7 w15 w16)) c.t.isLt
      t := nextCount c.t
      fsm := if c.t = 63#6 then .round else c.fsm } := by
  obtain ⟨-, hlow, -⟩ := hr.expand hf
  exact expandOp_eq_ok_iff.mpr ⟨hlow, w2, w7, w15, w16, h2, h7, h15, h16, rfl⟩

theorem nextCount_of_eq_63 {t : BitVec 6} (h : t = 63#6) : nextCount t = 0#6 := if_pos h

theorem nextCount_of_ne_63 {t : BitVec 6} (h : t ≠ 63#6) : nextCount t = t + 1 := if_neg h

theorem schedule_set_get (W : Vector (Option Word) 64) (t : BitVec 6) (w : Word) (i : Fin 64) :
    (W.set t.toNat (some w) t.isLt)[i] = if i.val = t.toNat then some w else W[i] := by
  simp [Vector.getElem_set, eq_comm]

/-- Settles O29: R40 gives the index EXPAND asks for; word `t` is the one written, and the count wraps
and hands over to ROUND at 63 alone. -/
theorem expandComputesScheduleWord : Obligations.ExpandComputesScheduleWord := by
  intro s w2 w7 w15 w16 hf hr h2 h7 h15 h16
  have hop := hr.expandOp_of_words hf h2 h7 h15 h16
  refine ⟨_, internalStep_of_ok hf hop hr, s.sameHost_withChip _, ?word, ?last, ?more, rfl⟩
  case word => exact schedule_set_get s.chip.W s.chip.t (scheduleWord w2 w7 w15 w16)
  case last => exact fun h63 => ⟨nextCount_of_eq_63 h63, if_pos h63⟩
  case more => exact fun h63 => ⟨nextCount_of_ne_63 h63, (if_neg h63).trans hf⟩

end Sys2Proof.Machine
end

section
/-! PROOFS. The compression_engine (spec/42_compression_engine.md): ROUND (R158) and FINAL (R159). -/
namespace Sys2Proof.Machine

/-- Settles O30: ROUND's registers are `roundWork` of the old ones, field by field; the count wraps and
hands over to FINAL at 63 alone. -/
theorem roundUpdatesWorkingRegisters : Obligations.RoundUpdatesWorkingRegisters := by
  intro s v w hf hr hV hw
  have hop := roundOp_eq_ok_iff.mpr ⟨v, w, hV, hw, rfl⟩
  refine ⟨_, roundWork v (K s.chip.t) w, internalStep_of_ok hf hop hr, s.sameHost_withChip _, rfl,
    rfl, rfl, rfl, rfl, rfl, rfl, rfl, rfl, ?last, ?more, rfl⟩
  case last => exact fun h63 => ⟨nextCount_of_eq_63 h63, if_pos h63⟩
  case more => exact fun h63 => ⟨nextCount_of_ne_63 h63, (if_neg h63).trans hf⟩

theorem addHash_eq_components (H : Vector Word 8) (v : Work) :
    addHash H v = #v[H[0] + v.a, H[1] + v.b, H[2] + v.c, H[3] + v.d,
      H[4] + v.e, H[5] + v.f, H[6] + v.g, H[7] + v.h] := rfl

theorem afterFinal_of_last {last : Bool} {ps : PadStage} (h : last = true) :
    afterFinal last ps = .serialize := if_pos h

theorem afterFinal_of_padding {last : Bool} {ps : PadStage} (h : last = false) (hps : ps ≠ .none) :
    afterFinal last ps = .pad := by
  simp [afterFinal, h, hps]

theorem afterFinal_of_absorbing {last : Bool} {ps : PadStage} (h : last = false) (hps : ps = .none) :
    afterFinal last ps = .absorb := by
  simp [afterFinal, h, hps]

/-- Settles O31: FINAL's hash state is `addHash` word by word, and each choice is one branch of
`afterFinal`. -/
theorem finalAddsAndChooses : Obligations.FinalAddsAndChooses := by
  intro s H v hf hr hH hV
  have hop := finalOp_eq_ok_iff.mpr ⟨H, v, hH, hV, rfl⟩
  exact ⟨_, addHash H v, internalStep_of_ok hf hop hr, s.sameHost_withChip _, rfl,
    addHash_eq_components H v, afterFinal_of_last, afterFinal_of_padding, afterFinal_of_absorbing, rfl⟩

end Sys2Proof.Machine
end

section
/-! PROOFS. The digest_serializer (spec/43_digest_serializer.md): SERIALIZE (R183) and the digits it
renders (R182). -/
namespace Sys2Proof.Machine

theorem nibble_eq_setWidth_shift (x : Word) (j : Nat) :
    nibble x j = (x >>> (28 - 4 * j)).setWidth 4 := by
  refine BitVec.eq_of_toNat_eq ?_
  rw [nibble, BitVec.extractLsb'_toNat, BitVec.toNat_setWidth, BitVec.toNat_ushiftRight]

/-- Character 8k + j is digit j of word k: the quotient and the remainder by 8 are read off. -/
theorem serializeHash_get_digit (H : Vector Word 8) (k j : Fin 8) :
    (serializeHash H)[8 * k.val + j.val] = hexchar (nibble H[k] j.val) := by
  have word : (8 * k.val + j.val) / 8 = k.val := by omega
  have digit : (8 * k.val + j.val) % 8 = j.val := by omega
  refine (serializeHash_get H ⟨8 * k.val + j.val, by omega⟩).trans ?_
  simp only [word, digit, Fin.getElem_fin]

/-- Settles O32: SERIALIZE writes `serializeHash H`, and digit `j` of a word is the word shifted right by
28 - 4j bits, cut to 4. -/
theorem serializeRendersHash : Obligations.SerializeRendersHash := by
  intro s H hf hr hH
  have hop := serializeOp_eq_ok_iff.mpr ⟨H, hH, rfl⟩
  refine ⟨_, serializeHash H, internalStep_of_ok hf hop hr, s.sameHost_withChip _, rfl, ?digits, rfl⟩
  case digits =>
    intro k j
    rw [serializeHash_get_digit, nibble_eq_setWidth_shift]

end Sys2Proof.Machine
end

section
/-! PROOFS. The transition table (spec/43_digest_serializer.md R184): where APPEND and each operation of
the engine leave `fsm`, where an offered word leaves it, and that a step follows the table. -/
namespace Sys2Proof.Machine

theorem Chip.append_fsm {c c' : Chip} {v : Byte} {ps : PadStage} (h : c.append v ps = .ok c') :
    c'.fsm = if c.bc = 63#7 then .load else c.fsm := by
  rw [Chip.append_of_le v ps (Chip.le_of_append_ok h)] at h
  rw [← Except.ok.inj h]

theorem Chip.Appended.fsm_eq {c c' : Chip} {v : Byte} {ps : PadStage} (h : c.Appended c' v ps) :
    c'.fsm = if c.bc = 63#7 then .load else c.fsm := by
  obtain ⟨-, hfull, hroom, -⟩ := h
  split
  case isTrue h63 =>
    obtain ⟨-, hload, -⟩ := hfull h63
    exact hload
  case isFalse h63 =>
    obtain ⟨-, hstay, -⟩ := hroom h63
    exact hstay

/-! The engine's rows of the table. -/

theorem fsmAfterEngine_of_quiescent {c : Chip} (h : c.fsm.quiescent = true) :
    fsmAfterEngine c = c.fsm := by
  cases hf : c.fsm with
  | idle | absorb | done | error => simp [fsmAfterEngine, hf]
  | pad | load | expand | round | final | serialize | unused n =>
    rw [hf] at h
    cases h

section
variable {c c' : Chip}

theorem padOp_fsm (hf : c.fsm = .pad) (h : padOp c = .ok c') : c'.fsm = fsmAfterEngine c := by
  rw [(padOp_appends_padChoice h).fsm_eq]
  simp [fsmAfterEngine, hf]

theorem loadOp_fsm (hf : c.fsm = .load) (h : loadOp c = .ok c') : c'.fsm = fsmAfterEngine c := by
  obtain ⟨-, bytes, H, -, -, rfl⟩ := loadOp_eq_ok_iff.mp h
  simp [fsmAfterEngine, hf]

theorem expandOp_fsm (hf : c.fsm = .expand) (h : expandOp c = .ok c') :
    c'.fsm = fsmAfterEngine c := by
  obtain ⟨-, w2, w7, w15, w16, -, -, -, -, rfl⟩ := expandOp_eq_ok_iff.mp h
  simp [fsmAfterEngine, hf]

theorem roundOp_fsm (hf : c.fsm = .round) (h : roundOp c = .ok c') : c'.fsm = fsmAfterEngine c := by
  obtain ⟨v, w, -, -, rfl⟩ := roundOp_eq_ok_iff.mp h
  simp [fsmAfterEngine, hf]

theorem finalOp_fsm (hf : c.fsm = .final) (h : finalOp c = .ok c') : c'.fsm = fsmAfterEngine c := by
  obtain ⟨H, v, -, -, rfl⟩ := finalOp_eq_ok_iff.mp h
  simp [fsmAfterEngine, hf, afterFinal]

theorem serializeOp_fsm (hf : c.fsm = .serialize) (h : serializeOp c = .ok c') :
    c'.fsm = fsmAfterEngine c := by
  obtain ⟨H, -, rfl⟩ := serializeOp_eq_ok_iff.mp h
  simp [fsmAfterEngine, hf]

end

/-! The host's rows of the table. -/

section
variable {m : Nat} {c : Chip} {w : Cmd}

/-- R201's hold test reads only OP. -/
theorem Chip.cmdReady_of_op (h2 : Cmd.op w ≠ 0x2#4) (h3 : Cmd.op w ≠ 0x3#4) : c.cmdReady w = true := by
  simp [Chip.cmdReady, h2, h3]

theorem Chip.cmdReady_of_not_busy (h : c.busy = false) : c.cmdReady w = true := by
  simp [Chip.cmdReady, h]

theorem fsmAfterOffer_of_held (h : c.cmdReady w = false) : fsmAfterOffer m c w = c.fsm := if_pos h

theorem fsmAfterOffer_of_illegal (hr : c.cmdReady w = true) (hl : legal w = false) :
    fsmAfterOffer m c w = .error := by
  simp [fsmAfterOffer, hr, hl]

theorem fsmAfterOffer_of_reading (hl : legal w = true)
    (ho : Cmd.op w = 0x0#4 ∨ Cmd.op w = 0x4#4 ∨ Cmd.op w = 0x5#4) : fsmAfterOffer m c w = c.fsm := by
  obtain ho | ho | ho := ho <;> simp [fsmAfterOffer, Chip.cmdReady_of_op (w := w), hl, ho]

theorem fsmAfterOffer_start : fsmAfterOffer m c 0x1000#16 = .absorb := by
  obtain ⟨hl, ho⟩ := (legal_and_op_one_iff 0x1000#16).mpr rfl
  simp [fsmAfterOffer, Chip.cmdReady_of_op (w := 0x1000#16), hl, ho]

theorem fsmAfterOffer_of_data (hl : legal w = true) (ho : Cmd.op w = 0x2#4) (hf : c.fsm = .absorb) :
    fsmAfterOffer m c w =
      if c.L.toNat / 8 = m then .error else if c.bc = 63#7 then .load else .absorb := by
  have hr : c.cmdReady w = true := Chip.cmdReady_of_not_busy (by rw [Chip.busy, hf]; rfl)
  simp [fsmAfterOffer, hr, hl, ho, hf]

theorem fsmAfterOffer_of_end (hl : legal w = true) (ho : Cmd.op w = 0x3#4) (hf : c.fsm = .absorb) :
    fsmAfterOffer m c w = .pad := by
  have hr : c.cmdReady w = true := Chip.cmdReady_of_not_busy (by rw [Chip.busy, hf]; rfl)
  simp [fsmAfterOffer, hr, hl, ho, hf]

theorem fsmAfterOffer_of_sequence_error (hl : legal w = true)
    (ho : Cmd.op w = 0x2#4 ∨ Cmd.op w = 0x3#4) (hf : c.fsm = .idle ∨ c.fsm = .done ∨ c.fsm = .error) :
    fsmAfterOffer m c w = .error := by
  have hr : c.cmdReady w = true := by
    refine Chip.cmdReady_of_not_busy ?_
    obtain hf | hf | hf := hf <;> (rw [Chip.busy, hf]; rfl)
  have ha : c.fsm ≠ .absorb := by
    obtain hf | hf | hf := hf <;> simp [hf]
  obtain ho | ho := ho <;> simp [fsmAfterOffer, hr, hl, ho, ha]

end

/-- The host's step follows the table: one case of `exec_offered_cases` per row. -/
theorem exec_offered_fsm {s t : State} {w : Cmd} (h : exec (decodeCmd w) s = .next t) :
    t.chip.fsm = fsmAfterOffer s.maxMsgBytes.val s.chip w := by
  obtain ⟨hl, hr, rfl⟩ | ⟨-, hr, rfl⟩ | ⟨hl, ho, r, rfl⟩ | ⟨rfl, rfl⟩ | ⟨hl, ho, hf, hm, rfl⟩ |
    ⟨hl, ho, hf, hm, c, happ, rfl⟩ | ⟨hl, ho, hf, rfl⟩ | ⟨hl, ho, hf, rfl⟩ | ⟨-, ho, hb, rfl⟩ :=
    exec_offered_cases h
  · simp [fsmAfterOffer_of_illegal hr hl]
  · exact (fsmAfterOffer_of_held hr).symm
  · exact (fsmAfterOffer_of_reading hl ho).symm
  · exact fsmAfterOffer_start.symm
  · simp [fsmAfterOffer_of_data hl ho hf, hm]
  · simp [fsmAfterOffer_of_data hl ho hf, hm, Chip.append_fsm happ, hf]
  · exact (fsmAfterOffer_of_end hl ho hf).symm
  · simp [fsmAfterOffer_of_sequence_error hl ho hf]
  · exact (fsmAfterOffer_of_held (Chip.cmdReady_eq_false_iff.mpr ⟨ho, hb⟩)).symm

/-! The table for a step, by whose turn it is. -/

theorem fsmAfterStep_of_reset {s : State} (h : s.nextTurn = .reset) : fsmAfterStep s = .idle := by
  simp [fsmAfterStep, h]

theorem fsmAfterStep_of_engine {s : State} (h : s.nextTurn = .engine) :
    fsmAfterStep s = fsmAfterEngine s.chip := by
  simp [fsmAfterStep, h]

theorem fsmAfterStep_of_host_nil {s : State} (h : s.nextTurn = .host) (ho : s.offers = []) :
    fsmAfterStep s = s.chip.fsm := by
  simp [fsmAfterStep, h, ho]

theorem fsmAfterStep_of_host_cons {s : State} {w : Cmd} {ws : List Cmd} (h : s.nextTurn = .host)
    (ho : s.offers = w :: ws) : fsmAfterStep s = fsmAfterOffer s.maxMsgBytes.val s.chip w := by
  simp [fsmAfterStep, h, ho]

/-- Settles O39: each way a step can answer is one row of the table, or leaves the chip as it is. -/
theorem stepFollowsTransitionTable : Obligations.StepFollowsTransitionTable := by
  intro s t h
  obtain ⟨hu, rfl⟩ | ⟨hu, ho, rfl⟩ | ⟨hu, w, ws, ho, hx⟩ | ⟨hu, hq, rfl⟩ | ⟨hu, hf, c, hc, rfl⟩ |
    ⟨hu, hf, c, hc, rfl⟩ | ⟨hu, hf, c, hc, rfl⟩ | ⟨hu, hf, c, hc, rfl⟩ | ⟨hu, hf, c, hc, rfl⟩ |
    ⟨hu, hf, c, hc, rfl⟩ := step_eq_next_cases h
  · exact (fsmAfterStep_of_reset hu).symm
  · exact (fsmAfterStep_of_host_nil hu ho).symm
  · exact (exec_offered_fsm hx).trans (fsmAfterStep_of_host_cons hu ho).symm
  all_goals rw [fsmAfterStep_of_engine hu]
  · exact (fsmAfterEngine_of_quiescent hq).symm
  · exact padOp_fsm hf hc
  · exact loadOp_fsm hf hc
  · exact expandOp_fsm hf hc
  · exact roundOp_fsm hf hc
  · exact finalOp_fsm hf hc
  · exact serializeOp_fsm hf hc

end Sys2Proof.Machine
end

section
/-! PROOFS. The host commands that answer in every state of R87's table (spec/44_host_commands.md): NOP
(R203), START (R204), RDSTAT (R207), RDHEX (R208) and ILLEGAL (R209). -/
namespace Sys2Proof.Machine

theorem State.acceptedWith_accept (s : State) (c : Chip) (r : Resp) :
    s.AcceptedWith (s.accept c r) r := ⟨rfl, rfl, rfl, rfl⟩

theorem State.acceptedWith_ackResp (s : State) (c : Chip) :
    s.AcceptedWith (s.accept c ackResp) 0x8000#16 := ackResp_eq ▸ s.acceptedWith_accept c ackResp

theorem State.acceptedWith_valueResp (s : State) (c : Chip) (v : Byte) :
    s.AcceptedWith (s.accept c (valueResp v)) (0xC000#16 ||| v.setWidth 16) :=
  valueResp_eq v ▸ s.acceptedWith_accept c (valueResp v)

/-! What START leaves in the outputs that have no storage. -/

@[simp] theorem Chip.openJob_status (c : Chip) : c.openJob.status = 0x01#8 := by
  simp [Chip.status, Chip.busy, Fsm.busy]

@[simp] theorem Chip.openJob_irq (c : Chip) : c.openJob.irq = false := rfl

/-! What each command answers. -/

theorem Chip.readDigest_of_some {c : Chip} {d : Vector Byte 64} (h : c.DIG = some d) (i : BitVec 6) :
    c.readDigest i = .ok (d[i.toNat]'i.isLt) := by
  simp [Chip.readDigest, h]

section
variable {s : State}

theorem execNop_of_used (h : ∀ n, s.chip.fsm ≠ .unused n) :
    execNop s = .next (s.accept s.chip ackResp) := unlessUnused_of_used h

theorem execStart_of_used (h : ∀ n, s.chip.fsm ≠ .unused n) :
    execStart s = .next (s.accept s.chip.openJob ackResp) := unlessUnused_of_used h

theorem execRdstat_of_used (h : ∀ n, s.chip.fsm ≠ .unused n) :
    execRdstat s = .next (s.accept s.chip (valueResp s.chip.status)) := unlessUnused_of_used h

theorem execRdhex_of_done {d : Vector Byte 64} (hf : s.chip.fsm = .done) (hd : s.chip.DIG = some d)
    (i : BitVec 6) : execRdhex i s = .next (s.accept s.chip (valueResp (d[i.toNat]'i.isLt))) := by
  simp [execRdhex, hf, Chip.readDigest_of_some hd]

theorem execRdhex_of_not_done (h : ∀ n, s.chip.fsm ≠ .unused n) (hf : s.chip.fsm ≠ .done)
    (i : BitVec 6) : execRdhex i s = .next (s.accept s.chip ackResp) := by
  rw [execRdhex, if_neg hf, unlessUnused_of_used h]

theorem execIllegal_of_ready {w : Cmd} (h : ∀ n, s.chip.fsm ≠ .unused n)
    (hr : s.chip.cmdReady w = true) :
    execIllegal w s = .next (s.accept (s.chip.raise .input) ackResp) := by
  rw [execIllegal, if_pos hr, unlessUnused_of_used h]

theorem execIllegal_of_held {w : Cmd} (hr : s.chip.cmdReady w = false) :
    execIllegal w s = .next s := by
  simp [execIllegal, hr]

end

/-- Settles O15: NOP is accepted with the chip as it was. -/
theorem nopLeavesChipUnchanged : Obligations.NopLeavesChipUnchanged :=
  fun s h => ⟨_, execNop_of_used h, rfl, s.acceptedWith_ackResp s.chip⟩

/-- Settles O16: START is accepted with the chip `openJob` leaves, whose fields and outputs are read off. -/
theorem startOpensFreshJob : Obligations.StartOpensFreshJob := by
  intro s h
  refine ⟨_, IV, execStart_of_used h, s.acceptedWith_ackResp s.chip.openJob, ?fields⟩
  case fields => simp

/-- Settles O19: RDSTAT is accepted with STATUS of the chip as it was. -/
theorem rdstatReturnsStatus : Obligations.RdstatReturnsStatus :=
  fun s h => ⟨_, execRdstat_of_used h, rfl, s.acceptedWith_valueResp s.chip s.chip.status⟩

/-- Settles O20: the two answers of RDHEX, in DONE and elsewhere. -/
theorem rdhexReturnsCharacter : Obligations.RdhexReturnsCharacter := by
  intro s i h
  refine ⟨fun d hf hd => ?done, fun hf => ?elsewhere⟩
  case done => exact ⟨_, execRdhex_of_done hf hd i, rfl, s.acceptedWith_valueResp s.chip _⟩
  case elsewhere => exact ⟨_, execRdhex_of_not_done h hf i, rfl, s.acceptedWith_ackResp s.chip⟩

/-- Settles O21: an illegal word is accepted with error entry, or held. -/
theorem illegalRaisesInputError : Obligations.IllegalRaisesInputError := by
  intro s w _ h
  refine ⟨fun hr => ?accepted, fun hr => ?held⟩
  case accepted =>
    exact ⟨_, execIllegal_of_ready h hr, s.acceptedWith_ackResp (s.chip.raise .input), rfl⟩
  case held => exact execIllegal_of_held hr

end Sys2Proof.Machine
end

section
/-! PROOFS. The three error kinds (spec/60_exceptions.md): SeqError (R234), LengthLimitError (R233) and
the order in which an accepted word raises at most one (R237). -/
namespace Sys2Proof.Machine

/-! DATA and END are the two sequenced commands, so one argument serves both. -/

theorem exec_eq_sequencedStep (s : State) {i : Instr} (hi : i = .endMsg ∨ ∃ b, i = .data b) :
    ∃ act, exec i s = sequencedStep act s := by
  obtain rfl | ⟨b, rfl⟩ := hi
  · exact ⟨endAbsorb, rfl⟩
  · exact ⟨dataAbsorb s.maxMsgBytes.val b, rfl⟩

section
variable {act : Chip → Except Fault Chip} {s : State}

theorem sequencedStep_of_absorb {c : Chip} (hf : s.chip.fsm = .absorb) (ha : act s.chip = .ok c) :
    sequencedStep act s = .next (s.accept c ackResp) :=
  sequencedStep_eq_next_iff.mpr (.inl ⟨hf, c, ha, rfl⟩)

theorem sequencedStep_of_sequence_error
    (hf : s.chip.fsm = .idle ∨ s.chip.fsm = .done ∨ s.chip.fsm = .error) :
    sequencedStep act s = .next (s.accept (s.chip.raise .seq) ackResp) :=
  sequencedStep_eq_next_iff.mpr (.inr (.inl ⟨hf, rfl⟩))

theorem sequencedStep_of_busy (hb : s.chip.busy = true) : sequencedStep act s = .next s :=
  sequencedStep_eq_next_iff.mpr (.inr (.inr ⟨hb, rfl⟩))

end

/-- Settles O22: outside ABSORB what DATA and END would do there is not asked; they raise SeqError or
are held. -/
theorem outOfSequenceRaisesSeqError : Obligations.OutOfSequenceRaisesSeqError := by
  intro s i hi
  obtain ⟨act, hexec⟩ := exec_eq_sequencedStep s hi
  rw [hexec]
  refine ⟨fun hf => ?outside, fun hb => ?held⟩
  case outside =>
    exact ⟨_, sequencedStep_of_sequence_error hf, s.acceptedWith_ackResp (s.chip.raise .seq), rfl⟩
  case held => exact sequencedStep_of_busy hb

theorem dataAbsorb_of_limit {m : Nat} {c : Chip} (hm : c.L.toNat / 8 = m) (b : Byte) :
    dataAbsorb m b c = .ok (c.raise .lengthLimit) := if_pos hm

/-- Settles O23: the length check comes before APPEND, so the byte is not stored. -/
theorem dataAtLimitRaisesLengthError : Obligations.DataAtLimitRaisesLengthError :=
  fun s b hf hm => ⟨_, sequencedStep_of_absorb hf (dataAbsorb_of_limit hm b),
    s.acceptedWith_ackResp (s.chip.raise .lengthLimit), rfl⟩

/-! Held words. -/

theorem decodeCmd_of_legal_of_sequenced {w : Cmd} (hl : legal w = true)
    (ho : Cmd.op w = 0x2#4 ∨ Cmd.op w = 0x3#4) :
    decodeCmd w = .endMsg ∨ ∃ b, decodeCmd w = .data b := by
  obtain ho | ho := ho <;> simp [decodeCmd, hl, ho]

/-- A held word has DATA's or END's OP while busy: it is illegal and held, or one of those two commands. -/
theorem exec_offered_of_held {s : State} {w : Cmd} (hr : s.chip.cmdReady w = false) :
    exec (decodeCmd w) s = .next s := by
  obtain ⟨hop, hb⟩ := Chip.cmdReady_eq_false_iff.mp hr
  cases hl : legal w with
  | false =>
    rw [decodeCmd_of_not_legal hl]
    exact execIllegal_of_held hr
  | true =>
    obtain ⟨act, hexec⟩ := exec_eq_sequencedStep s (decodeCmd_of_legal_of_sequenced hl hop)
    exact hexec.trans (sequencedStep_of_busy hb)

/-! The order of R237. -/

/-- Every error flag set in `c'` is set in `c`. -/
def Chip.NoFlagRises (c c' : Chip) : Prop :=
  (c'.errInput = true → c.errInput = true) ∧ (c'.errLength = true → c.errLength = true) ∧
    (c'.errSeq = true → c.errSeq = true)

theorem Chip.noFlagRises_of_flags_eq {c c' : Chip} (hi : c'.errInput = c.errInput)
    (hlen : c'.errLength = c.errLength) (hs : c'.errSeq = c.errSeq) : c.NoFlagRises c' :=
  ⟨fun h => hi ▸ h, fun h => hlen ▸ h, fun h => hs ▸ h⟩

theorem Chip.noFlagRises_openJob (c : Chip) : c.NoFlagRises c.openJob := by
  simp [Chip.NoFlagRises]

theorem Chip.noFlagRises_append {c c' : Chip} {v : Byte} {ps : PadStage}
    (h : c.append v ps = .ok c') : c.NoFlagRises c' := by
  rw [Chip.append_of_le v ps (Chip.le_of_append_ok h)] at h
  rw [← Except.ok.inj h]
  exact Chip.noFlagRises_of_flags_eq rfl rfl rfl

/-- R237 for an accepted word `w` that takes the chip from `c` to `c'`: the first error that applies is
raised, and without one no flag rises. -/
def Chip.RaisesFirstError (maxBytes : Nat) (w : Cmd) (c c' : Chip) : Prop :=
  if legal w = false then c' = c.raise .input
  else if (Cmd.op w = 0x2#4 ∨ Cmd.op w = 0x3#4) ∧ c.fsm ≠ .absorb then c' = c.raise .seq
  else if Cmd.op w = 0x2#4 ∧ c.L.toNat / 8 = maxBytes then c' = c.raise .lengthLimit
  else c.NoFlagRises c'

section
variable {m : Nat} {w : Cmd} {c c' : Chip}

theorem Chip.raisesFirstError_of_illegal (hl : legal w = false) :
    c.RaisesFirstError m w (c.raise .input) := by
  simp [Chip.RaisesFirstError, hl]

theorem Chip.raisesFirstError_of_sequence (hl : legal w = true)
    (ho : Cmd.op w = 0x2#4 ∨ Cmd.op w = 0x3#4) (hf : c.fsm ≠ .absorb) :
    c.RaisesFirstError m w (c.raise .seq) := by
  simp [Chip.RaisesFirstError, hl, ho, hf]

theorem Chip.raisesFirstError_of_limit (hl : legal w = true) (ho : Cmd.op w = 0x2#4)
    (hf : c.fsm = .absorb) (hm : c.L.toNat / 8 = m) :
    c.RaisesFirstError m w (c.raise .lengthLimit) := by
  simp [Chip.RaisesFirstError, hl, ho, hf, hm]

theorem Chip.raisesFirstError_of_none (hl : legal w = true)
    (hseq : Cmd.op w = 0x2#4 ∨ Cmd.op w = 0x3#4 → c.fsm = .absorb)
    (hlim : Cmd.op w = 0x2#4 → c.L.toNat / 8 ≠ m) (hflags : c.NoFlagRises c') :
    c.RaisesFirstError m w c' := by
  have noSeq : ¬ ((Cmd.op w = 0x2#4 ∨ Cmd.op w = 0x3#4) ∧ c.fsm ≠ .absorb) :=
    fun ⟨ho, hf⟩ => hf (hseq ho)
  have noLimit : ¬ (Cmd.op w = 0x2#4 ∧ c.L.toNat / 8 = m) := fun ⟨ho, hm⟩ => hlim ho hm
  rw [Chip.RaisesFirstError, if_neg (by simp [hl]), if_neg noSeq, if_neg noLimit]
  exact hflags

theorem Chip.raisesFirstError_of_other_op (hl : legal w = true) (h2 : Cmd.op w ≠ 0x2#4)
    (h3 : Cmd.op w ≠ 0x3#4) (hflags : c.NoFlagRises c') : c.RaisesFirstError m w c' :=
  Chip.raisesFirstError_of_none hl (fun ho => absurd ho (not_or.mpr ⟨h2, h3⟩))
    (fun ho => absurd ho h2) hflags

end

/-- R237, one case of `exec_offered_cases` per branch; the two held cases are not ready. -/
theorem exec_offered_raisesFirstError {s t : State} {w : Cmd} (h : exec (decodeCmd w) s = .next t)
    (hr : s.chip.cmdReady w = true) :
    s.chip.RaisesFirstError s.maxMsgBytes.val w t.chip := by
  obtain ⟨hl, -, rfl⟩ | ⟨-, hheld, -⟩ | ⟨hl, ho, r, rfl⟩ | ⟨rfl, rfl⟩ | ⟨hl, ho, hf, hm, rfl⟩ |
    ⟨hl, ho, hf, hm, c, happ, rfl⟩ | ⟨hl, ho, hf, rfl⟩ | ⟨hl, ho, hf, rfl⟩ | ⟨-, ho, hb, -⟩ :=
    exec_offered_cases h
  · exact Chip.raisesFirstError_of_illegal hl
  · simp [hheld] at hr
  · have ⟨h2, h3⟩ : Cmd.op w ≠ 0x2#4 ∧ Cmd.op w ≠ 0x3#4 := by
      obtain ho | ho | ho := ho <;> simp [ho]
    exact Chip.raisesFirstError_of_other_op hl h2 h3 (Chip.noFlagRises_of_flags_eq rfl rfl rfl)
  · exact Chip.raisesFirstError_of_other_op (by decide) (by decide) (by decide)
      s.chip.noFlagRises_openJob
  · exact Chip.raisesFirstError_of_limit hl ho hf hm
  · exact Chip.raisesFirstError_of_none hl (fun _ => hf) (fun _ => hm)
      (Chip.noFlagRises_append (c := { s.chip with L := s.chip.L + 8 }) happ)
  · exact Chip.raisesFirstError_of_none hl (fun _ => hf) (by simp [ho])
      (Chip.noFlagRises_of_flags_eq rfl rfl rfl)
  · exact Chip.raisesFirstError_of_sequence hl ho (by obtain hf | hf | hf := hf <;> simp [hf])
  · simp [Chip.cmdReady_eq_false_iff.mpr ⟨ho, hb⟩] at hr

/-- Settles O24: a held word changes nothing, and an accepted one follows `Chip.RaisesFirstError`. -/
theorem errorPriorityOfAcceptedWord : Obligations.ErrorPriorityOfAcceptedWord := by
  intro s t w h
  refine ⟨fun hr => ?held, fun hr => ?accepted⟩
  case held => exact (Host.Outcome.next.inj ((exec_offered_of_held hr).symm.trans h)).symm
  case accepted => exact exec_offered_raisesFirstError h hr

end Sys2Proof.Machine
end

section
/-! PROOFS. The reset input (spec/70_reset_and_hazards.md R260). -/
namespace Sys2Proof.Machine

theorem Chip.reset_W_get (i : Fin 64) : Chip.reset.W[i] = none := Vector.getElem_replicate i.isLt

theorem Chip.reset_B_get (i : Fin 64) : Chip.reset.B[i] = none := Vector.getElem_replicate i.isLt

/-- Settles O13: a reset step puts `Chip.reset` in place of the chip, whatever the chip held, and only
ends the turn on the host's side. -/
theorem resetClearsEveryElement : Obligations.ResetClearsEveryElement := by
  intro s h
  refine ⟨s.endTurn.withChip Chip.reset, step_of_reset h, rfl, rfl, rfl, rfl, rfl, rfl, rfl, rfl, rfl,
    rfl, rfl, ?schedule, ?block, rfl, rfl, rfl, rfl, rfl⟩
  case schedule => exact Chip.reset_W_get
  case block => exact Chip.reset_B_get

end Sys2Proof.Machine
end

section
/-! PROOFS. The two formats of spec/30_encoding.md: the fields of an encoded command word (R80), the
round trip in both directions (R81, R87), the words that are not legal (R83, R84) and the lines of a host
program (R90, R91). -/
namespace Sys2Proof

/-- The fields of an encoded word do not overlap. -/
theorem toNat_cmdWord (op : BitVec 4) (arg : Byte) :
    (cmdWord op arg).toNat = op.toNat * 2 ^ 12 + arg.toNat := by
  calc (cmdWord op arg).toNat
      = (op.toNat * 2 ^ 4 + (0#4).toNat) * 2 ^ 8 + arg.toNat := by
        simp only [cmdWord, Machine.toNat_append_eq_add]
    _ = op.toNat * 2 ^ 12 + arg.toNat := by rw [BitVec.toNat_zero]; ring

@[simp] theorem Cmd.op_cmdWord (op : BitVec 4) (arg : Byte) : Cmd.op (cmdWord op arg) = op := by
  refine BitVec.eq_of_toNat_eq ?_
  rw [Cmd.op, BitVec.extractLsb'_toNat, toNat_cmdWord, Nat.shiftRight_eq_div_pow]
  omega

@[simp] theorem Cmd.rsv_cmdWord (op : BitVec 4) (arg : Byte) : Cmd.rsv (cmdWord op arg) = 0#4 := by
  refine BitVec.eq_of_toNat_eq ?_
  rw [Cmd.rsv, BitVec.extractLsb'_toNat, toNat_cmdWord, Nat.shiftRight_eq_div_pow, BitVec.toNat_zero]
  omega

@[simp] theorem Cmd.arg_cmdWord (op : BitVec 4) (arg : Byte) : Cmd.arg (cmdWord op arg) = arg := by
  refine BitVec.eq_of_toNat_eq ?_
  rw [Cmd.arg, BitVec.extractLsb'_toNat, toNat_cmdWord, Nat.shiftRight_zero]
  omega

/-- A legal word is `cmdWord` of its OP and ARG. -/
theorem Cmd.eq_cmdWord_of_legal {w : Cmd} (h : legal w = true) : w = cmdWord (Cmd.op w) (Cmd.arg w) := by
  obtain ⟨-, hrsv, -⟩ := (legal_iff w).mp h
  have := Cmd.eq_fields w
  rwa [hrsv] at this

theorem legal_cmdWord_iff (op : BitVec 4) (arg : Byte) :
    legal (cmdWord op arg) = true ↔ op.toNat ≤ 5 ∧
      ((op = 0x0#4 ∨ op = 0x1#4 ∨ op = 0x3#4 ∨ op = 0x4#4) → arg = 0#8) ∧ (op = 0x5#4 → arg.toNat ≤ 0x3F) := by
  simp [legal_iff]

/-! What each legal word decodes to. -/

theorem decodeCmd_nop : decodeCmd (cmdWord 0x0#4 0#8) = .nop := by decide

theorem decodeCmd_start : decodeCmd (cmdWord 0x1#4 0#8) = .start := by decide

theorem decodeCmd_data (b : Byte) : decodeCmd (cmdWord 0x2#4 b) = .data b := by
  have hl : legal (cmdWord 0x2#4 b) = true := (legal_cmdWord_iff _ _).mpr (by simp)
  simp [decodeCmd, hl]

theorem decodeCmd_endMsg : decodeCmd (cmdWord 0x3#4 0#8) = .endMsg := by decide

theorem decodeCmd_rdstat : decodeCmd (cmdWord 0x4#4 0#8) = .rdstat := by decide

theorem toNat_index (i : BitVec 6) : (0#2 ++ i : Byte).toNat = i.toNat :=
  (Machine.toNat_append_eq_add 0#2 i).trans (by simp)

theorem decodeCmd_rdhex (i : BitVec 6) : decodeCmd (cmdWord 0x5#4 (0#2 ++ i)) = .rdhex i := by
  have hi : (0#2 ++ i : Byte).toNat ≤ 0x3F := by rw [toNat_index]; have := i.isLt; omega
  have hl : legal (cmdWord 0x5#4 (0#2 ++ i)) = true :=
    (legal_cmdWord_iff _ _).mpr ⟨by decide, by simp, fun _ => hi⟩
  have index : (0#2 ++ i : Byte).extractLsb' 0 6 = i := BitVec.extractLsb'_append_eq_right
  simp [decodeCmd, hl, index]

/-- Settles O1: each constructor by the lemma on its own word; an ill-formed ILLEGAL is excluded. -/
theorem encodeDecodeRoundTrip : Obligations.EncodeDecodeRoundTrip := by
  intro i hwf
  cases i with
  | nop => exact congrArg _ decodeCmd_nop
  | start => exact congrArg _ decodeCmd_start
  | data b => exact congrArg _ (decodeCmd_data b)
  | endMsg => exact congrArg _ decodeCmd_endMsg
  | rdstat => exact congrArg _ decodeCmd_rdstat
  | rdhex i => exact congrArg _ (decodeCmd_rdhex i)
  | illegal w =>
    have hl : legal w = false := by simpa [Instr.wellFormed] using hwf
    exact congrArg _ (decodeCmd_of_not_legal hl)
  | pad | load | expand | round | final | serialize => rfl

/-! The other direction. -/

/-- A legal ARG of RDHEX has its upper two bits 0. -/
theorem index_of_le {arg : Byte} (h : arg.toNat ≤ 0x3F) : 0#2 ++ arg.extractLsb' 0 6 = arg := by
  refine BitVec.eq_of_toNat_eq ?_
  rw [toNat_index, BitVec.extractLsb'_toNat, Nat.shiftRight_zero, Nat.mod_eq_of_lt (by omega)]

theorem encode_decodeCmd (w : Cmd) : (decodeCmd w).wellFormed = true ∧ encode (decodeCmd w) = .cmd w := by
  cases hl : legal w with
  | false => simp [decodeCmd_of_not_legal hl, Instr.wellFormed, hl, encode]
  | true =>
    obtain ⟨-, -, hzero, hindex⟩ := (legal_iff w).mp hl
    have hw := Cmd.eq_cmdWord_of_legal hl
    obtain ⟨ho, hd⟩ | ⟨ho, hd⟩ | ⟨ho, hd⟩ | ⟨ho, hd⟩ | ⟨ho, hd⟩ | ⟨ho, hd⟩ := decodeCmd_of_legal hl <;>
      rw [hd] <;> refine ⟨rfl, congrArg Code.cmd ?_⟩ <;> conv_rhs => rw [hw, ho]
    · rw [hzero (by simp [ho])]
    · rw [hzero (by simp [ho])]
    · rw [hzero (by simp [ho])]
    · rw [hzero (by simp [ho])]
    · rw [index_of_le (hindex ho)]

theorem encode_decodeFsm {c : BitVec 4} {i : Instr} (h : decodeFsm c = .ok i) :
    i.wellFormed = true ∧ encode i = .fsm c := by
  revert h
  unfold decodeFsm
  split_ifs with h2 h3 h4 h5 h6 h7 <;> intro h <;> cases h <;> exact ⟨rfl, by simp [encode, *]⟩

/-- Settles O2: by the format of the code. -/
theorem decodedCodeIsItsEncoding : Obligations.DecodedCodeIsItsEncoding := by
  intro k i h
  cases k with
  | cmd w =>
    obtain rfl : decodeCmd w = i := Except.ok.inj h
    exact encode_decodeCmd w
  | fsm c => exact encode_decodeFsm h

/-- Settles O5: one evaluation per word. -/
theorem sampleWordsDecode : Obligations.SampleWordsDecode := by
  unfold Obligations.SampleWordsDecode
  decide

/-! The table's words as the host's programs and R81 write them. -/

/-- OP in the upper four bits and ARG in the lower eight do not overlap. -/
theorem data_word_eq (b : Byte) : 0x2000#16 ||| b.setWidth 16 = cmdWord 0x2#4 b := by
  revert b; decide

theorem rdhex_word_eq (i : Byte) : 0x5000#16 ||| i.setWidth 16 = cmdWord 0x5#4 i := by
  revert i; decide

theorem decodeCmd_eq_illegal_iff {w : Cmd} : decodeCmd w = .illegal w ↔ legal w = false := by
  refine ⟨fun h => ?_, decodeCmd_of_not_legal⟩
  have hwf := (encode_decodeCmd w).1
  simpa [h, Instr.wellFormed] using hwf

/-- The legal words of R84, listed. -/
theorem legal_iff_listed (w : Cmd) :
    legal w = true ↔ w = 0x0000#16 ∨ w = 0x1000#16 ∨ (∃ b : Byte, w = 0x2000#16 ||| b.setWidth 16) ∨
      w = 0x3000#16 ∨ w = 0x4000#16 ∨ ∃ i : Byte, i.toNat ≤ 0x3F ∧ w = 0x5000#16 ||| i.setWidth 16 := by
  constructor
  · intro hl
    obtain ⟨-, -, -, hindex⟩ := (legal_iff w).mp hl
    have hw := Cmd.eq_cmdWord_of_legal hl
    obtain ho | ho | ho | ho | ho | ho := Cmd.op_of_legal hl
    · have := Cmd.eq_of_legal_of_op hl (by simp [ho])
      exact .inl (by rwa [ho] at this)
    · have := Cmd.eq_of_legal_of_op hl (by simp [ho])
      exact .inr (.inl (by rwa [ho] at this))
    · exact .inr (.inr (.inl ⟨Cmd.arg w, by rw [data_word_eq, ← ho, ← hw]⟩))
    · have := Cmd.eq_of_legal_of_op hl (by simp [ho])
      exact .inr (.inr (.inr (.inl (by rwa [ho] at this))))
    · have := Cmd.eq_of_legal_of_op hl (by simp [ho])
      exact .inr (.inr (.inr (.inr (.inl (by rwa [ho] at this)))))
    · exact .inr (.inr (.inr (.inr (.inr ⟨Cmd.arg w, hindex ho, by rw [rdhex_word_eq, ← ho, ← hw]⟩))))
  · rintro (rfl | rfl | ⟨b, rfl⟩ | rfl | rfl | ⟨i, hi, rfl⟩)
    · decide
    · decide
    · rw [data_word_eq]; exact (legal_cmdWord_iff _ _).mpr (by simp)
    · decide
    · decide
    · rw [rdhex_word_eq]; exact (legal_cmdWord_iff _ _).mpr ⟨by decide, by simp, fun _ => hi⟩

/-- Settles O3: decoding answers ILLEGAL for the words that are not legal, and those are listed. -/
theorem illegalIsEveryOtherWord : Obligations.IllegalIsEveryOtherWord :=
  fun w => by rw [decodeCmd_eq_illegal_iff, ← legal_iff_listed, Bool.not_eq_true]

end Sys2Proof

namespace Sys2Proof.Machine

theorem decodeCmd_msgWords (m : List Byte) : (msgWords m).map decodeCmd = m.map Instr.data := by
  simp [msgWords, data_word_eq, decodeCmd_data]

theorem decodeCmd_hashWords (m : List Byte) :
    (hashWords m).map decodeCmd = .start :: m.map Instr.data ++ [.endMsg] := by
  calc (hashWords m).map decodeCmd
      = decodeCmd 0x1000#16 :: (msgWords m).map decodeCmd ++ [decodeCmd 0x3000#16] := by simp [hashWords]
    _ = .start :: m.map Instr.data ++ [.endMsg] := by rw [decodeCmd_msgWords]; rfl

theorem decodeCmd_readDigestWords :
    readDigestWords.map decodeCmd = (List.range 64).map fun i => Instr.rdhex (BitVec.ofNat 6 i) := by
  decide

theorem decodeCmd_rdhex_word (i : BitVec 6) : decodeCmd (0x5000#16 ||| i.setWidth 16) = .rdhex i := by
  revert i; decide

/-- Settles O6: each kind of line by the lemma on its words. -/
theorem assembledLinesDecode : Obligations.AssembledLinesDecode :=
  ⟨decodeCmd_msgWords, decodeCmd_hashWords, decodeCmd_readDigestWords, fun b => decodeCmd_msgWords [b],
    fun i => congrArg (fun x => [x]) (decodeCmd_rdhex_word i), fun _ => rfl⟩

end Sys2Proof.Machine
end

section
/-! PROOFS. The engine's step as one operation on the chip (spec/43_digest_serializer.md R185): the operation
`fsm` selects, the step in terms of it, and a step inverted by whose turn it is. -/
namespace Sys2Proof.Machine

theorem Fsm.quiescent_iff (f : Fsm) :
    f.quiescent = true ↔ f = .idle ∨ f = .absorb ∨ f = .done ∨ f = .error := by
  cases f <;> simp [Fsm.quiescent]

/-- What the engine's step does to the chip (R185): the operation of the state, and nothing where the engine
is quiescent. -/
def Chip.operation (c : Chip) : Except Fault Chip :=
  match c.fsm with
  | .pad => padOp c
  | .load => loadOp c
  | .expand => expandOp c
  | .round => roundOp c
  | .final => finalOp c
  | .serialize => serializeOp c
  | .idle | .absorb | .done | .error => .ok c
  | .unused n => .error (.unusedFsm n)

/-- In a state that meets R40's table the engine's step is its operation. -/
theorem step_of_operation {s : State} {c : Chip} (hu : s.nextTurn = .engine)
    (hr : s.chip.R40 s.maxMsgBytes.val) (hop : s.chip.operation = .ok c) :
    step s = .next (s.endTurn.withChip c) := by
  cases hf : s.chip.fsm with simp only [Chip.operation, hf] at hop
  | idle | absorb | done | error =>
    obtain rfl := Except.ok.inj hop
    exact step_of_engine_quiescent hu (by rw [hf]; rfl)
  | pad => exact (step_of_engine_pad hu hf).trans (internalStep_of_ok (s := s.endTurn) hf hop hr)
  | load => exact (step_of_engine_load hu hf).trans (internalStep_of_ok (s := s.endTurn) hf hop hr)
  | expand => exact (step_of_engine_expand hu hf).trans (internalStep_of_ok (s := s.endTurn) hf hop hr)
  | round => exact (step_of_engine_round hu hf).trans (internalStep_of_ok (s := s.endTurn) hf hop hr)
  | final => exact (step_of_engine_final hu hf).trans (internalStep_of_ok (s := s.endTurn) hf hop hr)
  | serialize => exact (step_of_engine_serialize hu hf).trans (internalStep_of_ok (s := s.endTurn) hf hop hr)
  | unused n => cases hop

/-- A step, inverted, with the engine's operation in place of the six cases. -/
theorem step_eq_next_agents {s t : State} (h : step s = .next t) :
    (s.nextTurn = .reset ∧ t = s.endTurn.withChip Chip.reset) ∨
    (s.nextTurn = .host ∧ s.offers = [] ∧ t = s.endTurn) ∨
    (s.nextTurn = .host ∧ ∃ w ws, s.offers = w :: ws ∧ exec (decodeCmd w) s.endTurn = .next t) ∨
    (s.nextTurn = .engine ∧ ∃ c, s.chip.operation = .ok c ∧ t = s.endTurn.withChip c) := by
  obtain hc | hc | hc | ⟨hu, hq, rfl⟩ | ⟨hu, hf, c, hc, rfl⟩ | ⟨hu, hf, c, hc, rfl⟩ | ⟨hu, hf, c, hc, rfl⟩ |
    ⟨hu, hf, c, hc, rfl⟩ | ⟨hu, hf, c, hc, rfl⟩ | ⟨hu, hf, c, hc, rfl⟩ := step_eq_next_cases h
  · exact .inl hc
  · exact .inr (.inl hc)
  · exact .inr (.inr (.inl hc))
  · refine .inr (.inr (.inr ⟨hu, s.chip, ?_, rfl⟩))
    obtain hf | hf | hf | hf := (Fsm.quiescent_iff _).mp hq <;> simp only [Chip.operation, hf]
  all_goals exact .inr (.inr (.inr ⟨hu, c, by simp only [Chip.operation, hf, hc], rfl⟩))

theorem Chip.operation_of_quiescent {c : Chip} (hq : c.fsm.quiescent = true) : c.operation = .ok c := by
  obtain hf | hf | hf | hf := (Fsm.quiescent_iff _).mp hq <;> simp only [Chip.operation, hf]

end Sys2Proof.Machine
end

section
/-! PROOFS. The invariant of spec/10_state.md R40, read off state by state; what APPEND, each operation of
the engine and each command leave of it; and that no step stops where it holds. -/
namespace Sys2Proof.Machine

/-! The invariant, one row per value of `fsm`. -/

/-- R40's row "any". -/
def Chip.AnyRow (c : Chip) (maxBytes : Nat) : Prop :=
  c.L.toNat % 8 = 0 ∧ c.L.toNat ≤ 8 * maxBytes ∧ (c.last = true → c.padStage = .len)

/-- The block buffer holds a byte at every index below `bc`. -/
def Chip.BlockFilled (c : Chip) : Prop := ∀ i : Fin 64, i.val < c.bc.toNat → (c.B[i]).isSome = true

/-- The schedule holds a word at every index below `n`. -/
def Chip.ScheduleFilled (c : Chip) (n : Nat) : Prop := ∀ i : Fin 64, i.val < n → (c.W[i]).isSome = true

/-- What a block in flight says of the padding (R32). -/
def Chip.BlockKind (c : Chip) : Prop :=
  c.padStage ≠ .mark ∧ (c.last = true ↔ c.padStage = .len) ∧ (c.padStage = .none → c.L.toNat / 8 % 64 = 0)

/-- What `Chip.Inv` says in the state `fsm` is in. -/
def Chip.OwnInv (c : Chip) : Prop :=
  match c.fsm with
  | .idle => c.bc = 0#7 ∧ c.L = 0#64 ∧ c.padStage = .none ∧ c.last = false ∧ c.t = 0#6 ∧ c.NoError
  | .absorb =>
    c.padStage = .none ∧ c.last = false ∧ c.bc.toNat = c.L.toNat / 8 % 64 ∧ c.t = 0#6 ∧ c.NoError ∧
      c.H.isSome = true ∧ c.BlockFilled
  | .pad =>
    c.padStage ≠ .none ∧ c.bc.toNat ≤ 63 ∧ c.t = 0#6 ∧
      (c.padStage = .mark → c.bc.toNat = c.L.toNat / 8 % 64) ∧ (c.padStage = .len → 57 ≤ c.bc.toNat) ∧
      c.NoError ∧ c.H.isSome = true ∧ c.BlockFilled
  | .load => c.bc = 64#7 ∧ c.t = 0#6 ∧ c.BlockKind ∧ c.NoError ∧ c.H.isSome = true ∧ c.BlockFilled
  | .expand =>
    c.bc = 0#7 ∧ 16 ≤ c.t.toNat ∧ c.ScheduleFilled c.t.toNat ∧ c.BlockKind ∧ c.NoError ∧
      c.H.isSome = true ∧ c.V.isSome = true
  | .round =>
    c.bc = 0#7 ∧ c.ScheduleFilled 64 ∧ c.BlockKind ∧ c.NoError ∧ c.H.isSome = true ∧ c.V.isSome = true
  | .final =>
    c.bc = 0#7 ∧ c.t = 0#6 ∧ c.BlockKind ∧ c.NoError ∧ c.H.isSome = true ∧ c.V.isSome = true
  | .serialize =>
    c.bc = 0#7 ∧ c.t = 0#6 ∧ c.last = true ∧ c.padStage = .len ∧ c.NoError ∧ c.H.isSome = true
  | .done =>
    c.bc = 0#7 ∧ c.t = 0#6 ∧ c.last = true ∧ c.padStage = .len ∧ c.DIG.isSome = true ∧ c.NoError ∧
      c.H.isSome = true
  | .error => c.SomeError
  | .unused _ => False

section
variable {c : Chip} {m : Nat}

/-- R40's table in the form its check has: the row "any" and the row of the state. -/
theorem Chip.r40_iff : c.R40 m ↔ c.AnyRow m ∧ c.meetsOwnRow = true := by
  rw [← Chip.meetsR40_iff, Chip.meetsR40, Bool.and_eq_true, Chip.meetsAnyRow, decide_eq_true_eq]
  rfl

theorem Chip.Inv.ownInv (h : c.Inv m) : c.OwnInv := by
  unfold Chip.OwnInv
  cases hf : c.fsm with
  | idle => exact h.r40.idle hf
  | absorb =>
    obtain ⟨hps, hlast, hbc, -, ht, herr⟩ := h.r40.absorb hf
    exact ⟨hps, hlast, hbc, ht, herr, h.hash (by simp [hf]) (by simp [hf]), h.block (.inl hf)⟩
  | pad =>
    obtain ⟨hps, hbc, ht, hmark, hlen⟩ := h.r40.pad hf
    exact ⟨PadStage.ne_none_iff.mpr hps, hbc, ht, hmark, fun hl => (hlen hl).1, h.busyNoError (by rw [hf]; rfl),
      h.hash (by simp [hf]) (by simp [hf]), h.block (.inr (.inl hf))⟩
  | load =>
    obtain ⟨hbc, ht⟩ := h.r40.load hf
    exact ⟨hbc, ht, h.inFlight (by rw [hf]; rfl), h.busyNoError (by rw [hf]; rfl),
      h.hash (by simp [hf]) (by simp [hf]), h.block (.inr (.inr hf))⟩
  | expand =>
    obtain ⟨hbc, ht, -, hW⟩ := h.r40.expand hf
    exact ⟨hbc, ht, hW, h.inFlight (by rw [hf]; rfl), h.busyNoError (by rw [hf]; rfl),
      h.hash (by simp [hf]) (by simp [hf]), h.work (.inl hf)⟩
  | round =>
    obtain ⟨hbc, -⟩ := h.r40.round hf
    exact ⟨hbc, fun i _ => h.schedule hf i, h.inFlight (by rw [hf]; rfl), h.busyNoError (by rw [hf]; rfl),
      h.hash (by simp [hf]) (by simp [hf]), h.work (.inr (.inl hf))⟩
  | final =>
    obtain ⟨hbc, ht⟩ := h.r40.final hf
    exact ⟨hbc, ht, h.inFlight (by rw [hf]; rfl), h.busyNoError (by rw [hf]; rfl),
      h.hash (by simp [hf]) (by simp [hf]), h.work (.inr (.inr hf))⟩
  | serialize =>
    obtain ⟨hbc, ht, hlast, hps⟩ := h.r40.serialize hf
    exact ⟨hbc, ht, hlast, hps, h.busyNoError (by rw [hf]; rfl), h.hash (by simp [hf]) (by simp [hf])⟩
  | done =>
    obtain ⟨hbc, ht, hlast, hps, hdig, herr⟩ := h.r40.done hf
    exact ⟨hbc, ht, hlast, hps, hdig, herr, h.hash (by simp [hf]) (by simp [hf])⟩
  | error => exact h.r40.error hf
  | unused n => exact h.used n hf

/-- The rows imply R40's own. -/
theorem Chip.OwnInv.meetsOwnRow (h : c.OwnInv) : c.meetsOwnRow = true := by
  unfold Chip.OwnInv at h
  unfold Chip.meetsOwnRow
  cases hf : c.fsm <;> simp only [hf, Bool.and_eq_true, decide_eq_true_eq, Chip.noFlag_iff,
    Bool.not_eq_true', Chip.noFlag_eq_false_iff] at h ⊢
  case idle => tauto
  case absorb =>
    obtain ⟨hps, hlast, hbc, ht, herr, -⟩ := h
    exact ⟨⟨hps, hlast, hbc, by omega, ht⟩, herr⟩
  case pad =>
    obtain ⟨hps, hbc, ht, hmark, hlen, -⟩ := h
    exact ⟨hps, hbc, ht, hmark, fun hl => ⟨hlen hl, hbc⟩⟩
  case load => exact ⟨h.1, h.2.1⟩
  case expand => obtain ⟨hbc, ht, hW, -⟩ := h; exact ⟨hbc, ht, hW⟩
  case round => exact h.1
  case final => exact ⟨h.1, h.2.1⟩
  case serialize => tauto
  case done => tauto
  case error => exact h

theorem Chip.inv_of_ownInv (hany : c.AnyRow m) (h : c.OwnInv) : c.Inv m := by
  have hr := Chip.r40_iff.mpr ⟨hany, h.meetsOwnRow⟩
  unfold Chip.OwnInv at h
  refine ⟨hr, ?used, ?inFlight, ?busyNoError, ?hash, ?block, ?work, ?schedule⟩
  case used => intro n hf; simp [hf] at h
  case inFlight =>
    intro hin
    change c.BlockKind
    cases hf : c.fsm <;> simp only [hf, Fsm.inFlight, Bool.false_eq_true] at h hin
    case load => obtain ⟨-, -, hk, -⟩ := h; exact hk
    case expand => obtain ⟨-, -, -, hk, -⟩ := h; exact hk
    case round => obtain ⟨-, -, hk, -⟩ := h; exact hk
    case final => obtain ⟨-, -, hk, -⟩ := h; exact hk
  case busyNoError =>
    intro hb
    obtain hf | hf | hf | hf | hf | hf := (Fsm.busy_iff _).mp hb <;> simp only [hf] at h <;> tauto
  case hash => cases hf : c.fsm <;> simp only [hf] at h <;> simp [h]
  case block =>
    change _ → c.BlockFilled
    rintro (hf | hf | hf) <;> simp only [hf] at h <;> tauto
  case work => rintro (hf | hf | hf) <;> simp only [hf] at h <;> tauto
  case schedule =>
    intro hf i
    simp only [hf] at h
    exact h.2.1 i i.isLt

theorem Chip.inv_iff : c.Inv m ↔ c.AnyRow m ∧ c.OwnInv :=
  ⟨fun h => ⟨h.r40.any, h.ownInv⟩, fun ⟨hany, h⟩ => Chip.inv_of_ownInv hany h⟩

end

/-! What APPEND leaves. -/

/-- APPEND(v, ps), case by case: the block fills and LOAD is next, or it has room left. -/
theorem Chip.Appended.cases {c c' : Chip} {v : Byte} {ps : PadStage} (h : c.Appended c' v ps) :
    ∃ B : Vector (Option Byte) 64, (∀ i : Fin 64, B[i] = if i.val = c.bc.toNat then some v else c.B[i]) ∧
      ((c.bc = 63#7 ∧
          c' = { c with B := B, bc := 64, fsm := .load, last := decide (ps = .len), padStage := ps }) ∨
        (c.bc ≠ 63#7 ∧ c' = { c with B := B, bc := c.bc + 1, padStage := ps })) := by
  obtain ⟨hB, hfull, hroom, hc⟩ := h
  refine ⟨c'.B, hB, ?_⟩
  by_cases h63 : c.bc = 63#7
  · obtain ⟨hbc, hf, hlast⟩ := hfull h63
    exact .inl ⟨h63, by rw [hc, hbc, hf, hlast]; rfl⟩
  · obtain ⟨hbc, hf, hlast⟩ := hroom h63
    exact .inr ⟨h63, by rw [hc, hbc, hf, hlast]⟩

theorem bc_toNat_succ {bc : BitVec 7} (hle : bc.toNat ≤ 63) : (bc + 1).toNat = bc.toNat + 1 := by
  bv_omega

theorem bc_lt_of_ne {bc : BitVec 7} (hle : bc.toNat ≤ 63) (hne : bc ≠ 63#7) : bc.toNat < 63 := by
  have : bc.toNat ≠ 63 := fun h => hne (BitVec.eq_of_toNat_eq h)
  omega

/-- Writing index `n` of a block filled below `n` fills it below `n + 1`. -/
theorem isSome_of_write {B B' : Vector (Option Byte) 64} {n : Nat} {v : Byte}
    (hB : ∀ i : Fin 64, i.val < n → (B[i]).isSome = true)
    (hB' : ∀ i : Fin 64, B'[i] = if i.val = n then some v else B[i]) (i : Fin 64) (hi : i.val < n + 1) :
    (B'[i]).isSome = true := by
  rw [hB' i]
  split
  · rfl
  · exact hB i (by omega)

/-! What each step of the engine leaves. -/

section
variable {c c' : Chip} {m : Nat}

theorem Chip.Inv.after_padOp (h : c.Inv m) (hf : c.fsm = .pad) (hop : padOp c = .ok c') : c'.Inv m := by
  obtain ⟨hany, hown⟩ := Chip.inv_iff.mp h
  obtain ⟨hL8, hLm, hlast⟩ := hany
  simp only [Chip.OwnInv, hf] at hown
  obtain ⟨hps, hbc, ht, hmark, hlen, herr, hH, hB⟩ := hown
  obtain ⟨-, v, ps, happ, hcase⟩ := padOp_eq_ok_cases hop
  /- The stage PAD leaves is FILL or LEN; LEN comes from 56 or more bytes. -/
  have hstage : ps = .fill ∧ c.padStage ≠ .len ∨ ps = .len ∧ 56 ≤ c.bc.toNat := by
    obtain ⟨hs, -, hps⟩ | ⟨-, h56, -, hps⟩ | ⟨hs, -, -, hps⟩ | ⟨-, h57, -, hps⟩ := hcase
    · exact .inl ⟨hps, by simp [hs]⟩
    · exact .inr ⟨hps, by simp [h56]⟩
    · exact .inl ⟨hps, by simp [hs]⟩
    · exact .inr ⟨hps, by omega⟩
  obtain ⟨B, hB', ⟨h63, rfl⟩ | ⟨h63, rfl⟩⟩ := happ.cases
  · have hfull := isSome_of_write hB hB'
    rw [h63] at hfull
    refine Chip.inv_of_ownInv ⟨hL8, hLm, by simp⟩ ⟨rfl, ht, ⟨?_, by simp, ?_⟩, herr, hH, hfull⟩
    · obtain ⟨rfl, -⟩ | ⟨rfl, -⟩ := hstage <;> simp
    · obtain ⟨rfl, -⟩ | ⟨rfl, -⟩ := hstage <;> simp
  · have hlt := bc_lt_of_ne hbc h63
    have hsucc := bc_toNat_succ hbc
    refine Chip.inv_of_ownInv ⟨hL8, hLm, fun hl => ?_⟩ ?_
    · obtain ⟨-, hne⟩ | ⟨rfl, -⟩ := hstage
      · exact absurd (hlast hl) hne
      · rfl
    · simp only [Chip.OwnInv, hf]
      refine ⟨?_, by omega, ht, ?_, ?_, herr, hH, fun i hi => isSome_of_write hB hB' i (by rwa [hsucc] at hi)⟩
      · obtain ⟨rfl, -⟩ | ⟨rfl, -⟩ := hstage <;> simp
      · obtain ⟨rfl, -⟩ | ⟨rfl, -⟩ := hstage <;> simp
      · obtain ⟨rfl, -⟩ | ⟨rfl, h56⟩ := hstage
        · simp
        · intro; omega

theorem Chip.Inv.after_loadOp (h : c.Inv m) (hf : c.fsm = .load) (hop : loadOp c = .ok c') : c'.Inv m := by
  obtain ⟨hany, hown⟩ := Chip.inv_iff.mp h
  simp only [Chip.OwnInv, hf] at hown
  obtain ⟨hbc, ht, hk, herr, hH, -⟩ := hown
  obtain ⟨-, bytes, H, -, -, rfl⟩ := loadOp_eq_ok_iff.mp hop
  refine Chip.inv_of_ownInv hany ⟨rfl, le_refl 16, fun i hi => ?_, hk, herr, hH, rfl⟩
  change ((loadSchedule c.W (blockWords bytes))[i]).isSome = true
  rw [loadSchedule_get, dif_pos (show i.val < 16 from hi)]
  rfl

theorem isSome_of_schedule_set {W : Vector (Option Word) 64} {t : BitVec 6} {w : Word}
    (hW : ∀ i : Fin 64, i.val < t.toNat → (W[i]).isSome = true) (i : Fin 64) (hi : i.val < t.toNat + 1) :
    ((W.set t.toNat (some w) t.isLt)[i]).isSome = true := by
  rw [schedule_set_get]
  split
  · rfl
  · exact hW i (by omega)

theorem toNat_succ_of_ne_63 {t : BitVec 6} (h : t ≠ 63#6) : (t + 1).toNat = t.toNat + 1 := by
  have := nextCount_toNat t
  rwa [nextCount_of_ne_63 h, if_neg h] at this

theorem Chip.Inv.after_expandOp (h : c.Inv m) (hf : c.fsm = .expand) (hop : expandOp c = .ok c') : c'.Inv m := by
  obtain ⟨hany, hown⟩ := Chip.inv_iff.mp h
  simp only [Chip.OwnInv, hf] at hown
  obtain ⟨hbc, ht, hW, hk, herr, hH, hV⟩ := hown
  obtain ⟨-, w2, w7, w15, w16, -, -, -, -, rfl⟩ := expandOp_eq_ok_iff.mp hop
  have hW' := isSome_of_schedule_set (w := scheduleWord w2 w7 w15 w16) hW
  refine Chip.inv_of_ownInv hany ?_
  by_cases h63 : c.t = 63#6
  · simp only [Chip.OwnInv, if_pos h63]
    refine ⟨hbc, fun i hi => hW' i ?_, hk, herr, hH, hV⟩
    rw [h63]; exact hi
  · simp only [Chip.OwnInv, if_neg h63, hf, nextCount_of_ne_63 h63, toNat_succ_of_ne_63 h63]
    exact ⟨hbc, by omega, hW', hk, herr, hH, hV⟩

theorem Chip.Inv.after_roundOp (h : c.Inv m) (hf : c.fsm = .round) (hop : roundOp c = .ok c') : c'.Inv m := by
  obtain ⟨hany, hown⟩ := Chip.inv_iff.mp h
  simp only [Chip.OwnInv, hf] at hown
  obtain ⟨hbc, hW, hk, herr, hH, -⟩ := hown
  obtain ⟨v, w, -, -, rfl⟩ := roundOp_eq_ok_iff.mp hop
  refine Chip.inv_of_ownInv hany ?_
  by_cases h63 : c.t = 63#6
  · simp only [Chip.OwnInv, if_pos h63]
    exact ⟨hbc, nextCount_of_eq_63 h63, hk, herr, hH, rfl⟩
  · simp only [Chip.OwnInv, if_neg h63, hf]
    exact ⟨hbc, hW, hk, herr, hH, rfl⟩

theorem Chip.Inv.after_finalOp (h : c.Inv m) (hf : c.fsm = .final) (hop : finalOp c = .ok c') : c'.Inv m := by
  obtain ⟨hany, hown⟩ := Chip.inv_iff.mp h
  simp only [Chip.OwnInv, hf] at hown
  obtain ⟨hbc, ht, ⟨hnm, hiff, hwhole⟩, herr, hH, -⟩ := hown
  obtain ⟨H, v, -, -, rfl⟩ := finalOp_eq_ok_iff.mp hop
  refine Chip.inv_of_ownInv hany ?_
  have hempty (B : Vector (Option Byte) 64) (i : Fin 64) (hi : i.val < c.bc.toNat) : (B[i]).isSome = true := by
    simp [hbc] at hi
  cases hlast : c.last with
  | true =>
    simp only [Chip.OwnInv, afterFinal_of_last]
    exact ⟨hbc, ht, trivial, hiff.mp hlast, herr, rfl⟩
  | false =>
    have hnl : c.padStage ≠ .len := fun hl => by simp [hiff.mpr hl] at hlast
    by_cases hps : c.padStage = .none
    · simp only [Chip.OwnInv, afterFinal_of_absorbing rfl hps]
      exact ⟨hps, trivial, by rw [hwhole hps, hbc]; rfl, ht, herr, rfl, hempty _⟩
    · simp only [Chip.OwnInv, afterFinal_of_padding rfl hps]
      exact ⟨hps, by simp [hbc], ht, fun hm => absurd hm hnm, fun hl => absurd hl hnl, herr, rfl, hempty _⟩

theorem Chip.Inv.after_serializeOp (h : c.Inv m) (hf : c.fsm = .serialize) (hop : serializeOp c = .ok c') :
    c'.Inv m := by
  obtain ⟨hany, hown⟩ := Chip.inv_iff.mp h
  simp only [Chip.OwnInv, hf] at hown
  obtain ⟨hbc, ht, hlast, hps, herr, hH⟩ := hown
  obtain ⟨H, -, rfl⟩ := serializeOp_eq_ok_iff.mp hop
  exact Chip.inv_of_ownInv hany ⟨hbc, ht, hlast, hps, rfl, herr, hH⟩

theorem Chip.Inv.after_operation (h : c.Inv m) (hop : c.operation = .ok c') : c'.Inv m := by
  cases hf : c.fsm with simp only [Chip.operation, hf] at hop
  | pad => exact h.after_padOp hf hop
  | load => exact h.after_loadOp hf hop
  | expand => exact h.after_expandOp hf hop
  | round => exact h.after_roundOp hf hop
  | final => exact h.after_finalOp hf hop
  | serialize => exact h.after_serializeOp hf hop
  | idle | absorb | done | error => exact Except.ok.inj hop ▸ h
  | unused n => cases hop

/-! What each command leaves. -/

theorem Chip.inv_reset (m : Nat) : Chip.reset.Inv m := by
  refine Chip.inv_of_ownInv ⟨rfl, Nat.zero_le _, by decide⟩ ?_
  simp [Chip.OwnInv, Chip.reset]

/-- START meets the invariant whatever stood there before. -/
theorem Chip.inv_openJob (c : Chip) (m : Nat) : c.openJob.Inv m := by
  refine Chip.inv_of_ownInv ⟨rfl, Nat.zero_le _, by simp⟩ ?_
  simp [Chip.OwnInv, Chip.BlockFilled, Chip.NoError]

/-- Error entry keeps the row "any", and the raised flag is the row of ERROR. -/
theorem Chip.Inv.after_raise (h : c.Inv m) (e : ErrorKind) : (c.raise e).Inv m := by
  obtain ⟨hL8, hLm, hlast⟩ := h.r40.any
  refine Chip.inv_of_ownInv ⟨by simpa, by simpa, by simpa⟩ ?_
  cases e <;> simp [Chip.OwnInv, Chip.SomeError]

/-- The limit of R8 keeps L from wrapping. -/
theorem toNat_add_8_of_lt {L : LenWord} (hL8 : L.toNat % 8 = 0) (hLm : L.toNat ≤ 8 * m) (hne : L.toNat / 8 ≠ m)
    (hm : m < 2 ^ 61) : (L + 8).toNat = L.toNat + 8 ∧ L.toNat + 8 ≤ 8 * m := by
  have hroom : L.toNat + 8 ≤ 8 * m := by omega
  exact ⟨by bv_omega, hroom⟩

theorem Chip.Inv.after_dataAppend {b : Byte} (h : c.Inv m) (hf : c.fsm = .absorb) (hm : m < 2 ^ 61)
    (hne : c.L.toNat / 8 ≠ m) (hop : ({ c with L := c.L + 8 } : Chip).append b .none = .ok c') : c'.Inv m := by
  obtain ⟨⟨hL8, hLm, hlast⟩, hown⟩ := Chip.inv_iff.mp h
  simp only [Chip.OwnInv, hf] at hown
  obtain ⟨hps, hlast, hbc, ht, herr, hH, hB⟩ := hown
  obtain ⟨hL, hroom⟩ := toNat_add_8_of_lt hL8 hLm hne hm
  have hle : c.bc.toNat ≤ 63 := by omega
  have happ := Chip.appended_of_append_ok (c := { c with L := c.L + 8 }) hps hop
  obtain ⟨B, hB', ⟨h63, rfl⟩ | ⟨h63, rfl⟩⟩ := happ.cases
  · have hfull := isSome_of_write hB hB'
    replace h63 : c.bc = 63#7 := h63
    rw [h63] at hfull hbc
    have h63' : (63#7).toNat = 63 := rfl
    refine Chip.inv_of_ownInv ⟨by simp only [hL]; omega, by simp only [hL]; exact hroom, by simp⟩
      ⟨rfl, ht, ⟨by simp, by simp, fun _ => ?_⟩, herr, hH, hfull⟩
    simp only [hL]; omega
  · have hlt := bc_lt_of_ne hle h63
    have hsucc := bc_toNat_succ hle
    refine Chip.inv_of_ownInv ⟨by simp only [hL]; omega, by simp only [hL]; exact hroom, by simp [hlast]⟩ ?_
    simp only [Chip.OwnInv, hf, hL]
    exact ⟨trivial, hlast, by omega, ht, herr, hH, fun i hi => isSome_of_write hB hB' i (by rwa [hsucc] at hi)⟩

theorem Chip.Inv.after_endAbsorb (h : c.Inv m) (hf : c.fsm = .absorb) :
    ({ c with padStage := .mark, fsm := .pad } : Chip).Inv m := by
  obtain ⟨⟨hL8, hLm, hlast⟩, hown⟩ := Chip.inv_iff.mp h
  simp only [Chip.OwnInv, hf] at hown
  obtain ⟨hps, hlast, hbc, ht, herr, hH, hB⟩ := hown
  exact Chip.inv_of_ownInv ⟨hL8, hLm, by simp [hlast]⟩
    ⟨by simp, by simp only [hbc]; omega, ht, fun _ => hbc, by simp, herr, hH, hB⟩

end

/-! The invariant along a step: it is kept, and no step stops. -/

theorem exec_offered_keeps_inv {s t : State} {w : Cmd} (hi : s.Inv) (h : exec (decodeCmd w) s = .next t) :
    t.Inv := by
  obtain ⟨-, -, rfl⟩ | ⟨-, -, rfl⟩ | ⟨-, -, r, rfl⟩ | ⟨-, rfl⟩ | ⟨-, -, -, -, rfl⟩ |
    ⟨-, -, hf, hm, c, happ, rfl⟩ | ⟨-, -, hf, rfl⟩ | ⟨-, -, -, rfl⟩ | ⟨-, -, -, rfl⟩ :=
    exec_offered_cases h
  · exact Chip.Inv.after_raise hi .input
  · exact hi
  · exact hi
  · exact s.chip.inv_openJob _
  · exact Chip.Inv.after_raise hi .lengthLimit
  · exact Chip.Inv.after_dataAppend hi hf s.maxMsgBytes.isLt hm happ
  · exact Chip.Inv.after_endAbsorb hi hf
  · exact Chip.Inv.after_raise hi .seq
  · exact hi

theorem step_keeps_inv {s t : State} (hi : s.Inv) (h : step s = .next t) : t.Inv := by
  obtain ⟨-, rfl⟩ | ⟨-, -, rfl⟩ | ⟨-, w, ws, -, hx⟩ | ⟨-, c, hop, rfl⟩ := step_eq_next_agents h
  · exact Chip.inv_reset _
  · exact hi
  · exact exec_offered_keeps_inv (s := s.endTurn) hi hx
  · exact Chip.Inv.after_operation hi hop

end Sys2Proof.Machine
end

section
/-! PROOFS. No step stops where the invariant holds (spec/60_exceptions.md R235), and with it the invariant
along every run (spec/10_state.md R40) and the outputs under it (R35, R36). -/
namespace Sys2Proof.Machine

/-! Every command answers. -/

section
variable {s : State}

theorem sequencedStep_answers {act : Chip → Except Fault Chip} (hu : ∀ n, s.chip.fsm ≠ .unused n)
    (hact : s.chip.fsm = .absorb → ∃ c, act s.chip = .ok c) : ∃ t, sequencedStep act s = .next t := by
  cases hf : s.chip.fsm with
  | absorb =>
    obtain ⟨c, hc⟩ := hact hf
    exact ⟨_, sequencedStep_of_absorb hf hc⟩
  | idle | done | error => exact ⟨_, sequencedStep_of_sequence_error (by simp [hf])⟩
  | pad | load | expand | round | final | serialize =>
    exact ⟨_, sequencedStep_of_busy (by rw [Chip.busy, hf]; rfl)⟩
  | unused n => exact absurd hf (hu n)

theorem dataAbsorb_answers {c : Chip} (m : Nat) (b : Byte) (hbc : c.bc.toNat ≤ 63) :
    ∃ c', dataAbsorb m b c = .ok c' := by
  unfold dataAbsorb
  split
  · exact ⟨_, rfl⟩
  · exact ⟨_, Chip.append_of_le (c := { c with L := c.L + 8 }) b .none hbc⟩

theorem execRdhex_answers (hu : ∀ n, s.chip.fsm ≠ .unused n)
    (hd : s.chip.fsm = .done → s.chip.DIG.isSome = true) (i : BitVec 6) : ∃ t, execRdhex i s = .next t := by
  by_cases hf : s.chip.fsm = .done
  · obtain ⟨d, hd⟩ := Option.isSome_iff_exists.mp (hd hf)
    exact ⟨_, execRdhex_of_done hf hd i⟩
  · exact ⟨_, execRdhex_of_not_done hu hf i⟩

theorem execIllegal_answers (hu : ∀ n, s.chip.fsm ≠ .unused n) (w : Cmd) : ∃ t, execIllegal w s = .next t := by
  cases hr : s.chip.cmdReady w with
  | true => exact ⟨_, execIllegal_of_ready hu hr⟩
  | false => exact ⟨_, execIllegal_of_held hr⟩

theorem exec_offered_answers (hi : s.Inv) (w : Cmd) : ∃ t, exec (decodeCmd w) s = .next t := by
  have hu := hi.used
  have hbc (hf : s.chip.fsm = .absorb) : s.chip.bc.toNat ≤ 63 := by
    obtain ⟨-, -, -, hbc, -⟩ := hi.r40.absorb hf
    exact hbc
  have hdig (hf : s.chip.fsm = .done) : s.chip.DIG.isSome = true := by
    obtain ⟨-, -, -, -, hdig, -⟩ := hi.r40.done hf
    exact hdig
  cases hl : legal w with
  | false =>
    rw [decodeCmd_of_not_legal hl]
    exact execIllegal_answers hu w
  | true =>
    obtain ⟨-, hd⟩ | ⟨-, hd⟩ | ⟨-, hd⟩ | ⟨-, hd⟩ | ⟨-, hd⟩ | ⟨-, hd⟩ := decodeCmd_of_legal hl <;> rw [hd]
    · exact ⟨_, execNop_of_used hu⟩
    · exact ⟨_, execStart_of_used hu⟩
    · exact sequencedStep_answers hu fun hf => dataAbsorb_answers _ _ (hbc hf)
    · exact sequencedStep_answers (act := endAbsorb) hu fun _ => ⟨_, rfl⟩
    · exact ⟨_, execRdstat_of_used hu⟩
    · exact execRdhex_answers hu hdig _

end

/-! Every operation of the engine answers. -/

theorem exists_vector_of_isSome {α : Type} {n : Nat} {v : Vector (Option α) n}
    (h : ∀ i : Fin n, (v[i]).isSome = true) : ∃ u : Vector α n, ∀ i : Fin n, v[i] = some u[i] :=
  ⟨Vector.ofFn fun i => (v[i]).get (h i), fun i => by simp⟩

section
variable {c : Chip} {m : Nat}

theorem Chip.ScheduleFilled.schedule? {n i : Nat} (h : c.ScheduleFilled n) (hn : n ≤ 64) (hi : i < n) :
    ∃ w, c.schedule? i = some w := by
  rw [Chip.schedule?_of_lt (by omega)]
  exact Option.isSome_iff_exists.mp (h ⟨i, by omega⟩ hi)

theorem Chip.Inv.loadOp_answers (h : c.Inv m) (hf : c.fsm = .load) : ∃ c', loadOp c = .ok c' := by
  have hown := h.ownInv
  simp only [Chip.OwnInv, hf] at hown
  obtain ⟨hbc, -, -, -, hH, hB⟩ := hown
  obtain ⟨H, hH⟩ := Option.isSome_iff_exists.mp hH
  obtain ⟨bytes, hbytes⟩ := exists_vector_of_isSome fun i : Fin 64 => hB i (by rw [hbc]; exact i.isLt)
  exact ⟨_, loadOp_eq_ok_iff.mpr ⟨hbc, bytes, H, hbytes, hH, rfl⟩⟩

theorem Chip.Inv.expandOp_answers (h : c.Inv m) (hf : c.fsm = .expand) : ∃ c', expandOp c = .ok c' := by
  have hown := h.ownInv
  simp only [Chip.OwnInv, hf] at hown
  obtain ⟨-, ht, hW, -⟩ := hown
  have hlt := c.t.isLt
  obtain ⟨w2, h2⟩ := hW.schedule? (i := c.t.toNat - 2) (by omega) (by omega)
  obtain ⟨w7, h7⟩ := hW.schedule? (i := c.t.toNat - 7) (by omega) (by omega)
  obtain ⟨w15, h15⟩ := hW.schedule? (i := c.t.toNat - 15) (by omega) (by omega)
  obtain ⟨w16, h16⟩ := hW.schedule? (i := c.t.toNat - 16) (by omega) (by omega)
  exact ⟨_, h.r40.expandOp_of_words hf h2 h7 h15 h16⟩

theorem Chip.Inv.roundOp_answers (h : c.Inv m) (hf : c.fsm = .round) : ∃ c', roundOp c = .ok c' := by
  have hown := h.ownInv
  simp only [Chip.OwnInv, hf] at hown
  obtain ⟨-, hW, -, -, -, hV⟩ := hown
  obtain ⟨v, hv⟩ := Option.isSome_iff_exists.mp hV
  obtain ⟨w, hw⟩ := hW.schedule? (le_refl 64) c.t.isLt
  exact ⟨_, roundOp_eq_ok_iff.mpr ⟨v, w, hv, hw, rfl⟩⟩

theorem Chip.Inv.finalOp_answers (h : c.Inv m) (hf : c.fsm = .final) : ∃ c', finalOp c = .ok c' := by
  obtain ⟨H, hH⟩ := Option.isSome_iff_exists.mp (h.hash (by simp [hf]) (by simp [hf]))
  obtain ⟨v, hv⟩ := Option.isSome_iff_exists.mp (h.work (.inr (.inr hf)))
  exact ⟨_, finalOp_eq_ok_iff.mpr ⟨H, v, hH, hv, rfl⟩⟩

theorem Chip.Inv.serializeOp_answers (h : c.Inv m) (hf : c.fsm = .serialize) :
    ∃ c', serializeOp c = .ok c' := by
  obtain ⟨H, hH⟩ := Option.isSome_iff_exists.mp (h.hash (by simp [hf]) (by simp [hf]))
  exact ⟨_, serializeOp_eq_ok_iff.mpr ⟨H, hH, rfl⟩⟩

theorem Chip.Inv.operation_answers (h : c.Inv m) : ∃ c', c.operation = .ok c' := by
  cases hf : c.fsm with simp only [Chip.operation, hf]
  | idle | absorb | done | error => exact ⟨c, rfl⟩
  | pad => exact h.r40.padOp_answers hf
  | load => exact h.loadOp_answers hf
  | expand => exact h.expandOp_answers hf
  | round => exact h.roundOp_answers hf
  | final => exact h.finalOp_answers hf
  | serialize => exact h.serializeOp_answers hf
  | unused n => exact absurd hf (h.used n)

end

theorem step_answers {s : State} (hi : s.Inv) : ∃ t, step s = .next t := by
  cases hu : s.nextTurn with
  | reset => exact ⟨_, step_of_reset hu⟩
  | engine =>
    obtain ⟨c, hop⟩ := Chip.Inv.operation_answers hi
    exact ⟨_, step_of_operation hu hi.r40 hop⟩
  | host =>
    cases ho : s.offers with
    | nil => exact ⟨_, step_of_host_nil hu ho hi.used⟩
    | cons w ws => exact step_of_host_cons hu ho ▸ exec_offered_answers (s := s.endTurn) hi w

/-- Settles O37: a step answers, and what it answers keeps the invariant. -/
theorem stepKeepsInvariantAndNeverStops : Obligations.StepKeepsInvariantAndNeverStops := by
  intro s hi
  obtain ⟨t, ht⟩ := step_answers hi
  exact ⟨t, ht, step_keeps_inv hi ht⟩

/-- The invariant along a run of any length. -/
theorem run_answers {s : State} (hi : s.Inv) (k : Nat) :
    ∃ t, run k s = .next t ∧ t.Inv ∧ t.maxMsgBytes = s.maxMsgBytes := by
  induction k generalizing s with
  | zero => exact ⟨s, run_zero s, hi, rfl⟩
  | succ k ih =>
    obtain ⟨u, hu⟩ := step_answers hi
    obtain ⟨t, ht, hti, hm⟩ := ih (step_keeps_inv hi hu)
    exact ⟨t, (run_succ_of_next hu).trans ht, hti, hm.trans (step_maxMsgBytes hu)⟩

/-- Settles O36: reset brings the chip to `Chip.reset`, whose row is IDLE's. -/
theorem resetMeetsInvariant : Obligations.ResetMeetsInvariant := fun m => Chip.inv_reset m.val

/-- Settles O38: the invariant holds after reset and along every run, and R40's table is part of it. -/
theorem reachableStatesMeetTable : Obligations.ReachableStatesMeetTable := by
  intro m offers turns k
  have hi : ({ State.resetWith m with offers := offers, turns := turns } : State).Inv := Chip.inv_reset m.val
  obtain ⟨t, ht, hti, hm⟩ := run_answers hi k
  have hr40 := hti.r40
  rw [hm] at hr40
  exact ⟨t, ht, hr40, hm⟩

/-! The outputs. -/

theorem Chip.busy_eq_decide (c : Chip) :
    c.busy = decide (c.fsm = .pad ∨ c.fsm = .load ∨ c.fsm = .expand ∨ c.fsm = .round ∨ c.fsm = .final ∨
      c.fsm = .serialize) :=
  Bool.eq_iff_iff.mpr (by rw [c.busy_iff, decide_eq_true_eq])

/-- STATUS bit by bit, the state's bits as `Chip.status` computes them. -/
theorem Chip.status_bits (c : Chip) :
    c.status.getLsbD 0 = decide (c.fsm = .absorb) ∧ c.status.getLsbD 1 = c.busy ∧
      c.status.getLsbD 2 = decide (c.fsm = .done) ∧ c.status.getLsbD 3 = c.errInput ∧
      c.status.getLsbD 4 = c.errLength ∧ c.status.getLsbD 5 = c.errSeq ∧ c.status.getLsbD 6 = false ∧
      c.status.getLsbD 7 = false := by
  unfold Chip.status
  generalize decide (c.fsm = .absorb) = ready, c.busy = busy, decide (c.fsm = .done) = done,
    c.errInput = input, c.errLength = length, c.errSeq = seq
  revert ready busy done input length seq
  decide

/-- Settles O25: the eight bits, and READY, BUSY and DONE name different states. -/
theorem statusBitLayout : Obligations.StatusBitLayout := by
  intro c
  obtain ⟨h0, h1, h2, h3, h4, h5, h6, h7⟩ := c.status_bits
  refine ⟨h0, h1.trans c.busy_eq_decide, h2, h3, h4, h5, h6, h7, ?_, ?_, ?_⟩
  · rw [h0, h1]
    rintro ⟨hready, hbusy⟩
    simp [Chip.busy, of_decide_eq_true hready, Fsm.busy] at hbusy
  · rw [h0, h2]
    rintro ⟨hready, hdone⟩
    simp [of_decide_eq_true hready] at hdone
  · rw [h1, h2]
    rintro ⟨hbusy, hdone⟩
    simp [Chip.busy, of_decide_eq_true hdone, Fsm.busy] at hbusy

theorem Chip.status_error_bits (c : Chip) :
    (c.status.getLsbD 3 = true ∨ c.status.getLsbD 4 = true ∨ c.status.getLsbD 5 = true) ↔ c.SomeError := by
  obtain ⟨-, -, -, h3, h4, h5, -⟩ := statusBitLayout c
  rw [h3, h4, h5]

theorem Chip.status_done_bit (c : Chip) : c.status.getLsbD 2 = true ↔ c.fsm = .done := by
  obtain ⟨-, -, h2, -⟩ := statusBitLayout c
  rw [h2, decide_eq_true_eq]

theorem Chip.irq_iff (c : Chip) : c.irq = true ↔ c.fsm = .done ∨ c.fsm = .error := by
  simp [Chip.irq]

theorem Chip.OwnInv.noError {c : Chip} (h : c.OwnInv) (hne : c.fsm ≠ .error) : c.NoError := by
  cases hf : c.fsm <;> simp only [Chip.OwnInv, hf] at h <;> tauto

/-- Under the invariant the flags are what ERROR is. -/
theorem Chip.Inv.error_iff {c : Chip} {m : Nat} (h : c.Inv m) : c.fsm = .error ↔ c.SomeError := by
  refine ⟨h.r40.error, fun herr => by_contra fun hf => ?_⟩
  obtain ⟨hi, hl, hs⟩ := h.ownInv.noError hf
  simp [Chip.SomeError, hi, hl, hs] at herr

/-- Settles O26: bits 5:3 are the flags and bit 2 is DONE, where no flag is set. -/
theorem irqIsDoneOrErrorInStatus : Obligations.IrqIsDoneOrErrorInStatus := by
  intro c m h
  rw [Chip.status_error_bits, Chip.status_done_bit, ← h.error_iff, Chip.irq_iff]
  exact ⟨Iff.rfl, Iff.rfl, fun ⟨hd, he⟩ => by simp [hd] at he⟩

end Sys2Proof.Machine
end

section
/-! PROOFS. Whose step it is (spec/20_memory.md R69, spec/43_digest_serializer.md R185,
spec/44_host_commands.md R200, R201), and what a step does to the chip, said once: the operation of the
engine, and the effects of an accepted word. -/
namespace Sys2Proof.Machine

/-! The two agents. -/

/-- Settles O7: the host's step decodes the offered word. -/
theorem hostStepRunsOfferedWord : Obligations.HostStepRunsOfferedWord := by
  intro s w ws i ho hu hd
  obtain rfl : decodeCmd w = i := Except.ok.inj hd
  exact step_of_host_cons hu ho

/-- Settles O8: one equation of `step` per busy state. -/
theorem engineStepRunsSelectedOperation : Obligations.EngineStepRunsSelectedOperation := by
  intro s hu hb
  obtain hf | hf | hf | hf | hf | hf := s.chip.busy_iff.mp hb
  · exact ⟨.pad, by rw [hf]; rfl, step_of_engine_pad hu hf⟩
  · exact ⟨.load, by rw [hf]; rfl, step_of_engine_load hu hf⟩
  · exact ⟨.expand, by rw [hf]; rfl, step_of_engine_expand hu hf⟩
  · exact ⟨.round, by rw [hf]; rfl, step_of_engine_round hu hf⟩
  · exact ⟨.final, by rw [hf]; rfl, step_of_engine_final hu hf⟩
  · exact ⟨.serialize, by rw [hf]; rfl, step_of_engine_serialize hu hf⟩

theorem Fsm.used_of_quiescent {f : Fsm} (h : f.quiescent = true) (n : Fin 6) : f ≠ .unused n := by
  rintro rfl
  simp [Fsm.quiescent] at h

/-- With no turn fixed, the host steps where the engine has no operation. -/
theorem State.nextTurn_of_quiescent {s : State} (ht : s.turns = []) (hq : s.chip.fsm.quiescent = true) :
    s.nextTurn = .host := by
  simp [State.nextTurn, ht, hq]

theorem State.nextTurn_of_busy {s : State} (ht : s.turns = []) (hb : s.chip.busy = true) :
    s.nextTurn = .engine := by
  have hq : s.chip.fsm.quiescent = false := by
    obtain hf | hf | hf | hf | hf | hf := s.chip.busy_iff.mp hb <;> rw [hf] <;> rfl
  simp [State.nextTurn, ht, hq]

/-- Settles O9: a quiescent engine and an idle host only end the turn. -/
theorem noStepWhenQuiescent : Obligations.NoStepWhenQuiescent := by
  intro s hf
  have hq := (Fsm.quiescent_iff _).mpr hf
  refine ⟨fun hu => step_of_engine_quiescent hu hq, fun ht => ?host⟩
  case host =>
    have hu := State.nextTurn_of_quiescent ht hq
    refine ⟨hu, fun ho => ?_⟩
    rw [step_of_host_nil hu ho (Fsm.used_of_quiescent hq), State.endTurn_of_turns_nil s ht]

/-- Settles O10: the word is one `cmd_ready` refuses. -/
theorem heldWordChangesNothing : Obligations.HeldWordChangesNothing := by
  intro s w ws ho hu hb hop
  rw [step_of_host_cons hu ho]
  exact exec_offered_of_held (s := s.endTurn) (Chip.cmdReady_eq_false_iff.mpr ⟨hop, hb⟩)

/-- A word that is not held is accepted, with some chip and some response. -/
theorem exec_offered_of_ready {s t : State} {w : Cmd} (h : exec (decodeCmd w) s = .next t)
    (hr : s.chip.cmdReady w = true) : ∃ c r, t = s.accept c r := by
  obtain ⟨-, -, rfl⟩ | ⟨-, hheld, -⟩ | ⟨-, -, r, rfl⟩ | ⟨-, rfl⟩ | ⟨-, -, -, -, rfl⟩ |
    ⟨-, -, -, -, c, -, rfl⟩ | ⟨-, -, -, rfl⟩ | ⟨-, -, -, rfl⟩ | ⟨-, ho, hb, -⟩ := exec_offered_cases h
  case inr.inl => simp [hheld] at hr
  case inr.inr.inr.inr.inr.inr.inr.inr => simp [Chip.cmdReady_eq_false_iff.mpr ⟨ho, hb⟩] at hr
  all_goals exact ⟨_, _, rfl⟩

/-- Settles O11: a held word changes nothing, and any other is accepted. -/
theorem acceptedExactlyWhenReady : Obligations.AcceptedExactlyWhenReady := by
  intro s t w ws ho hu h
  rw [step_of_host_cons hu ho] at h
  cases hr : s.chip.cmdReady w with
  | false =>
    have hheld := exec_offered_of_held (s := s.endTurn) hr
    exact .inr ⟨rfl, (Host.Outcome.next.inj (hheld.symm.trans h)).symm⟩
  | true =>
    obtain ⟨c, r, rfl⟩ := exec_offered_of_ready (s := s.endTurn) h hr
    exact .inl ⟨rfl, by simp [ho], r, rfl⟩

/-- Settles O14: after reset `fsm` is IDLE and no flag is set. -/
theorem afterResetOutputsAreZero : Obligations.AfterResetOutputsAreZero := by
  intro s t hu h
  obtain rfl := Host.Outcome.next.inj ((step_of_reset hu).symm.trans h)
  have hstatus : Chip.reset.status = 0x00#8 := by decide
  exact ⟨hstatus, rfl, rfl⟩

/-! DATA and END in ABSORB. -/

/-- Settles O18: END acts at once in ABSORB. -/
theorem endStartsPadding : Obligations.EndStartsPadding :=
  fun s hf => ⟨_, sequencedStep_of_absorb (act := endAbsorb) hf rfl, s.acceptedWith_ackResp _, rfl⟩

theorem dataAbsorb_of_room {m : Nat} {c : Chip} (b : Byte) (hm : c.L.toNat / 8 ≠ m) :
    dataAbsorb m b c = ({ c with L := c.L + 8 } : Chip).append b .none := if_neg hm

/-- Settles O17: below the limit DATA is APPEND on the chip with L counted up. -/
theorem dataAppendsMessageByte : Obligations.DataAppendsMessageByte := by
  intro s b hf hm hbc
  have happ := Chip.append_of_le (c := { s.chip with L := s.chip.L + 8 }) b .none hbc
  have hop := (dataAbsorb_of_room b hm).trans happ
  refine ⟨_, sequencedStep_of_absorb hf hop, s.acceptedWith_ackResp _, ?byte, ?full, ?room, rfl⟩
  case byte => intro i; simp [Vector.getElem_set, eq_comm]
  case full => intro h63; simp [h63]
  case room => intro h63; simp [h63, hf]

/-! What the engine's step does to the chip. -/

/-- Nothing but the error flags and L is compared: they are as before. -/
def Chip.SameFlagsAndLength (c c' : Chip) : Prop :=
  c'.errInput = c.errInput ∧ c'.errLength = c.errLength ∧ c'.errSeq = c.errSeq ∧ c'.L = c.L

theorem Chip.Appended.sameFlagsAndLength {c c' : Chip} {v : Byte} {ps : PadStage} (h : c.Appended c' v ps) :
    c.SameFlagsAndLength c' := by
  obtain ⟨B, -, ⟨-, rfl⟩ | ⟨-, rfl⟩⟩ := h.cases <;> exact ⟨rfl, rfl, rfl, rfl⟩

/-- The engine raises no error and counts no byte (R235). -/
theorem Chip.sameFlagsAndLength_of_operation {c c' : Chip} (h : c.operation = .ok c') :
    c.SameFlagsAndLength c' := by
  cases hf : c.fsm with simp only [Chip.operation, hf] at h
  | pad =>
    obtain ⟨-, v, ps, happ, -⟩ := padOp_eq_ok_cases h
    exact happ.sameFlagsAndLength
  | load => obtain ⟨-, bytes, H, -, -, rfl⟩ := loadOp_eq_ok_iff.mp h; exact ⟨rfl, rfl, rfl, rfl⟩
  | expand =>
    obtain ⟨-, w2, w7, w15, w16, -, -, -, -, rfl⟩ := expandOp_eq_ok_iff.mp h
    exact ⟨rfl, rfl, rfl, rfl⟩
  | round => obtain ⟨v, w, -, -, rfl⟩ := roundOp_eq_ok_iff.mp h; exact ⟨rfl, rfl, rfl, rfl⟩
  | final => obtain ⟨H, v, -, -, rfl⟩ := finalOp_eq_ok_iff.mp h; exact ⟨rfl, rfl, rfl, rfl⟩
  | serialize => obtain ⟨H, -, rfl⟩ := serializeOp_eq_ok_iff.mp h; exact ⟨rfl, rfl, rfl, rfl⟩
  | idle | absorb | done | error => obtain rfl := Except.ok.inj h; exact ⟨rfl, rfl, rfl, rfl⟩
  | unused n => cases h

/-- FINAL alone writes H. -/
theorem Chip.H_of_operation {c c' : Chip} (h : c.operation = .ok c') (hne : c.fsm ≠ .final) : c'.H = c.H := by
  cases hf : c.fsm with simp only [Chip.operation, hf] at h
  | pad =>
    obtain ⟨-, v, ps, happ, -⟩ := padOp_eq_ok_cases h
    obtain ⟨B, -, ⟨-, rfl⟩ | ⟨-, rfl⟩⟩ := happ.cases <;> rfl
  | load => obtain ⟨-, bytes, H, -, -, rfl⟩ := loadOp_eq_ok_iff.mp h; rfl
  | expand => obtain ⟨-, w2, w7, w15, w16, -, -, -, -, rfl⟩ := expandOp_eq_ok_iff.mp h; rfl
  | round => obtain ⟨v, w, -, -, rfl⟩ := roundOp_eq_ok_iff.mp h; rfl
  | final => exact absurd hf hne
  | serialize => obtain ⟨H, -, rfl⟩ := serializeOp_eq_ok_iff.mp h; rfl
  | idle | absorb | done | error => obtain rfl := Except.ok.inj h; rfl
  | unused n => cases h

/-- An internal operation, selected by `fsm`, is the chip's operation. -/
theorem exec_internal_eq_next {s t : State} {i : Instr}
    (hi : i = .pad ∨ i = .load ∨ i = .expand ∨ i = .round ∨ i = .final ∨ i = .serialize)
    (h : exec i s = .next t) :
    s.chip.busy = true ∧ ∃ c, s.chip.operation = .ok c ∧ t = s.withChip c := by
  obtain rfl | rfl | rfl | rfl | rfl | rfl := hi <;>
    · obtain ⟨hf, c, hc, -, rfl⟩ := internalStep_eq_next_iff.mp h
      exact ⟨by rw [Chip.busy, hf]; rfl, c, by simp only [Chip.operation, hf, hc], rfl⟩

/-- R184's rows of the engine, all at once. -/
theorem Chip.fsm_of_operation {c c' : Chip} (h : c.operation = .ok c') : c'.fsm = fsmAfterEngine c := by
  cases hf : c.fsm with simp only [Chip.operation, hf] at h
  | pad => exact padOp_fsm hf h
  | load => exact loadOp_fsm hf h
  | expand => exact expandOp_fsm hf h
  | round => exact roundOp_fsm hf h
  | final => exact finalOp_fsm hf h
  | serialize => exact serializeOp_fsm hf h
  | idle | absorb | done | error =>
    obtain rfl := Except.ok.inj h
    exact (fsmAfterEngine_of_quiescent (by rw [hf]; rfl)).symm
  | unused n => cases h

theorem fsmAfterEngine_of_busy {c : Chip} (hb : c.busy = true) :
    fsmAfterEngine c ≠ .error ∧ fsmAfterEngine c ≠ .idle := by
  obtain hf | hf | hf | hf | hf | hf := c.busy_iff.mp hb <;> simp only [fsmAfterEngine, hf]
  case inr.inl | inr.inr.inr.inr.inr => simp
  all_goals split_ifs <;> simp

/-- Settles O33: what the operation keeps, and R184's rows for where it leads. -/
theorem engineOperationsRaiseNoError : Obligations.EngineOperationsRaiseNoError := by
  intro s t i hi h
  obtain ⟨hb, c, hc, rfl⟩ := exec_internal_eq_next hi h
  obtain ⟨hinput, hlength, hseq, hL⟩ := Chip.sameFlagsAndLength_of_operation hc
  obtain ⟨hne, hni⟩ := fsmAfterEngine_of_busy hb
  rw [← Chip.fsm_of_operation hc] at hne hni
  exact ⟨hinput, hlength, hseq, hne, hni, hL, s.sameHost_withChip c⟩

/-! What a step does to the chip. -/

theorem opensOrResets_chip {s t : State} (ho : s.OpensOrResets) (h : step s = .next t) :
    t.chip = Chip.reset ∨ t.chip = s.chip.openJob := by
  obtain hu | ⟨hu, hw⟩ := ho
  · obtain rfl := Host.Outcome.next.inj ((step_of_reset hu).symm.trans h)
    exact .inl rfl
  · obtain ⟨ws, hws⟩ := List.head?_eq_some_iff.mp hw
    rw [step_of_host_cons hu hws] at h
    obtain ⟨-, ht⟩ := unlessUnused_eq_next_iff.mp h
    obtain rfl := Host.Outcome.next.inj ht
    exact .inr rfl

/-- A step that neither accepts a START nor has reset active: the chip stays, an error is taken, DATA or END
acts in ABSORB, or the engine performs its operation. -/
theorem step_chip_cases {s t : State} (hn : ¬ s.OpensOrResets) (h : step s = .next t) :
    t.chip = s.chip ∨
    (t.chip = s.chip.raise .input) ∨
    ((s.chip.fsm = .idle ∨ s.chip.fsm = .done ∨ s.chip.fsm = .error) ∧ t.chip = s.chip.raise .seq) ∨
    (s.chip.fsm = .absorb ∧ t.chip = s.chip.raise .lengthLimit) ∨
    (s.chip.fsm = .absorb ∧ s.nextTurn = .host ∧ ∃ b : Byte, s.offers.head? = some (0x2000#16 ||| b.setWidth 16) ∧
      ({ s.chip with L := s.chip.L + 8 } : Chip).append b .none = .ok t.chip) ∨
    (s.chip.fsm = .absorb ∧ t.chip = { s.chip with padStage := .mark, fsm := .pad }) ∨
    (s.nextTurn = .engine ∧ s.chip.operation = .ok t.chip) := by
  obtain ⟨hu, -⟩ | ⟨-, -, rfl⟩ | ⟨hu, w, ws, ho, hx⟩ | ⟨hu, c, hc, rfl⟩ := step_eq_next_agents h
  · exact absurd (.inl hu) hn
  · exact .inl rfl
  · obtain ⟨-, -, rfl⟩ | ⟨-, -, rfl⟩ | ⟨-, -, r, rfl⟩ | ⟨rfl, -⟩ | ⟨-, -, hf, -, rfl⟩ |
      ⟨hl, hop, hf, -, c, happ, rfl⟩ | ⟨-, -, hf, rfl⟩ | ⟨-, -, hf, rfl⟩ | ⟨-, -, -, rfl⟩ := exec_offered_cases hx
    · exact .inr (.inl rfl)
    · exact .inl rfl
    · exact .inl rfl
    · exact absurd (.inr ⟨hu, by simp [ho]⟩) hn
    · exact .inr (.inr (.inr (.inl ⟨hf, rfl⟩)))
    · refine .inr (.inr (.inr (.inr (.inl ⟨hf, hu, Cmd.arg w, ?_, happ⟩))))
      rw [data_word_eq, ← hop, ← Cmd.eq_cmdWord_of_legal hl, ho, List.head?_cons]
    · exact .inr (.inr (.inr (.inr (.inr (.inl ⟨hf, rfl⟩)))))
    · exact .inr (.inr (.inl ⟨hf, rfl⟩))
    · exact .inl rfl
  · exact .inr (.inr (.inr (.inr (.inr (.inr ⟨hu, hc⟩)))))

/-! What holds across a step. -/

/-- Settles O40: in ERROR the effects left are those of a reading command, a held word and error entry. -/
theorem errorLeftOnlyByStartOrReset : Obligations.ErrorLeftOnlyByStartOrReset := by
  intro s t hf hn h
  obtain hc | hc | ⟨-, hc⟩ | ⟨ha, -⟩ | ⟨ha, -⟩ | ⟨ha, -⟩ | ⟨-, hop⟩ := step_chip_cases hn h
  · rw [hc]; exact ⟨rfl, id, id⟩
  · rw [hc]; exact ⟨by simp only [Chip.raise, hf], fun _ => rfl, id⟩
  · rw [hc]; exact ⟨by simp only [Chip.raise, hf], id, fun _ => rfl⟩
  · simp [hf] at ha
  · simp [hf] at ha
  · simp [hf] at ha
  · rw [Chip.operation_of_quiescent (by rw [hf]; rfl)] at hop
    rw [← Except.ok.inj hop]
    exact ⟨rfl, id, id⟩

/-- Every error flag set in `c` is set in `c'`. -/
def Chip.FlagsStay (c c' : Chip) : Prop :=
  (c.errInput = true → c'.errInput = true) ∧ (c.errLength = true → c'.errLength = true) ∧
    (c.errSeq = true → c'.errSeq = true)

theorem Chip.SameFlagsAndLength.flagsStay {c c' : Chip} (h : c.SameFlagsAndLength c') : c.FlagsStay c' := by
  obtain ⟨hi, hl, hs, -⟩ := h
  exact ⟨hi ▸ id, hl ▸ id, hs ▸ id⟩

theorem Chip.flagsStay_raise (c : Chip) (e : ErrorKind) : c.FlagsStay (c.raise e) := by
  cases e <;> simp [Chip.FlagsStay]

theorem Chip.append_sameFlagsAndLength {c c' : Chip} {v : Byte} {ps : PadStage} (h : c.append v ps = .ok c') :
    c.SameFlagsAndLength c' := by
  rw [Chip.append_of_le v ps (Chip.le_of_append_ok h)] at h
  rw [← Except.ok.inj h]
  exact ⟨rfl, rfl, rfl, rfl⟩

/-- Settles O41: error entry only sets a flag, and no other effect than START and reset touches one. -/
theorem errorFlagsAreSticky : Obligations.ErrorFlagsAreSticky := by
  intro s t h
  refine ⟨fun ho => ?opens, fun hn => ?stays⟩
  case opens => obtain hc | hc := opensOrResets_chip ho h <;> rw [hc] <;> exact ⟨rfl, rfl, rfl⟩
  case stays =>
    change s.chip.FlagsStay t.chip
    obtain hc | hc | ⟨-, hc⟩ | ⟨-, hc⟩ | ⟨-, -, b, -, happ⟩ | ⟨-, hc⟩ | ⟨-, hop⟩ := step_chip_cases hn h
    · rw [hc]; exact ⟨id, id, id⟩
    · rw [hc]; exact s.chip.flagsStay_raise .input
    · rw [hc]; exact s.chip.flagsStay_raise .seq
    · rw [hc]; exact s.chip.flagsStay_raise .lengthLimit
    · exact (Chip.append_sameFlagsAndLength happ).flagsStay
    · rw [hc]; exact ⟨id, id, id⟩
    · exact (Chip.sameFlagsAndLength_of_operation hop).flagsStay

/-- Settles O42: in DONE the effects left are those of a reading command and error entry. -/
theorem digestStableAfterDone : Obligations.DigestStableAfterDone := by
  intro s t hf hn h
  obtain hc | hc | ⟨-, hc⟩ | ⟨ha, -⟩ | ⟨ha, -⟩ | ⟨ha, -⟩ | ⟨-, hop⟩ := step_chip_cases hn h
  · rw [hc]; exact ⟨rfl, rfl, .inl hf⟩
  · rw [hc]; exact ⟨rfl, rfl, .inr rfl⟩
  · rw [hc]; exact ⟨rfl, rfl, .inr rfl⟩
  · simp [hf] at ha
  · simp [hf] at ha
  · simp [hf] at ha
  · rw [Chip.operation_of_quiescent (by rw [hf]; rfl)] at hop
    rw [← Except.ok.inj hop]
    exact ⟨rfl, rfl, .inl hf⟩

/-- Settles O43: APPEND keeps the L that DATA has counted up, and no other effect touches it. -/
theorem lengthChangesOnlyByData : Obligations.LengthChangesOnlyByData := by
  intro s t h
  refine ⟨fun ho => ?opens, fun hn => ?counts⟩
  case opens => obtain hc | hc := opensOrResets_chip ho h <;> rw [hc] <;> rfl
  case counts =>
    obtain hc | hc | ⟨-, hc⟩ | ⟨-, hc⟩ | ⟨hf, hu, b, ho, happ⟩ | ⟨-, hc⟩ | ⟨-, hop⟩ := step_chip_cases hn h
    · rw [hc]; exact .inl rfl
    · rw [hc]; exact .inl rfl
    · rw [hc]; exact .inl rfl
    · rw [hc]; exact .inl rfl
    · obtain ⟨-, -, -, hL⟩ := Chip.append_sameFlagsAndLength happ
      exact .inr ⟨hL, hf, hu, b, ho⟩
    · rw [hc]; exact .inl rfl
    · obtain ⟨-, -, -, hL⟩ := Chip.sameFlagsAndLength_of_operation hop
      exact .inl hL

theorem Chip.append_H {c c' : Chip} {v : Byte} {ps : PadStage} (h : c.append v ps = .ok c') : c'.H = c.H := by
  rw [Chip.append_of_le v ps (Chip.le_of_append_ok h)] at h
  rw [← Except.ok.inj h]

/-- Settles O44: of the effects of a step, H is in those of START, reset and FINAL alone. -/
theorem hashWrittenOnlyByStartFinalReset : Obligations.HashWrittenOnlyByStartFinalReset := by
  intro s t h
  by_cases hn : s.OpensOrResets
  · exact .inr (.inl hn)
  obtain hc | hc | ⟨-, hc⟩ | ⟨-, hc⟩ | ⟨-, -, b, -, happ⟩ | ⟨-, hc⟩ | ⟨hu, hop⟩ := step_chip_cases hn h
  · rw [hc]; exact .inl rfl
  · rw [hc]; exact .inl rfl
  · rw [hc]; exact .inl rfl
  · rw [hc]; exact .inl rfl
  · exact .inl (Chip.append_H (c := { s.chip with L := s.chip.L + 8 }) happ)
  · rw [hc]; exact .inl rfl
  · by_cases hf : s.chip.fsm = .final
    · exact .inr (.inr ⟨hu, hf⟩)
    · exact .inl (Chip.H_of_operation hop hf)

end Sys2Proof.Machine
end

section
/-! PROOFS. Where the machine stops (spec/60_exceptions.md R235, spec/10_state.md R39): an unused code of
`fsm`, a broken precondition, an absent operand, and a state that breaks R40's table. -/
namespace Sys2Proof.Machine

/-! A code that no rule writes (R88). -/

section
variable {s : State} {n : Fin 6}

theorem sequencedStep_of_unused {act : Chip → Except Fault Chip} (hf : s.chip.fsm = .unused n) :
    sequencedStep act s = .fault (.unusedFsm n) := by
  simp [sequencedStep, hf]

theorem exec_offered_of_unused (hf : s.chip.fsm = .unused n) (w : Cmd) :
    exec (decodeCmd w) s = .fault (.unusedFsm n) := by
  cases hl : legal w with
  | false =>
    have hr : s.chip.cmdReady w = true := Chip.cmdReady_of_not_busy (by rw [Chip.busy, hf]; rfl)
    rw [decodeCmd_of_not_legal hl]
    exact (if_pos hr).trans (unlessUnused_of_unused hf)
  | true =>
    obtain ⟨-, hd⟩ | ⟨-, hd⟩ | ⟨-, hd⟩ | ⟨-, hd⟩ | ⟨-, hd⟩ | ⟨-, hd⟩ := decodeCmd_of_legal hl <;> rw [hd]
    · exact unlessUnused_of_unused hf
    · exact unlessUnused_of_unused hf
    · exact sequencedStep_of_unused hf
    · exact sequencedStep_of_unused (act := endAbsorb) hf
    · exact unlessUnused_of_unused hf
    · exact (if_neg (by simp [hf])).trans (unlessUnused_of_unused hf)

theorem step_of_unused (hu : s.nextTurn ≠ .reset) (hf : s.chip.fsm = .unused n) :
    step s = .fault (.unusedFsm n) := by
  cases ht : s.nextTurn with
  | reset => exact absurd ht hu
  | engine => exact step_of_engine_unused ht hf
  | host =>
    cases ho : s.offers with
    | nil =>
      simp [step, takeTurn, ht, hostTurn, ho, unlessUnused_of_unused (s := s.endTurn) hf]
    | cons w ws => exact (step_of_host_cons ht ho).trans (exec_offered_of_unused (s := s.endTurn) hf w)

end

/-! The preconditions of the engine's operations. -/

section
variable {c : Chip}

theorem padOp_of_len {c : Chip} (hs : c.padStage = .len) (hbc : c.bc.toNat < 57) :
    padOp c = .error .lengthByteIndex := by
  have : ¬ 57 ≤ c.bc.toNat := by omega
  simp [padOp, hs, this]

theorem padOp_of_full (hs : c.padStage ≠ .none) (hbc : 64 ≤ c.bc.toNat) : padOp c = .error .blockFull := by
  unfold padOp
  cases h : c.padStage with
  | none => exact absurd h hs
  | mark => exact Chip.append_of_gt (c := { c with padStage := .fill }) _ _ hbc
  | fill =>
    have h56 : c.bc ≠ 56#7 := fun h => by simp [h] at hbc
    simp only [if_neg h56]
    exact Chip.append_of_gt _ _ hbc
  | len =>
    have h57 : 57 ≤ c.bc.toNat := by omega
    simp only [if_pos h57]
    exact Chip.append_of_gt _ _ hbc

theorem loadOp_of_not_full (hbc : c.bc ≠ 64#7) : loadOp c = .error .blockNotFull := if_neg hbc

theorem expandOp_of_low (ht : c.t.toNat < 16) : expandOp c = .error .scheduleIndex := if_neg (by omega)

end

/-- Settles O34: each named fault is that of the first check that fails. -/
theorem brokenPreconditionsFault : Obligations.BrokenPreconditionsFault := by
  intro s
  refine ⟨fun n hu hf => step_of_unused hu hf, fun n w hf => exec_offered_of_unused hf w, ?padNone, ?padLen,
    ?padFull, ?data, ?load, ?expand⟩
  case padNone => exact fun hf hs => internalStep_of_error hf (padOp_none hs)
  case padLen => exact fun hf hs hbc => internalStep_of_error hf (padOp_of_len hs hbc)
  case padFull => exact fun hf hs hbc => internalStep_of_error hf (padOp_of_full hs hbc)
  case data =>
    intro b hf hm hbc
    have happ := Chip.append_of_gt (c := { s.chip with L := s.chip.L + 8 }) b .none hbc
    have hop := (dataAbsorb_of_room b hm).trans happ
    simp [exec, execData, sequencedStep, hf, hop]
  case load => exact fun hf hbc => internalStep_of_error hf (loadOp_of_not_full hbc)
  case expand => exact fun hf ht => internalStep_of_error hf (expandOp_of_low ht)

/-! Absent operands (R39). -/

section
variable {c : Chip}

theorem Chip.readSchedule_of_absent {i : Nat} (h : c.schedule? i = none) :
    c.readSchedule i = .error (.absentRead .schedule) := by
  simp [Chip.readSchedule, h]

theorem loadOp_of_absent_block {i : Fin 64} (hbc : c.bc = 64#7) (hB : c.B[i] = none) :
    loadOp c = .error (.absentRead .block) := by
  simp [loadOp, hbc, Chip.readBlock_of_absent hB]

theorem loadOp_of_absent_hash (hbc : c.bc = 64#7) (hB : ∀ i : Fin 64, (c.B[i]).isSome = true) (hH : c.H = none) :
    loadOp c = .error (.absentRead .hashState) := by
  obtain ⟨bytes, hbytes⟩ := exists_vector_of_isSome hB
  simp [loadOp, hbc, Chip.readBlock_eq_ok_iff.mpr hbytes, Chip.readHash, hH]

theorem expandOp_of_absent (ht : 16 ≤ c.t.toNat)
    (hW : c.schedule? (c.t.toNat - 2) = none ∨ c.schedule? (c.t.toNat - 7) = none ∨
      c.schedule? (c.t.toNat - 15) = none ∨ c.schedule? (c.t.toNat - 16) = none) :
    expandOp c = .error (.absentRead .schedule) := by
  unfold expandOp Chip.readSchedule
  rw [if_pos ht]
  cases h2 : c.schedule? (c.t.toNat - 2) <;> cases h7 : c.schedule? (c.t.toNat - 7) <;>
    cases h15 : c.schedule? (c.t.toNat - 15) <;> cases h16 : c.schedule? (c.t.toNat - 16) <;>
    simp_all

theorem roundOp_of_absent_work (hV : c.V = none) : roundOp c = .error (.absentRead .working) := by
  simp [roundOp, Chip.readWork, hV]

theorem roundOp_of_absent_word (hV : c.V ≠ none) (hW : c.schedule? c.t.toNat = none) :
    roundOp c = .error (.absentRead .schedule) := by
  obtain ⟨v, hv⟩ := Option.ne_none_iff_exists'.mp hV
  simp [roundOp, Chip.readWork, hv, Chip.readSchedule_of_absent hW]

theorem finalOp_of_absent_hash (hH : c.H = none) : finalOp c = .error (.absentRead .hashState) := by
  simp [finalOp, Chip.readHash, hH]

theorem finalOp_of_absent_work (hH : c.H ≠ none) (hV : c.V = none) :
    finalOp c = .error (.absentRead .working) := by
  obtain ⟨H, hH⟩ := Option.ne_none_iff_exists'.mp hH
  simp [finalOp, Chip.readHash, hH, Chip.readWork, hV]

theorem serializeOp_of_absent (hH : c.H = none) : serializeOp c = .error (.absentRead .hashState) := by
  simp [serializeOp, Chip.readHash, hH]

end

/-- Settles O35: each read that finds nothing is its operation's fault. -/
theorem absentReadsFault : Obligations.AbsentReadsFault := by
  intro s
  refine ⟨?block, ?loadHash, ?schedule, ?work, ?word, ?finalHash, ?finalWork, ?serialize, ?digest⟩
  case block => exact fun hf hbc ⟨i, hB⟩ => internalStep_of_error hf (loadOp_of_absent_block hbc hB)
  case loadHash => exact fun hf hbc hB hH => internalStep_of_error hf (loadOp_of_absent_hash hbc hB hH)
  case schedule => exact fun hf ht hW => internalStep_of_error hf (expandOp_of_absent ht hW)
  case work => exact fun hf hV => internalStep_of_error hf (roundOp_of_absent_work hV)
  case word => exact fun hf hV hW => internalStep_of_error hf (roundOp_of_absent_word hV hW)
  case finalHash => exact fun hf hH => internalStep_of_error hf (finalOp_of_absent_hash hH)
  case finalWork => exact fun hf hH hV => internalStep_of_error hf (finalOp_of_absent_work hH hV)
  case serialize => exact fun hf hH => internalStep_of_error hf (serializeOp_of_absent hH)
  case digest => intro i hf hd; simp [exec, execRdhex, hf, Chip.readDigest, hd]

/-! States that break R40's table. -/

theorem internalStep_faults_of_broken {sel : Fsm} {op : Chip → Except Fault Chip} {s : State}
    (hr : ¬ s.chip.R40 s.maxMsgBytes.val) : ∃ f, internalStep sel op s = .fault f := by
  by_cases hf : s.chip.fsm = sel
  · cases hop : op s.chip with
    | ok c => exact ⟨_, internalStep_of_broken hf hop hr⟩
    | error f => exact ⟨f, internalStep_of_error hf hop⟩
  · exact ⟨.notSelected, if_neg hf⟩

/-- What `fsm` decodes to is an internal operation. -/
theorem exec_decodeFsm {c : BitVec 4} {i : Instr} (h : decodeFsm c = .ok i) :
    ∃ sel op, ∀ s, exec i s = internalStep sel op s := by
  revert h
  unfold decodeFsm
  split_ifs <;> intro h <;> cases h
  · exact ⟨.pad, padOp, fun _ => rfl⟩
  · exact ⟨.load, loadOp, fun _ => rfl⟩
  · exact ⟨.expand, expandOp, fun _ => rfl⟩
  · exact ⟨.round, roundOp, fun _ => rfl⟩
  · exact ⟨.final, finalOp, fun _ => rfl⟩
  · exact ⟨.serialize, serializeOp, fun _ => rfl⟩

/-- Settles O59: the check of R40's table comes after the operation's own checks and reads, so it alone is
left where those pass. -/
theorem brokenInvariantStopsOperation : Obligations.BrokenInvariantStopsOperation := by
  intro s hr
  refine ⟨?any, ?pad, ?load, ?expand, ?round, ?final, ?serialize⟩
  case any =>
    intro i hd
    obtain ⟨sel, op, hexec⟩ := exec_decodeFsm hd
    exact hexec s ▸ internalStep_faults_of_broken hr
  case pad =>
    intro hf hs hbc hlen
    obtain ⟨c, hc⟩ := padOp_answers hbc hs hlen
    exact internalStep_of_broken hf hc hr
  case load =>
    intro hf hbc hB hH
    obtain ⟨bytes, hbytes⟩ := exists_vector_of_isSome hB
    obtain ⟨H, hH⟩ := Option.isSome_iff_exists.mp hH
    exact internalStep_of_broken hf (loadOp_eq_ok_iff.mpr ⟨hbc, bytes, H, hbytes, hH, rfl⟩) hr
  case expand =>
    intro hf ht h2 h7 h15 h16
    obtain ⟨w2, h2⟩ := Option.isSome_iff_exists.mp h2
    obtain ⟨w7, h7⟩ := Option.isSome_iff_exists.mp h7
    obtain ⟨w15, h15⟩ := Option.isSome_iff_exists.mp h15
    obtain ⟨w16, h16⟩ := Option.isSome_iff_exists.mp h16
    exact internalStep_of_broken hf (expandOp_eq_ok_iff.mpr ⟨ht, w2, w7, w15, w16, h2, h7, h15, h16, rfl⟩) hr
  case round =>
    intro hf hV hW
    obtain ⟨v, hv⟩ := Option.isSome_iff_exists.mp hV
    obtain ⟨w, hw⟩ := Option.isSome_iff_exists.mp hW
    exact internalStep_of_broken hf (roundOp_eq_ok_iff.mpr ⟨v, w, hv, hw, rfl⟩) hr
  case final =>
    intro hf hH hV
    obtain ⟨H, hH⟩ := Option.isSome_iff_exists.mp hH
    obtain ⟨v, hv⟩ := Option.isSome_iff_exists.mp hV
    exact internalStep_of_broken hf (finalOp_eq_ok_iff.mpr ⟨H, v, hH, hv, rfl⟩) hr
  case serialize =>
    intro hf hH
    obtain ⟨H, hH⟩ := Option.isSome_iff_exists.mp hH
    exact internalStep_of_broken hf (serializeOp_eq_ok_iff.mpr ⟨H, hH, rfl⟩) hr

end Sys2Proof.Machine
end

section
/-! PROOFS. The algorithm's functions: Ch and Maj bit by bit (spec/42_compression_engine.md R155, R156), the
ROMs (R150, R151), the length of the padded message (spec/40_padder_parser.md R101) and the digits of the
digest (spec/43_digest_serializer.md R181). -/
namespace Sys2Proof.Machine

theorem getLsbD_ch (x y z : Word) {i : Nat} (hi : i < 32) :
    (ch x y z).getLsbD i = if x.getLsbD i then y.getLsbD i else z.getLsbD i := by
  simp only [ch, BitVec.getLsbD_xor, BitVec.getLsbD_and, BitVec.getLsbD_not, hi, decide_true, Bool.true_and]
  cases x.getLsbD i <;> simp

theorem getLsbD_maj (x y z : Word) (i : Nat) :
    (maj x y z).getLsbD i = true ↔
      2 ≤ (x.getLsbD i).toNat + (y.getLsbD i).toNat + (z.getLsbD i).toNat := by
  simp only [maj, BitVec.getLsbD_xor, BitVec.getLsbD_and]
  generalize x.getLsbD i = a, y.getLsbD i = b, z.getLsbD i = c
  revert a b c
  decide

/-- Settles O46: both are Boolean functions of the three bits at one place. -/
theorem chooseAndMajorityBitByBit : Obligations.ChooseAndMajorityBitByBit :=
  fun x y z i hi => ⟨getLsbD_ch x y z hi, getLsbD_maj x y z i⟩

/-! The ROMs. -/

/-- A number is prime when no number up to its square root divides it; below 312 that is 17. -/
theorem prime_iff_of_lt_312 {n : Nat} (hn : n < 312) :
    Nat.Prime n ↔ 2 ≤ n ∧ ∀ d < 18, 2 ≤ d → d * d ≤ n → ¬ d ∣ n := by
  rw [Nat.prime_def_le_sqrt]
  refine and_congr_right fun _ => ⟨fun h d _ h2 hd => h d h2 (Nat.le_sqrt.mpr hd), fun h d h2 hd => ?_⟩
  have hdd := Nat.le_sqrt.mp hd
  exact h d (by nlinarith) h2 hdd

theorem prime_iff_mem_romPrimes : ∀ n, n < 312 → (Nat.Prime n ↔ n ∈ romPrimes) := by
  have checked : ∀ n < 312, (2 ≤ n ∧ ∀ d < 18, 2 ≤ d → d * d ≤ n → ¬ d ∣ n) ↔ n ∈ romPrimes := by
    decide +kernel
  exact fun n hn => (prime_iff_of_lt_312 hn).trans (checked n hn)

/-- The integer part of the cube root of a number below 343. -/
def cubeRootFloor (p : Nat) : Nat :=
  if p < 8 then 1 else if p < 27 then 2 else if p < 64 then 3
  else if p < 125 then 4 else if p < 216 then 5 else 6

/-- The 32 fraction bits of `K[i]` under the integer part of the cube root. -/
def cubeRootWithFraction (i : Nat) : Nat :=
  cubeRootFloor (romPrimes.getD i 0) * 2 ^ 32 + (K (BitVec.ofNat 6 i)).toNat

theorem K_is_cube_root (i : Nat) (hi : i < 64) :
    cubeRootWithFraction i ^ 3 ≤ romPrimes.getD i 0 * 2 ^ 96 ∧
      romPrimes.getD i 0 * 2 ^ 96 < (cubeRootWithFraction i + 1) ^ 3 := by
  revert i
  decide

/-- The integer part of the square root of a number below 25. -/
def squareRootFloor (p : Nat) : Nat :=
  if p < 4 then 1 else if p < 9 then 2 else if p < 16 then 3 else 4

/-- The 32 fraction bits of `IV[i]` under the integer part of the square root. -/
def squareRootWithFraction (i : Fin 8) : Nat :=
  squareRootFloor (romPrimes.getD i.val 0) * 2 ^ 32 + (IV[i]).toNat

theorem IV_is_square_root (i : Fin 8) :
    squareRootWithFraction i ^ 2 ≤ romPrimes.getD i.val 0 * 2 ^ 64 ∧
      romPrimes.getD i.val 0 * 2 ^ 64 < (squareRootWithFraction i + 1) ^ 2 := by
  revert i
  decide

theorem word_eq_mod (q : Nat) (x : Word) : x.toNat = (q * 2 ^ 32 + x.toNat) % 2 ^ 32 := by
  have := x.isLt
  omega

/-- Settles O48: each root is its integer part and the ROM's word, checked in exact integers. -/
theorem romsHoldRootsOfPrimes : Obligations.RomsHoldRootsOfPrimes := by
  refine ⟨prime_iff_mem_romPrimes, rfl, by decide, fun i hi => ?cube, fun i => ?square⟩
  case cube =>
    obtain ⟨hlow, hhigh⟩ := K_is_cube_root i hi
    exact ⟨cubeRootWithFraction i, hlow, hhigh, word_eq_mod _ _⟩
  case square =>
    obtain ⟨hlow, hhigh⟩ := IV_is_square_root i
    exact ⟨squareRootWithFraction i, hlow, hhigh, word_eq_mod _ _⟩

/-! The padded message. -/

theorem padMessage_length (m : List Byte) : (padMessage m).length = m.length + 9 + zeroBytes m.length := by
  simp only [padMessage, List.length_append, List.length_cons, List.length_nil, List.length_replicate,
    lengthField_length]
  omega

theorem padMessage_length_eq_blocks (m : List Byte) : (padMessage m).length = 64 * nblocks m.length := by
  have hmod := zeroBytes_mod m.length
  have hlt := zeroBytes_lt m.length
  rw [padMessage_length, nblocks]
  omega

theorem parse_length (m : List Byte) : (parse (padMessage m)).length = nblocks m.length := by
  simp [parse, padMessage_length_eq_blocks]

/-- Settles O49: the four parts' lengths, and the zero bytes fill the last block. -/
theorem paddedLengthAndBlocks : Obligations.PaddedLengthAndBlocks := by
  intro m
  have hlen := padMessage_length m
  have hlt := zeroBytes_lt m.length
  refine ⟨?_, padMessage_length_eq_blocks m, parse_length m, by omega, by omega⟩
  rw [hlen, zeroBytes]
  omega

/-! The digits. -/

theorem hexchar_mem (v : BitVec 4) :
    (0x30 ≤ (hexchar v).toNat ∧ (hexchar v).toNat ≤ 0x39) ∨
      (0x61 ≤ (hexchar v).toNat ∧ (hexchar v).toNat ≤ 0x66) := by
  revert v; decide

/-- Settles O51: every character is the `hexchar` of a digit. -/
theorem digestCharactersAreLowercaseHex : Obligations.DigestCharactersAreLowercaseHex := by
  intro H i
  rw [serializeHash_get]
  exact hexchar_mem _

end Sys2Proof.Machine
end

section
/-! PROOFS. A block in flight (spec/41_schedule_expander.md R134, spec/42_compression_engine.md R160): the
recurrence of `expand`, what each step of LOAD, EXPAND, ROUND and FINAL keeps of a block being folded, and
the two phases as runs. -/
namespace Sys2Proof.Machine

/-! The recurrence of `expand(block)` (R132). -/

/-- The steps from word `a` on leave the words below `a`. -/
theorem foldl_expandStep_get_of_lt (n : Nat) {a i : Nat} (W : Vector Word 64) (hi : i < 64) (h : i < a) :
    ((List.range' a n).foldl expandStep W)[i] = W[i] := by
  induction n generalizing a W with
  | zero => rfl
  | succ n ih =>
    rw [List.range'_succ, List.foldl_cons, ih (expandStep W a) (by omega)]
    exact expandStep_get_of_ne hi (by omega)

theorem expandBlock_get_low (block : Vector Word 16) {i : Nat} (hi : i < 16) :
    (expandBlock block)[i]'(by omega) = block[i] := by
  rw [expandBlock, foldl_expandStep_get_of_lt _ _ (by omega) hi]
  simp [hi]

/-- Word `t` is computed from the finished words before it. -/
theorem expandBlock_get_high (block : Vector Word 16) {t : Nat} (hlow : 16 ≤ t) (hhigh : t < 64) :
    (expandBlock block)[t] =
      scheduleWord ((expandBlock block)[t - 2]'(by omega)) ((expandBlock block)[t - 7]'(by omega))
        ((expandBlock block)[t - 15]'(by omega)) ((expandBlock block)[t - 16]'(by omega)) := by
  obtain ⟨k, rfl⟩ := Nat.exists_eq_add_of_le hlow
  have hsplit : List.range' 16 48 = List.range' 16 k ++ (16 + k) :: List.range' (16 + k + 1) (47 - k) := by
    rw [← List.range'_succ, List.range'_append_1]
    congr 1
    omega
  unfold expandBlock
  rw [hsplit, List.foldl_append, List.foldl_cons]
  generalize (List.range' 16 k).foldl expandStep _ = W
  have hbelow {i : Nat} (hi : i < 16 + k) :
      ((List.range' (16 + k + 1) (47 - k)).foldl expandStep (expandStep W (16 + k)))[i]'(by omega) =
        W[i]'(by omega) := by
    rw [foldl_expandStep_get_of_lt _ _ (by omega) (by omega), expandStep_get_of_ne (by omega) (by omega)]
  rw [foldl_expandStep_get_of_lt _ _ hhigh (by omega), expandStep_get_self ⟨hlow, by omega⟩,
    hbelow (by omega), hbelow (by omega), hbelow (by omega), hbelow (by omega)]

/-! EXPAND on a schedule that is `expand(block)` below `t`. -/

/-- The schedule agrees with `expand(block)` below `n`. -/
def Chip.ExpandedBelow (c : Chip) (block : Vector Word 16) (n : Nat) : Prop :=
  ∀ i : Fin 64, i.val < n → c.W[i] = some (expandBlock block)[i]

section
variable {c : Chip} {block : Vector Word 16}

theorem Chip.ExpandedBelow.schedule? {n i : Nat} (h : c.ExpandedBelow block n) (hi : i < 64) (hn : i < n) :
    c.schedule? i = some (expandBlock block)[i] :=
  (Chip.schedule?_of_lt hi).trans (h ⟨i, hi⟩ hn)

theorem Chip.ExpandedBelow.filled {n : Nat} (h : c.ExpandedBelow block n) : c.ScheduleFilled n :=
  fun i hi => by rw [h i hi]; rfl

/-- The chip after EXPAND has written the next word of `expand(block)`. -/
def Chip.expanded (c : Chip) (block : Vector Word 16) : Chip :=
  { c with
    W := c.W.set c.t.toNat (some ((expandBlock block)[c.t.toNat]'c.t.isLt)) c.t.isLt
    t := nextCount c.t
    fsm := if c.t = 63#6 then .round else c.fsm }

theorem expandOp_of_expandedBelow (hlow : 16 ≤ c.t.toNat) (h : c.ExpandedBelow block c.t.toNat) :
    expandOp c = .ok (c.expanded block) := by
  have hlt := c.t.isLt
  have hop := expandOp_eq_ok_iff.mpr ⟨hlow, _, _, _, _, h.schedule? (by omega) (by omega),
    h.schedule? (by omega) (by omega), h.schedule? (by omega) (by omega), h.schedule? (by omega) (by omega), rfl⟩
  rw [hop, Chip.expanded, expandBlock_get_high block hlow hlt]

theorem Chip.ExpandedBelow.succ (h : c.ExpandedBelow block c.t.toNat) :
    (c.expanded block).ExpandedBelow block (c.t.toNat + 1) := by
  intro i hi
  refine (schedule_set_get c.W c.t _ i).trans ?_
  split
  · next heq => simp only [Fin.getElem_fin, heq]
  · exact h i (by omega)

end

/-- R40's table is kept while the row "any" says the same: only the row of the new state is asked for. -/
theorem Chip.R40.of_row {c c' : Chip} {m : Nat} (h : c.R40 m) (hL : c'.L = c.L) (hlast : c'.last = c.last)
    (hps : c'.padStage = c.padStage) (hrow : c'.meetsOwnRow = true) : c'.R40 m := by
  obtain ⟨hL8, hLm, hl⟩ := h.any
  exact Chip.r40_iff.mpr ⟨⟨by rwa [hL], by rwa [hL], by rwa [hlast, hps]⟩, hrow⟩

theorem Chip.R40.expanded {c : Chip} {block : Vector Word 16} {m : Nat} (h : c.R40 m) (hf : c.fsm = .expand)
    (hW : c.ExpandedBelow block c.t.toNat) : (c.expanded block).R40 m := by
  obtain ⟨hbc, hlow, -⟩ := h.expand hf
  refine h.of_row rfl rfl rfl ?_
  by_cases h63 : c.t = 63#6
  · simp only [Chip.meetsOwnRow, Chip.expanded, if_pos h63]
    exact decide_eq_true hbc
  · simp only [Chip.meetsOwnRow, Chip.expanded, if_neg h63, hf, nextCount_of_ne_63 h63, toNat_succ_of_ne_63 h63]
    exact decide_eq_true ⟨hbc, by omega, hW.succ.filled⟩

/-- With no turn fixed the engine's step in a busy state is its operation. -/
theorem step_of_busy {s : State} {c : Chip} (ht : s.turns = []) (hb : s.chip.busy = true)
    (hr : s.chip.R40 s.maxMsgBytes.val) (hop : s.chip.operation = .ok c) : step s = .next (s.withChip c) := by
  rw [step_of_operation (State.nextTurn_of_busy ht hb) hr hop, State.endTurn_of_turns_nil s ht]

theorem step_expand {s : State} {block : Vector Word 16} (ht : s.turns = []) (hf : s.chip.fsm = .expand)
    (hr : s.chip.R40 s.maxMsgBytes.val) (hW : s.chip.ExpandedBelow block s.chip.t.toNat) :
    step s = .next (s.withChip (s.chip.expanded block)) := by
  obtain ⟨-, hlow, -⟩ := hr.expand hf
  refine step_of_busy ht (by rw [Chip.busy, hf]; rfl) hr ?_
  simp only [Chip.operation, hf, expandOp_of_expandedBelow hlow hW]

/-- The steps of EXPAND from any index `t` on, `64 - t` in number. -/
theorem run_expand {s : State} {block : Vector Word 16} (n : Nat) (ht : s.turns = []) (hf : s.chip.fsm = .expand)
    (hr : s.chip.R40 s.maxMsgBytes.val) (hn : s.chip.t.toNat + n = 63)
    (hW : s.chip.ExpandedBelow block s.chip.t.toNat) :
    ∃ W : Vector (Option Word) 64, (∀ i : Fin 64, W[i] = some (expandBlock block)[i]) ∧
      run (n + 1) s = .next (s.withChip { s.chip with W := W, t := 0, fsm := .round }) := by
  induction n generalizing s with
  | zero =>
    have h63 : s.chip.t = 63#6 := BitVec.eq_of_toNat_eq hn
    refine ⟨(s.chip.expanded block).W, fun i => hW.succ i (by omega), ?_⟩
    rw [run_succ_of_next (step_expand ht hf hr hW), run_zero, Chip.expanded, nextCount_of_eq_63 h63, if_pos h63]
    rfl
  | succ n ih =>
    have h63 : s.chip.t ≠ 63#6 := fun h => by simp [h] at hn
    have ht' : (s.chip.expanded block).t.toNat = s.chip.t.toNat + 1 :=
      (congrArg BitVec.toNat (nextCount_of_ne_63 h63)).trans (toNat_succ_of_ne_63 h63)
    obtain ⟨W, hW', hrun⟩ := ih (s := s.withChip (s.chip.expanded block)) ht ((if_neg h63).trans hf)
      (hr.expanded hf hW) (by rw [State.withChip_chip, ht']; omega)
      (by rw [State.withChip_chip, ht']; exact hW.succ)
    exact ⟨W, hW', (run_succ_of_next (step_expand ht hf hr hW)).trans hrun⟩

theorem expandedBelow_16 {c : Chip} {block : Vector Word 16} (h : ∀ j : Fin 16, c.W[j.val] = some block[j]) :
    c.ExpandedBelow block 16 := by
  intro i hi
  refine (h ⟨i.val, hi⟩).trans ?_
  exact congrArg some (expandBlock_get_low block hi).symm

/-- Settles O52: the 48 steps from index 16. -/
theorem expandPhaseComputesSchedule : Obligations.ExpandPhaseComputesSchedule := by
  intro s block ht hf hr h16 hblock
  have hn : s.chip.t.toNat = 16 := by rw [h16]; rfl
  obtain ⟨W, hW, hrun⟩ := run_expand 47 ht hf hr (by omega) (by rw [hn]; exact expandedBelow_16 hblock)
  exact ⟨_, hrun, hW, rfl⟩

/-! A block being folded into the hash state. -/

/-- Folding `block` into the hash state `H`: what the chip holds in each state from LOAD to FINAL. -/
def Chip.Folds (c : Chip) (H : Vector Word 8) (block : Vector Word 16) : Prop :=
  c.H = some H ∧
    match c.fsm with
    | .load =>
      c.bc = 64#7 ∧ c.t = 0#6 ∧ ∃ bytes, blockWords bytes = block ∧ ∀ i : Fin 64, c.B[i] = some bytes[i]
    | .expand =>
      c.bc = 0#7 ∧ 16 ≤ c.t.toNat ∧ c.V = some (Work.ofHash H) ∧ c.ExpandedBelow block c.t.toNat
    | .round =>
      c.bc = 0#7 ∧ c.V = some (roundsFrom (Work.ofHash H) (expandBlock block) c.t.toNat) ∧
        c.ExpandedBelow block 64
    | .final => c.bc = 0#7 ∧ c.t = 0#6 ∧ c.V = some (roundsFrom (Work.ofHash H) (expandBlock block) 64)
    | .idle | .absorb | .pad | .serialize | .done | .error | .unused _ => False

/-- The steps left from LOAD to FINAL, that of FINAL included. -/
def Chip.flightLeft (c : Chip) : Nat :=
  match c.fsm with
  | .load => 114
  | .expand => 129 - c.t.toNat
  | .round => 65 - c.t.toNat
  | .final => 1
  | .idle | .absorb | .pad | .serialize | .done | .error | .unused _ => 0

/-- EXPAND and ROUND count `t` up, and their step at 63 hands over with 64 steps less. -/
theorem sub_nextCount {n : Nat} (hn : 65 ≤ n) (t : BitVec 6) :
    n - t.toNat = (if t = 63#6 then n - 64 else n - (nextCount t).toNat) + 1 := by
  have := t.isLt
  split
  case isTrue h63 => rw [h63]; change n - 63 = _; omega
  case isFalse h63 => rw [nextCount_of_ne_63 h63, toNat_succ_of_ne_63 h63]; omega

theorem Chip.flightLeft_of_operation {c c' : Chip} (h : c.operation = .ok c')
    (hf : c.fsm = .load ∨ c.fsm = .expand ∨ c.fsm = .round) : c.flightLeft = c'.flightLeft + 1 := by
  obtain hf | hf | hf := hf <;> simp only [Chip.operation, hf] at h <;> simp only [Chip.flightLeft, hf]
  · obtain ⟨-, bytes, H, -, -, rfl⟩ := loadOp_eq_ok_iff.mp h
    rfl
  · obtain ⟨-, w2, w7, w15, w16, -, -, -, -, rfl⟩ := expandOp_eq_ok_iff.mp h
    rw [sub_nextCount (by decide)]
    by_cases h63 : c.t = 63#6 <;> simp [h63, hf, nextCount]
  · obtain ⟨v, w, -, -, rfl⟩ := roundOp_eq_ok_iff.mp h
    rw [sub_nextCount (by decide)]
    by_cases h63 : c.t = 63#6 <;> simp [h63, hf]

/-- Only the elements that the folding of a block writes differ. -/
def Chip.SameButFold (c c' : Chip) : Prop :=
  c' = { c with H := c'.H, V := c'.V, W := c'.W, t := c'.t, bc := c'.bc, fsm := c'.fsm }

theorem Chip.SameButFold.trans {a b c : Chip} (h : a.SameButFold b) (h' : b.SameButFold c) : a.SameButFold c := by
  unfold Chip.SameButFold at *
  rw [h] at h'
  exact h'

/-- What a step of a block in flight leads to: one more step of the folding, or the folded block. -/
def Chip.FoldStep (c c' : Chip) (H : Vector Word 8) (block : Vector Word 16) : Prop :=
  c.SameButFold c' ∧
    ((c.fsm ≠ .final ∧ c'.Folds H block) ∨
      (c.fsm = .final ∧ c'.H = some (compress H (expandBlock block)) ∧
        c'.fsm = afterFinal c.last c.padStage ∧ c'.t = 0#6 ∧ c'.bc = 0#7))

section
variable {c : Chip} {H : Vector Word 8} {block : Vector Word 16}

theorem Chip.Folds.load_step (h : c.Folds H block) (hf : c.fsm = .load) :
    ∃ c', loadOp c = .ok c' ∧ c.FoldStep c' H block := by
  simp only [Chip.Folds, hf] at h
  obtain ⟨hH, hbc, -, bytes, rfl, hB⟩ := h
  refine ⟨_, loadOp_eq_ok_iff.mpr ⟨hbc, bytes, H, hB, hH, rfl⟩, rfl,
    .inl ⟨by simp [hf], hH, rfl, le_refl 16, rfl, ?_⟩⟩
  refine expandedBelow_16 fun j => ?_
  refine (loadSchedule_get c.W (blockWords bytes) ⟨j.val, by omega⟩).trans ?_
  rw [dif_pos j.isLt]
  rfl

theorem Chip.Folds.expand_step (h : c.Folds H block) (hf : c.fsm = .expand) :
    ∃ c', expandOp c = .ok c' ∧ c.FoldStep c' H block := by
  simp only [Chip.Folds, hf] at h
  obtain ⟨hH, hbc, hlow, hV, hW⟩ := h
  refine ⟨_, expandOp_of_expandedBelow hlow hW, rfl, .inl ⟨by simp [hf], hH, ?_⟩⟩
  by_cases h63 : c.t = 63#6
  · simp only [Chip.expanded, if_pos h63, nextCount_of_eq_63 h63]
    have hW' := hW.succ
    rw [h63] at hW'
    exact ⟨hbc, hV, hW'⟩
  · simp only [Chip.expanded, if_neg h63, hf, nextCount_of_ne_63 h63, toNat_succ_of_ne_63 h63]
    exact ⟨hbc, by omega, hV, hW.succ⟩

theorem roundWork_roundsFrom (v : Work) (W : Vector Word 64) (t : BitVec 6) :
    roundWork (roundsFrom v W t.toNat) (K t) (W[t.toNat]'t.isLt) = roundsFrom v W (t.toNat + 1) := by
  have hw : W.toList.getD t.toNat 0 = W[t.toNat]'t.isLt := by
    have := t.isLt
    simp [List.getD_eq_getElem?_getD, this]
  rw [roundsFrom_succ, BitVec.ofNat_toNat, BitVec.setWidth_eq, hw]

theorem Chip.Folds.round_step (h : c.Folds H block) (hf : c.fsm = .round) :
    ∃ c', roundOp c = .ok c' ∧ c.FoldStep c' H block := by
  simp only [Chip.Folds, hf] at h
  obtain ⟨hH, hbc, hV, hW⟩ := h
  refine ⟨_, roundOp_eq_ok_iff.mpr ⟨_, _, hV, hW.schedule? c.t.isLt c.t.isLt, rfl⟩, rfl,
    .inl ⟨by simp [hf], hH, ?_⟩⟩
  rw [roundWork_roundsFrom]
  by_cases h63 : c.t = 63#6
  · simp only [h63]
    exact ⟨hbc, rfl, rfl⟩
  · simp only [if_neg h63, hf, nextCount_of_ne_63 h63, toNat_succ_of_ne_63 h63]
    exact ⟨hbc, trivial, hW⟩

theorem Chip.Folds.final_step (h : c.Folds H block) (hf : c.fsm = .final) :
    ∃ c', finalOp c = .ok c' ∧ c.FoldStep c' H block := by
  simp only [Chip.Folds, hf] at h
  obtain ⟨hH, hbc, ht, hV⟩ := h
  exact ⟨_, finalOp_eq_ok_iff.mpr ⟨H, _, hH, hV, rfl⟩, rfl, .inr ⟨hf, rfl, rfl, ht, hbc⟩⟩

theorem Chip.Folds.inFlight (h : c.Folds H block) :
    c.fsm = .load ∨ c.fsm = .expand ∨ c.fsm = .round ∨ c.fsm = .final := by
  cases hf : c.fsm <;> simp [Chip.Folds, hf] at h ⊢

theorem Chip.Folds.busy (h : c.Folds H block) : c.busy = true := by
  obtain hf | hf | hf | hf := h.inFlight <;> (rw [Chip.busy, hf]; rfl)

/-- One step of a block in flight, whichever it is. -/
theorem Chip.Folds.step (h : c.Folds H block) : ∃ c', c.operation = .ok c' ∧ c.FoldStep c' H block := by
  obtain hf | hf | hf | hf := h.inFlight <;> simp only [Chip.operation, hf]
  · exact h.load_step hf
  · exact h.expand_step hf
  · exact h.round_step hf
  · exact h.final_step hf

/-- A block in flight meets R40's row of its state. -/
theorem Chip.Folds.meetsOwnRow (h : c.Folds H block) : c.meetsOwnRow = true := by
  obtain hf | hf | hf | hf := h.inFlight <;> simp only [Chip.Folds, hf] at h <;>
    simp only [Chip.meetsOwnRow, hf] <;> refine decide_eq_true ?_
  · obtain ⟨-, hbc, ht, -⟩ := h
    exact ⟨hbc, ht⟩
  · obtain ⟨-, hbc, hlow, -, hW⟩ := h
    exact ⟨hbc, hlow, hW.filled⟩
  · obtain ⟨-, hbc, -⟩ := h
    exact hbc
  · obtain ⟨-, hbc, ht, -⟩ := h
    exact ⟨hbc, ht⟩

theorem Chip.Folds.flightLeft_pos (h : c.Folds H block) : 0 < c.flightLeft := by
  have := c.t.isLt
  obtain hf | hf | hf | hf := h.inFlight <;> simp only [Chip.flightLeft, hf] <;> omega

end

/-- The steps left of a block in flight, the last of which folds it. -/
theorem run_fold {s : State} {H : Vector Word 8} {block : Vector Word 16} (n : Nat) (ht : s.turns = [])
    (hr : s.chip.R40 s.maxMsgBytes.val) (h : s.chip.Folds H block) (hn : s.chip.flightLeft = n) :
    ∃ c, run n s = .next (s.withChip c) ∧ s.chip.SameButFold c ∧
      c.H = some (compress H (expandBlock block)) ∧ c.fsm = afterFinal s.chip.last s.chip.padStage ∧
      c.t = 0#6 ∧ c.bc = 0#7 := by
  induction n generalizing s with
  | zero =>
    have := h.flightLeft_pos
    omega
  | succ n ih =>
    obtain ⟨c, hop, hsame, ⟨hf, hfolds⟩ | ⟨hf, hH, hfsm, htc, hbc⟩⟩ := h.step
    · have hleft := Chip.flightLeft_of_operation hop (by have := h.inFlight; tauto)
      have hrc : c.R40 s.maxMsgBytes.val := by
        refine hr.of_row ?_ ?_ ?_ hfolds.meetsOwnRow <;> rw [hsame]
      obtain ⟨c', hrun, hsame', hH, hfsm, htc, hbc⟩ := ih (s := s.withChip c) ht hrc hfolds (by
        rw [State.withChip_chip]; omega)
      refine ⟨c', (run_succ_of_next (step_of_busy ht h.busy hr hop)).trans hrun, hsame.trans hsame', hH, ?_,
        htc, hbc⟩
      rw [hfsm, State.withChip_chip, hsame]
    · have hn0 : n = 0 := by simp only [Chip.flightLeft, hf] at hn; omega
      subst hn0
      exact ⟨c, run_succ_of_next (step_of_busy ht h.busy hr hop), hsame, hH, hfsm, htc, hbc⟩

/-- Settles O53: a full block in LOAD is one to fold, with 114 steps left. -/
theorem blockFoldsIntoHash : Obligations.BlockFoldsIntoHash := by
  intro s bytes H ht hf hr hH hB
  obtain ⟨hbc, ht0⟩ := hr.load hf
  have hfolds : s.chip.Folds H (blockWords bytes) := by
    simp only [Chip.Folds, hf]
    exact ⟨hH, hbc, ht0, bytes, rfl, hB⟩
  obtain ⟨c, hrun, hsame, hHc, hfsm, htc, hbcc⟩ := run_fold 114 ht hr hfolds (by simp only [Chip.flightLeft, hf])
  refine ⟨_, hrun, hHc, hfsm, congrArg s.withChip ?_⟩
  rw [hsame, htc, hbcc]
  rfl

end Sys2Proof.Machine
end

section
/-! PROOFS. The bounded busy period (spec/70_reset_and_hazards.md R270): a count of the engine steps left,
exact in every state that meets the invariant. -/
namespace Sys2Proof.Machine

/-- The engine steps of the last block from byte `bc` on: the padding, 114 steps, SERIALIZE. -/
def lastBlockLeft (bc : Nat) : Nat := 64 - bc + 115

/-- The engine steps after the FINAL of a block in flight: SERIALIZE, or a last block of padding, or none. -/
def Chip.afterBlockLeft (c : Chip) : Nat :=
  if c.last then 1 else if c.padStage = .none then 0 else lastBlockLeft 0

/-- The engine steps left before the chip is quiescent. In PAD the length field fits into the block when
the 0x80 byte stands at offset 55 or below, and FILL then finds `bc` at 56 or below. -/
def Chip.busyLeft (c : Chip) : Nat :=
  match c.fsm with
  | .load | .expand | .round | .final => c.flightLeft + c.afterBlockLeft
  | .serialize => 1
  | .pad =>
    match c.padStage with
    | .none => 0
    | .mark => if c.bc.toNat ≤ 55 then lastBlockLeft c.bc.toNat else 64 - c.bc.toNat + 114 + lastBlockLeft 0
    | .fill => if c.bc.toNat ≤ 56 then lastBlockLeft c.bc.toNat else 64 - c.bc.toNat + 114 + lastBlockLeft 0
    | .len => lastBlockLeft c.bc.toNat
  | .idle | .absorb | .done | .error | .unused _ => 0

section
variable {c c' : Chip} {m : Nat}

theorem Chip.afterBlockLeft_le (c : Chip) : c.afterBlockLeft ≤ 179 := by
  unfold Chip.afterBlockLeft lastBlockLeft
  split_ifs <;> omega

/-- The longest is the padding of 56 bytes, E(56). -/
theorem Chip.Inv.busyLeft_le (h : c.Inv m) : c.busyLeft ≤ 301 := by
  have hafter := c.afterBlockLeft_le
  have hown := h.ownInv
  unfold Chip.busyLeft
  cases hf : c.fsm <;> simp only [Chip.OwnInv, hf, Chip.flightLeft] at hown ⊢
  case pad =>
    cases hs : c.padStage with simp only [lastBlockLeft]
    | none | len => omega
    | mark | fill => split_ifs <;> omega
  all_goals omega

theorem Chip.busyLeft_of_not_busy (h : c.busy = false) : c.busyLeft = 0 := by
  unfold Chip.busyLeft
  cases hf : c.fsm <;> simp [Chip.busy, hf, Fsm.busy] at h ⊢

theorem Chip.Inv.busyLeft_padOp (h : c.Inv m) (hf : c.fsm = .pad) (hop : padOp c = .ok c') :
    c.busyLeft = c'.busyLeft + 1 := by
  have hown := h.ownInv
  simp only [Chip.OwnInv, hf] at hown
  obtain ⟨-, hbc, -, -, hlen, -⟩ := hown
  obtain ⟨-, v, ps, happ, hcase⟩ := padOp_eq_ok_cases hop
  obtain ⟨B, -, ⟨h63, rfl⟩ | ⟨h63, rfl⟩⟩ := happ.cases
  · have h63' : c.bc.toNat = 63 := by rw [h63]; rfl
    obtain ⟨hs, -, rfl⟩ | ⟨-, h56, -⟩ | ⟨hs, -, -, rfl⟩ | ⟨hs, -, -, rfl⟩ := hcase
    · simp [Chip.busyLeft, hf, hs, h63', Chip.flightLeft, Chip.afterBlockLeft, lastBlockLeft]
    · simp [h63] at h56
    · simp [Chip.busyLeft, hf, hs, h63', Chip.flightLeft, Chip.afterBlockLeft, lastBlockLeft]
    · simp [Chip.busyLeft, hf, hs, h63', Chip.flightLeft, Chip.afterBlockLeft, lastBlockLeft]
  · have hlt := bc_lt_of_ne hbc h63
    have hsucc := bc_toNat_succ hbc
    obtain ⟨hs, -, rfl⟩ | ⟨hs, h56, -, rfl⟩ | ⟨hs, h56, -, rfl⟩ | ⟨hs, h57, -, rfl⟩ := hcase <;>
      simp only [Chip.busyLeft, hf, hs, hsucc, lastBlockLeft]
    · split_ifs <;> omega
    · have : c.bc.toNat = 56 := by rw [h56]; rfl
      split_ifs <;> omega
    · have : c.bc.toNat ≠ 56 := fun h => h56 (BitVec.eq_of_toNat_eq h)
      split_ifs <;> omega
    · omega

/-- LOAD, EXPAND and ROUND leave what FINAL chooses by. -/
theorem Chip.afterBlockLeft_of_operation (h : c.operation = .ok c')
    (hf : c.fsm = .load ∨ c.fsm = .expand ∨ c.fsm = .round) :
    c'.afterBlockLeft = c.afterBlockLeft ∧ (c'.fsm = .expand ∨ c'.fsm = .round ∨ c'.fsm = .final) := by
  rw [Chip.fsm_of_operation h]
  obtain hf | hf | hf := hf <;> simp only [Chip.operation, hf] at h <;> simp only [fsmAfterEngine, hf]
  · obtain ⟨-, bytes, H, -, -, rfl⟩ := loadOp_eq_ok_iff.mp h
    exact ⟨rfl, by simp⟩
  · obtain ⟨-, w2, w7, w15, w16, -, -, -, -, rfl⟩ := expandOp_eq_ok_iff.mp h
    exact ⟨rfl, by split_ifs <;> simp⟩
  · obtain ⟨v, w, -, -, rfl⟩ := roundOp_eq_ok_iff.mp h
    exact ⟨rfl, by split_ifs <;> simp⟩

theorem Chip.busyLeft_of_inFlight (h : c.fsm = .load ∨ c.fsm = .expand ∨ c.fsm = .round ∨ c.fsm = .final) :
    c.busyLeft = c.flightLeft + c.afterBlockLeft := by
  obtain hf | hf | hf | hf := h <;> simp only [Chip.busyLeft, hf]

theorem Chip.busyLeft_flight (hop : c.operation = .ok c')
    (hf : c.fsm = .load ∨ c.fsm = .expand ∨ c.fsm = .round) : c.busyLeft = c'.busyLeft + 1 := by
  have hleft := Chip.flightLeft_of_operation hop hf
  obtain ⟨hafter, hf'⟩ := Chip.afterBlockLeft_of_operation hop hf
  rw [Chip.busyLeft_of_inFlight (by tauto), Chip.busyLeft_of_inFlight (.inr hf'), hafter, hleft]
  omega

/-- FINAL goes to what `afterBlockLeft` counts; the stage of a block that is not the last is NONE or FILL. -/
theorem Chip.Inv.busyLeft_finalOp (h : c.Inv m) (hf : c.fsm = .final) (hop : finalOp c = .ok c') :
    c.busyLeft = c'.busyLeft + 1 := by
  have hown := h.ownInv
  simp only [Chip.OwnInv, hf] at hown
  obtain ⟨hbc, -, ⟨hnm, hiff, -⟩, -⟩ := hown
  obtain ⟨H, v, -, -, rfl⟩ := finalOp_eq_ok_iff.mp hop
  rw [Chip.busyLeft_of_inFlight (.inr (.inr (.inr hf)))]
  simp only [Chip.flightLeft, hf, Chip.afterBlockLeft]
  cases hlast : c.last with
  | true => simp [Chip.busyLeft, afterFinal_of_last]
  | false =>
    cases hs : c.padStage with
    | none => simp [Chip.busyLeft, afterFinal_of_absorbing]
    | fill => simp [Chip.busyLeft, afterFinal_of_padding, hbc]; omega
    | mark => exact absurd hs hnm
    | len => simp [hiff.mpr hs] at hlast

theorem Chip.Inv.busyLeft_operation (h : c.Inv m) (hb : c.busy = true) (hop : c.operation = .ok c') :
    c.busyLeft = c'.busyLeft + 1 := by
  obtain hf | hf | hf | hf | hf | hf := c.busy_iff.mp hb
  · exact h.busyLeft_padOp hf (by simpa only [Chip.operation, hf] using hop)
  · exact Chip.busyLeft_flight hop (.inl hf)
  · exact Chip.busyLeft_flight hop (.inr (.inl hf))
  · exact Chip.busyLeft_flight hop (.inr (.inr hf))
  · exact h.busyLeft_finalOp hf (by simpa only [Chip.operation, hf] using hop)
  · simp only [Chip.operation, hf] at hop
    obtain ⟨H, -, rfl⟩ := serializeOp_eq_ok_iff.mp hop
    simp only [Chip.busyLeft, hf]

end

/-- The engine alone, for as many steps as are left. -/
theorem run_busyLeft {s : State} (n : Nat) (hi : s.Inv) (ht : s.turns = []) (hn : s.chip.busyLeft = n) :
    ∃ t, run n s = .next t ∧ t.chip.busy = false := by
  induction n generalizing s with
  | zero =>
    refine ⟨s, run_zero s, Bool.eq_false_iff.mpr fun hb => ?_⟩
    obtain ⟨c, hop⟩ := Chip.Inv.operation_answers hi
    have := Chip.Inv.busyLeft_operation hi hb hop
    omega
  | succ n ih =>
    have hb : s.chip.busy = true := by
      by_contra hb
      simp [Chip.busyLeft_of_not_busy (Bool.eq_false_iff.mpr hb)] at hn
    obtain ⟨c, hop⟩ := Chip.Inv.operation_answers hi
    have hstep := step_of_busy ht hb hi.r40 hop
    have hleft := Chip.Inv.busyLeft_operation hi hb hop
    obtain ⟨t, hrun, hq⟩ := ih (step_keeps_inv hi hstep) ht (by rw [State.withChip_chip]; omega)
    exact ⟨t, (run_succ_of_next hstep).trans hrun, hq⟩

/-- Settles O54: the engine takes as many steps as are left, at most E(56). -/
theorem busyPeriodEnds : Obligations.BusyPeriodEnds := by
  intro s hi ht
  obtain ⟨t, hrun, hq⟩ := run_busyLeft s.chip.busyLeft hi ht rfl
  exact ⟨s.chip.busyLeft, t, Chip.Inv.busyLeft_le hi, hrun, hq⟩

end Sys2Proof.Machine
end

section
/-! PROOFS. A job in progress (spec/43_digest_serializer.md R186, spec/20_memory.md R70): which bytes of the
padded message the chip has taken and which blocks it has folded, kept by every operation of the engine and
by the job's own words, whoever steps in between. -/
namespace Sys2Proof.Machine

/-! The bytes of the padded message (R100), and its blocks folded one by one (R180). -/

/-- Byte `i` of the padded message. -/
def padByte (m : List Byte) (i : Nat) : Byte := (padMessage m).getD i 0

section
variable {m : List Byte}

theorem padByte_message {i : Nat} (hi : i < m.length) : padByte m i = m[i] := by
  simp [padByte, padMessage, List.getElem?_append_left, hi]

theorem padByte_mark : padByte m m.length = 0x80 := by
  simp [padByte, padMessage]

theorem padByte_zero {i : Nat} (hlow : m.length < i) (hhigh : i < m.length + 1 + zeroBytes m.length) :
    padByte m i = 0x00 := by
  have hmark : (m ++ [0x80] : List Byte).length ≤ i := by simp; omega
  have hindex : i - (m ++ [0x80] : List Byte).length < zeroBytes m.length := by simp; omega
  have hzeros : i < (m ++ [0x80] ++ List.replicate (zeroBytes m.length) 0x00 : List Byte).length := by
    simp; omega
  rw [padByte, padMessage, List.getD_append _ _ _ _ hzeros, List.getD_append_right _ _ _ _ hmark]
  exact List.getD_replicate _ hindex

theorem padByte_length {k : Nat} (hk : k < 8) :
    padByte m (m.length + 1 + zeroBytes m.length + k) = be64Byte (BitVec.ofNat 64 (8 * m.length)) k := by
  have hlen : (m ++ [0x80] ++ List.replicate (zeroBytes m.length) 0x00 : List Byte).length =
      m.length + 1 + zeroBytes m.length := by simp; omega
  rw [padByte, padMessage, List.getD_append_right _ _ _ _ (by omega), hlen, Nat.add_sub_cancel_left, lengthField]
  simp [List.getD_eq_getElem?_getD, hk]

end

/-- The hash state after the first `k` blocks of the padded message. -/
def hashPrefix (m : List Byte) (k : Nat) : Vector Word 8 :=
  hashBlocks IV ((List.range k).map (blockOf (padMessage m)))

theorem hashPrefix_zero (m : List Byte) : hashPrefix m 0 = IV := rfl

theorem hashPrefix_succ (m : List Byte) (k : Nat) :
    hashPrefix m (k + 1) = compress (hashPrefix m k) (expandBlock (blockOf (padMessage m) k)) := by
  rw [hashPrefix, List.range_succ, List.map_append, List.map_singleton, hashBlocks_append, hashPrefix]

theorem hashPrefix_nblocks (m : List Byte) :
    hashPrefix m (nblocks m.length) = hashBlocks IV (parse (padMessage m)) := by
  rw [hashPrefix, parse, padMessage_length_eq_blocks, Nat.mul_div_cancel_left _ (by decide)]

/-! What the chip holds of a job that has taken `q` bytes of the padded message. -/

/-- The stage, by how far the padded message is taken; until END, L counts the bytes taken. -/
def Chip.StageAt (c : Chip) (m : List Byte) (q : Nat) : Prop :=
  match c.padStage with
  | .none => q ≤ m.length ∧ c.L = BitVec.ofNat 64 (8 * q)
  | .mark => q = m.length ∧ c.L = BitVec.ofNat 64 (8 * m.length)
  | .fill => m.length < q ∧ q ≤ m.length + 1 + zeroBytes m.length ∧ c.L = BitVec.ofNat 64 (8 * m.length)
  | .len =>
    m.length + 1 + zeroBytes m.length < q ∧ q ≤ (padMessage m).length ∧ c.L = BitVec.ofNat 64 (8 * m.length)

/-- A block being filled: the blocks before it are in H, and its first bytes in the buffer. -/
def Chip.Filling (c : Chip) (m : List Byte) (q : Nat) : Prop :=
  q < (padMessage m).length ∧ c.bc.toNat = q % 64 ∧ c.H = some (hashPrefix m (q / 64)) ∧
    ∀ i : Fin 64, i.val < q % 64 → c.B[i] = some (padByte m (64 * (q / 64) + i.val))

/-- The last full block, on its way into H. -/
def Chip.FoldingLast (c : Chip) (m : List Byte) (q : Nat) : Prop :=
  q % 64 = 0 ∧ 0 < q ∧ c.Folds (hashPrefix m (q / 64 - 1)) (blockOf (padMessage m) (q / 64 - 1))

/-- The whole padded message is folded. -/
def Chip.Folded (c : Chip) (m : List Byte) (q : Nat) : Prop :=
  q = (padMessage m).length ∧ c.H = some (hashBlocks IV (parse (padMessage m)))

/-- The chip is in a job of the message `m` and has taken `q` bytes of the padded message. -/
def Chip.Tracks (c : Chip) (m : List Byte) (q : Nat) : Prop :=
  c.StageAt m q ∧ c.last = decide (q = (padMessage m).length) ∧
    match c.fsm with
    | .absorb | .pad => c.Filling m q
    | .load | .expand | .round | .final => c.FoldingLast m q
    | .serialize => c.Folded m q
    | .done => c.Folded m q ∧ c.DIG = some (sha256 m)
    | .idle | .error | .unused _ => False

/-- The steps left of the job: a byte each, END, 114 per block not yet folded, SERIALIZE. -/
def Chip.jobLeft (c : Chip) (m : List Byte) (q : Nat) : Nat :=
  ((padMessage m).length - q) + (if c.padStage = .none then 1 else 0) + 114 * (nblocks m.length - q / 64) +
    c.flightLeft + (if c.fsm = .done then 0 else 1)

/-- The words the job still waits for: the DATA of the bytes not taken, and END. -/
def Chip.pending (c : Chip) (m : List Byte) (q : Nat) : List Cmd :=
  if c.padStage = .none then msgWords (m.drop q) ++ [0x3000#16] else []

/-- A step of the job from `c`, at `q`, to `c'`, at `q'`. -/
def Chip.Advances (c : Chip) (m : List Byte) (q : Nat) (c' : Chip) (q' : Nat) : Prop :=
  c'.Tracks m q' ∧ c.jobLeft m q = c'.jobLeft m q' + 1

section
variable {c c' : Chip} {m : List Byte} {q : Nat}

theorem Chip.StageAt.le (h : c.StageAt m q) : q ≤ (padMessage m).length := by
  have := padMessage_length m
  unfold Chip.StageAt at h
  split at h <;> omega

/-- At the end of a block, stage LEN is the end of the padded message. -/
theorem Chip.StageAt.len_iff (h : c.StageAt m q) (hq : q % 64 = 0) :
    c.padStage = .len ↔ q = (padMessage m).length := by
  have hlen := padMessage_length m
  have hmod := zeroBytes_mod m.length
  unfold Chip.StageAt at h
  split at h <;> simp only [*, reduceCtorEq, false_iff, true_iff] <;> omega

theorem Chip.StageAt.of_eq {c' : Chip} (h : c.StageAt m q) (hps : c'.padStage = c.padStage) (hL : c'.L = c.L) :
    c'.StageAt m q := by
  unfold Chip.StageAt at *
  rwa [hps, hL]

theorem Chip.flightLeft_of_filling (hf : c.fsm = .absorb ∨ c.fsm = .pad) : c.flightLeft = 0 := by
  obtain hf | hf := hf <;> simp only [Chip.flightLeft, hf]

/-! APPEND, by DATA or PAD. -/

theorem Chip.Appended.padStage_eq {v : Byte} {ps : PadStage} (h : c.Appended c' v ps) : c'.padStage = ps := by
  obtain ⟨B, -, ⟨-, rfl⟩ | ⟨-, rfl⟩⟩ := h.cases <;> rfl

/-- Appending the next byte of the padded message fills the block, which is then the one to fold, or leaves
it to be filled further. -/
theorem Chip.Filling.append {ps : PadStage} (h : c.Filling m q) (ht : c.t = 0#6)
    (happ : c.Appended c' (padByte m q) ps) :
    (q % 64 = 63 ∧ c'.fsm = .load ∧ c'.last = decide (ps = .len) ∧ c'.FoldingLast m (q + 1)) ∨
      (q % 64 ≠ 63 ∧ c'.fsm = c.fsm ∧ c'.last = c.last ∧ c'.Filling m (q + 1)) := by
  obtain ⟨hq, hbc, hH, hB⟩ := h
  have hlen := padMessage_length_eq_blocks m
  obtain ⟨B, hB', ⟨h63, rfl⟩ | ⟨h63, rfl⟩⟩ := happ.cases
  · have h63' : q % 64 = 63 := by rw [← hbc, h63]; rfl
    have hblock : (q + 1) / 64 - 1 = q / 64 := by omega
    refine .inl ⟨h63', rfl, rfl, by omega, by omega, ?_⟩
    rw [hblock]
    refine ⟨hH, rfl, ht, _, rfl, fun i => ?_⟩
    have hi := i.isLt
    rw [hB', hbc]
    simp only [Fin.getElem_fin, Vector.getElem_ofFn]
    split
    · next heq => rw [padByte]; congr 2; omega
    · exact hB i (by omega)
  · have hle : c.bc.toNat ≤ 63 := by omega
    have hlt := bc_lt_of_ne hle h63
    have hsucc := bc_toNat_succ hle
    have hdiv : (q + 1) / 64 = q / 64 := by omega
    refine .inr ⟨by omega, rfl, rfl, by omega, by simp only [hsucc]; omega, by rw [hdiv]; exact hH,
      fun i hi => ?_⟩
    refine (hB' i).trans ?_
    rw [hbc, hdiv]
    split
    · congr 2; omega
    · exact hB i (by omega)

/-- The appended byte is one step of the job, whatever else the step has written. -/
theorem Chip.Filling.append_tracks {ps : PadStage} (h : c.Filling m q) (ht : c.t = 0#6)
    (hf : c.fsm = .absorb ∨ c.fsm = .pad) (hlast : c.last = false)
    (happ : c.Appended c' (padByte m q) ps) (hstage : c'.StageAt m (q + 1)) : c'.Tracks m (q + 1) := by
  have hq := h.1
  obtain ⟨h63, hfsm, hlast', hfold⟩ | ⟨h63, hfsm, hlast', hfill⟩ := h.append ht happ
  · refine ⟨hstage, ?_, by simpa only [hfsm] using hfold⟩
    have hiff := hstage.len_iff (by omega)
    rw [happ.padStage_eq] at hiff
    rw [hlast']
    exact decide_eq_decide.mpr hiff
  · refine ⟨hstage, ?_, ?_⟩
    · have := padMessage_length_eq_blocks m
      rw [hlast', hlast, eq_comm, decide_eq_false_iff_not]
      omega
    · obtain hf | hf := hf <;> (simp only [hfsm, hf]; exact hfill)

/-- A byte less is left, and a block more to fold where the block is full. -/
theorem Chip.Filling.append_jobLeft {v : Byte} {ps : PadStage} (h : c.Filling m q)
    (hf : c.fsm = .absorb ∨ c.fsm = .pad) (hps : ps = .none ↔ c.padStage = .none)
    (happ : c.Appended c' v ps) : c.jobLeft m q = c'.jobLeft m (q + 1) + 1 := by
  obtain ⟨hq, hbc, -⟩ := h
  have hlen := padMessage_length_eq_blocks m
  have hflight := Chip.flightLeft_of_filling hf
  have hnd : c.fsm ≠ .done := by obtain hf | hf := hf <;> simp [hf]
  have hps' : (if c'.padStage = .none then 1 else 0) = if c.padStage = .none then 1 else 0 := by
    simp only [happ.padStage_eq, hps]
  have hfsm := happ.fsm_eq
  unfold Chip.jobLeft
  rw [hps', hflight, if_neg hnd]
  by_cases h63 : c.bc = 63#7
  · have h63' : q % 64 = 63 := by rw [← hbc, h63]; rfl
    rw [if_pos h63] at hfsm
    simp only [Chip.flightLeft, hfsm, reduceCtorEq, if_false]
    omega
  · have h63' : q % 64 ≠ 63 := fun h => h63 (BitVec.eq_of_toNat_eq (hbc.trans h))
    rw [if_neg h63] at hfsm
    rw [Chip.flightLeft_of_filling (hfsm ▸ hf), if_neg (show ¬ c'.fsm = .done from hfsm ▸ hnd)]
    omega

/-- PAD appends the next byte of the padded message and leaves the stage of the byte after it. -/
theorem Chip.StageAt.padOp {v : Byte} {ps : PadStage} (h : c.StageAt m q) (hbc : c.bc.toNat = q % 64)
    (hq : q < (padMessage m).length) (hL : c'.L = c.L) (hps : c'.padStage = ps)
    (hcase : (c.padStage = .mark ∧ v = 0x80 ∧ ps = .fill) ∨
      (c.padStage = .fill ∧ c.bc = 56#7 ∧ v = be64Byte c.L 0 ∧ ps = .len) ∨
      (c.padStage = .fill ∧ c.bc ≠ 56#7 ∧ v = 0x00 ∧ ps = .fill) ∨
      (c.padStage = .len ∧ 57 ≤ c.bc.toNat ∧ v = be64Byte c.L (c.bc.toNat - 56) ∧ ps = .len)) :
    v = padByte m q ∧ c'.StageAt m (q + 1) := by
  have hlen := padMessage_length m
  have hmod := zeroBytes_mod m.length
  have hlt := zeroBytes_lt m.length
  unfold Chip.StageAt
  rw [hps, hL]
  obtain ⟨hs, rfl, rfl⟩ | ⟨hs, h56, rfl, rfl⟩ | ⟨hs, h56, rfl, rfl⟩ | ⟨hs, h57, rfl, rfl⟩ := hcase <;>
    simp only [Chip.StageAt, hs] at h ⊢
  · obtain ⟨rfl, hL⟩ := h
    exact ⟨padByte_mark.symm, by omega, by omega, hL⟩
  · obtain ⟨hlow, hhigh, hL⟩ := h
    have h56' : q % 64 = 56 := by rw [← hbc, h56]; rfl
    obtain rfl : q = m.length + 1 + zeroBytes m.length := by omega
    exact ⟨by rw [hL]; exact (padByte_length (k := 0) (by decide)).symm, by omega, by omega, hL⟩
  · obtain ⟨hlow, hhigh, hL⟩ := h
    have h56' : q % 64 ≠ 56 := fun h => h56 (BitVec.eq_of_toNat_eq (hbc.trans h))
    exact ⟨(padByte_zero hlow (by omega)).symm, by omega, by omega, hL⟩
  · obtain ⟨hlow, -, hL⟩ := h
    obtain ⟨k, rfl⟩ := Nat.exists_eq_add_of_le hlow.le
    have hk : c.bc.toNat - 56 = k := by omega
    exact ⟨by rw [hL, hk]; exact (padByte_length (by omega)).symm, by omega, by omega, hL⟩

theorem Chip.Tracks.padOp_advances {M : Nat} (h : c.Tracks m q) (hi : c.Inv M) (hf : c.fsm = .pad)
    (hop : padOp c = .ok c') : c.Advances m q c' (q + 1) ∧ c.padStage ≠ .none ∧ c'.padStage ≠ .none := by
  obtain ⟨hstage, hlast, hfill⟩ := h
  simp only [hf] at hfill
  have hown := hi.ownInv
  simp only [Chip.OwnInv, hf] at hown
  obtain ⟨hps, -, ht, -⟩ := hown
  obtain ⟨-, v, ps, happ, hcase⟩ := padOp_eq_ok_cases hop
  obtain ⟨-, -, -, hL⟩ := happ.sameFlagsAndLength
  obtain ⟨rfl, hstage'⟩ := hstage.padOp hfill.2.1 hfill.1 hL happ.padStage_eq hcase
  have hps' : ps ≠ .none := by
    obtain ⟨-, -, rfl⟩ | ⟨-, -, -, rfl⟩ | ⟨-, -, -, rfl⟩ | ⟨-, -, -, rfl⟩ := hcase <;> simp
  have hlast' : c.last = false := hlast.trans (decide_eq_false (Nat.ne_of_lt hfill.1))
  exact ⟨⟨hfill.append_tracks ht (.inr hf) hlast' happ hstage',
    hfill.append_jobLeft (.inr hf) (by simp [hps, hps']) happ⟩, hps, happ.padStage_eq ▸ hps'⟩

/-! A block in flight. -/

theorem Chip.SameButFold.stageAt (h : c.SameButFold c') (hs : c.StageAt m q) : c'.StageAt m q :=
  hs.of_eq (by rw [h]) (by rw [h])

/-- FINAL has folded the last full block. -/
theorem Chip.FoldingLast.hash (h : c.FoldingLast m q) :
    compress (hashPrefix m (q / 64 - 1)) (expandBlock (blockOf (padMessage m) (q / 64 - 1))) =
      hashPrefix m (q / 64) := by
  obtain ⟨hq, hpos, -⟩ := h
  rw [← hashPrefix_succ]
  congr 1
  omega

theorem Chip.Tracks.final_tracks (h : c.Tracks m q) (hfold : c.FoldingLast m q) (hsame : c.SameButFold c')
    (hH : c'.H = some (hashPrefix m (q / 64))) (hfsm : c'.fsm = afterFinal c.last c.padStage)
    (hbc : c'.bc = 0#7) : c'.Tracks m q := by
  obtain ⟨hstage, hlast, -⟩ := h
  obtain ⟨hq, -, -⟩ := hfold
  have hlen := padMessage_length_eq_blocks m
  have hle := hstage.le
  refine ⟨hsame.stageAt hstage, by rw [hsame]; exact hlast, ?_⟩
  rw [hfsm]
  cases hl : c.last with
  | true =>
    have hend : q = (padMessage m).length := of_decide_eq_true (hlast.symm.trans hl)
    have hblocks : q / 64 = nblocks m.length := by omega
    simp only [afterFinal_of_last]
    exact ⟨hend, by rw [hH, hblocks, hashPrefix_nblocks]⟩
  | false =>
    have hend : q ≠ (padMessage m).length := of_decide_eq_false (hlast.symm.trans hl)
    have hfill : c'.Filling m q :=
      ⟨by omega, by rw [hbc, hq]; rfl, hH, fun i hi => by omega⟩
    by_cases hps : c.padStage = .none
    · simpa only [afterFinal_of_absorbing rfl hps] using hfill
    · simpa only [afterFinal_of_padding rfl hps] using hfill

theorem Chip.flightLeft_afterFinal {last : Bool} {ps : PadStage} (hf : c.fsm = afterFinal last ps) :
    c.flightLeft = 0 ∧ c.fsm ≠ .done := by
  unfold Chip.flightLeft
  rw [hf, afterFinal]
  split_ifs <;> simp

theorem Chip.Tracks.flight_advances (h : c.Tracks m q) (hfold : c.FoldingLast m q) (hop : c.operation = .ok c') :
    c.Advances m q c' q ∧ c'.padStage = c.padStage := by
  obtain ⟨hq, hpos, hfolds⟩ := hfold
  have hin := hfolds.inFlight
  have hnd : c.fsm ≠ .done := by obtain hf | hf | hf | hf := hin <;> simp [hf]
  obtain ⟨c'', hop', hsame, hcase⟩ := hfolds.step
  obtain rfl := Except.ok.inj (hop'.symm.trans hop)
  have hps : c''.padStage = c.padStage := by rw [hsame]
  refine ⟨?_, hps⟩
  obtain ⟨hf, hfolds'⟩ | ⟨hf, hH, hfsm, -, hbc⟩ := hcase
  · have hin' := hfolds'.inFlight
    have hnd' : c''.fsm ≠ .done := by obtain hf | hf | hf | hf := hin' <;> simp [hf]
    have hleft := Chip.flightLeft_of_operation hop (by tauto)
    refine ⟨⟨hsame.stageAt h.1, by rw [hsame]; exact h.2.1, ?_⟩, ?_⟩
    · obtain hf | hf | hf | hf := hin' <;> (simp only [hf]; exact ⟨hq, hpos, hfolds'⟩)
    · simp only [Chip.jobLeft, hps, hleft, if_neg hnd, if_neg hnd']
      omega
  · obtain ⟨hleft', hnd'⟩ := Chip.flightLeft_afterFinal hfsm
    have hleft : c.flightLeft = 1 := by simp only [Chip.flightLeft, hf]
    rw [Chip.FoldingLast.hash ⟨hq, hpos, hfolds⟩] at hH
    refine ⟨h.final_tracks ⟨hq, hpos, hfolds⟩ hsame hH hfsm hbc, ?_⟩
    simp only [Chip.jobLeft, hps, hleft, hleft', if_neg hnd, if_neg hnd']

/-! Each step of the job. -/

theorem Chip.Tracks.serialize_advances (h : c.Tracks m q) (hf : c.fsm = .serialize)
    (hop : serializeOp c = .ok c') : c.Advances m q c' q ∧ c'.padStage = c.padStage := by
  obtain ⟨hstage, hlast, hfolded⟩ := h
  simp only [hf] at hfolded
  obtain ⟨H, hH, rfl⟩ := serializeOp_eq_ok_iff.mp hop
  obtain rfl : hashBlocks IV (parse (padMessage m)) = H := Option.some.inj (hfolded.2.symm.trans hH)
  refine ⟨⟨⟨hstage, hlast, hfolded, rfl⟩, ?_⟩, rfl⟩
  simp [Chip.jobLeft, Chip.flightLeft, hf]

/-- The engine's step in a busy state is one step of the job, and takes none of the host's words. -/
theorem Chip.Tracks.operation_advances {M : Nat} (h : c.Tracks m q) (hi : c.Inv M) (hb : c.busy = true)
    (hop : c.operation = .ok c') : ∃ q', c.Advances m q c' q' ∧ c'.pending m q' = c.pending m q := by
  have hdata := h.2.2
  obtain hf | hf | hf | hf | hf | hf := c.busy_iff.mp hb <;> simp only [hf] at hdata
  case inl =>
    obtain ⟨hadv, hps, hps'⟩ := h.padOp_advances hi hf (by simpa only [Chip.operation, hf] using hop)
    exact ⟨q + 1, hadv, by simp [Chip.pending, hps, hps']⟩
  case inr.inr.inr.inr.inr =>
    obtain ⟨hadv, hps⟩ := h.serialize_advances hf (by simpa only [Chip.operation, hf] using hop)
    exact ⟨q, hadv, by rw [Chip.pending, hps]; rfl⟩
  all_goals
    obtain ⟨hadv, hps⟩ := h.flight_advances hdata hop
    exact ⟨q, hadv, by rw [Chip.pending, hps]; rfl⟩

theorem Chip.Tracks.absorb_or_busy_or_done (h : c.Tracks m q) :
    c.fsm = .absorb ∨ c.busy = true ∨ c.fsm = .done := by
  have hdata := h.2.2
  cases hf : c.fsm <;> simp [hf, Chip.busy, Fsm.busy] at hdata ⊢

theorem Chip.Tracks.jobLeft_of_done (h : c.Tracks m q) (hf : c.fsm = .done) : c.jobLeft m q = 0 := by
  obtain ⟨hstage, -, hdata⟩ := h
  simp only [hf] at hdata
  obtain ⟨⟨rfl, -⟩, -⟩ := hdata
  have hlen := padMessage_length m
  have hblocks := padMessage_length_eq_blocks m
  have hps : c.padStage ≠ .none := fun hps => by simp only [Chip.StageAt, hps] at hstage; omega
  simp only [Chip.jobLeft, if_neg hps, hf, if_true, Chip.flightLeft]
  omega

theorem Chip.jobLeft_pos_of_not_done (m : List Byte) (q : Nat) (hf : c.fsm ≠ .done) : 0 < c.jobLeft m q := by
  simp only [Chip.jobLeft, if_neg hf]
  omega

/-- START opens the job with nothing taken. -/
theorem Chip.openJob_tracks (c : Chip) (m : List Byte) : c.openJob.Tracks m 0 := by
  have hlen := padMessage_length m
  refine ⟨⟨Nat.zero_le _, rfl⟩, (decide_eq_false (by omega)).symm, by omega, rfl, ?_, fun i hi => by simp at hi⟩
  rw [hashPrefix_zero]
  rfl

theorem Chip.openJob_pending (c : Chip) (m : List Byte) : c.openJob.pending m 0 = msgWords m ++ [0x3000#16] := by
  simp [Chip.pending]

theorem Chip.openJob_jobLeft (c : Chip) (m : List Byte) :
    c.openJob.jobLeft m 0 = m.length + 1 + engineSteps m.length := by
  have hlen := padMessage_length m
  simp only [Chip.jobLeft, Chip.flightLeft, Chip.openJob_fsm, Chip.openJob_padStage, engineSteps, padSteps,
    if_true, reduceCtorEq, if_false]
  omega

/-! The job's own words. -/

theorem ofNat_mul_succ (q : Nat) : BitVec.ofNat 64 (8 * (q + 1)) = BitVec.ofNat 64 (8 * q) + 8 := by
  rw [Nat.mul_succ, BitVec.ofNat_add]
  rfl

theorem Chip.Tracks.dataAbsorb_advances {M : Nat} (h : c.Tracks m q) (hi : c.Inv M) (hM : M < 2 ^ 61)
    (hm : m.length ≤ M) (hf : c.fsm = .absorb) (hq : q < m.length) :
    ∃ c', dataAbsorb M m[q] c = .ok c' ∧ c.Advances m q c' (q + 1) ∧ c'.padStage = .none := by
  obtain ⟨hstage, hlast, hfill⟩ := h
  simp only [hf] at hfill
  have hown := hi.ownInv
  simp only [Chip.OwnInv, hf] at hown
  obtain ⟨hps, hl, -, ht, -⟩ := hown
  simp only [Chip.StageAt, hps] at hstage
  obtain ⟨-, hL⟩ := hstage
  have hLnat : c.L.toNat = 8 * q := by rw [hL, BitVec.toNat_ofNat, Nat.mod_eq_of_lt (by omega)]
  have hle : c.bc.toNat ≤ 63 := by have := hfill.2.1; omega
  obtain ⟨c', hop⟩ : ∃ c', ({ c with L := c.L + 8 } : Chip).append m[q] .none = .ok c' :=
    ⟨_, Chip.append_of_le (c := { c with L := c.L + 8 }) m[q] .none hle⟩
  have happ := Chip.appended_of_append_ok (c := { c with L := c.L + 8 }) hps hop
  rw [← padByte_message hq] at hop happ ⊢
  have hfill' : ({ c with L := c.L + 8 } : Chip).Filling m q := hfill
  have hroom := dataAbsorb_of_room (m := M) (c := c) (padByte m q) (by omega)
  refine ⟨c', hroom.trans hop, ⟨hfill'.append_tracks ht (.inl hf) hl happ ?_, ?_⟩, happ.padStage_eq⟩
  · obtain ⟨-, -, -, hL'⟩ := happ.sameFlagsAndLength
    unfold Chip.StageAt
    rw [happ.padStage_eq, hL']
    exact ⟨hq, by rw [ofNat_mul_succ, hL]⟩
  · exact hfill'.append_jobLeft (.inl hf) (by simp [hps]) happ

theorem Chip.Tracks.end_advances (h : c.Tracks m q) (hf : c.fsm = .absorb) (hps : c.padStage = .none)
    (hq : q = m.length) : c.Advances m q { c with padStage := .mark, fsm := .pad } q := by
  obtain ⟨hstage, hlast, hfill⟩ := h
  simp only [hf] at hfill
  simp only [Chip.StageAt, hps] at hstage
  refine ⟨⟨⟨hq, hq ▸ hstage.2⟩, hlast, hfill⟩, ?_⟩
  simp only [Chip.jobLeft, Chip.flightLeft, hps, hf, if_true, reduceCtorEq, if_false]
  omega

theorem Chip.pending_of_lt (hps : c.padStage = .none) (hq : q < m.length) :
    c.pending m q = (0x2000#16 ||| m[q].setWidth 16) :: (msgWords (m.drop (q + 1)) ++ [0x3000#16]) := by
  rw [Chip.pending, if_pos hps, List.drop_eq_getElem_cons hq]
  rfl

/-- In ABSORB the next word the job waits for is accepted, and is one step of the job. -/
theorem Chip.Tracks.next_word {s : State} (h : s.chip.Tracks m q) (hi : s.Inv)
    (hm : m.length ≤ s.maxMsgBytes.val) (hf : s.chip.fsm = .absorb) :
    ∃ w ws c' q', s.chip.pending m q = w :: ws ∧ exec (decodeCmd w) s = .next (s.accept c' ackResp) ∧
      s.chip.Advances m q c' q' ∧ c'.pending m q' = ws := by
  have hown := hi.ownInv
  simp only [Chip.OwnInv, hf] at hown
  obtain ⟨hps, -⟩ := hown
  have hle := h.1
  simp only [Chip.StageAt, hps] at hle
  obtain hq | hq := Nat.lt_or_eq_of_le hle.1
  · obtain ⟨c', hop, hadv, hps'⟩ := h.dataAbsorb_advances hi s.maxMsgBytes.isLt hm hf hq
    refine ⟨_, _, c', q + 1, Chip.pending_of_lt hps hq, ?_, hadv, by rw [Chip.pending, if_pos hps']⟩
    rw [data_word_eq, decodeCmd_data]
    exact sequencedStep_of_absorb hf hop
  · refine ⟨0x3000#16, [], _, q, ?_, sequencedStep_of_absorb (act := endAbsorb) hf rfl,
      h.end_advances hf hps hq, rfl⟩
    simp [Chip.pending, hps, hq, msgWords]

end

end Sys2Proof.Machine
end

section
/-! PROOFS. Whole jobs (spec/70_reset_and_hazards.md R263, R271, spec/20_memory.md R69, R70): the job of a
message as a run, the reading of its digest, and that no interleaving changes either. -/
namespace Sys2Proof.Machine

/-! The job with no turn fixed. -/

/-- With no turn fixed the host's step in a quiescent state is the offered word's. -/
theorem step_of_quiescent {s : State} {w : Cmd} {ws : List Cmd} (ht : s.turns = [])
    (hq : s.chip.fsm.quiescent = true) (ho : s.offers = w :: ws) : step s = exec (decodeCmd w) s := by
  rw [step_of_host_cons (State.nextTurn_of_quiescent ht hq) ho, State.endTurn_of_turns_nil s ht]

/-- A job in progress with the words it waits for on offer: after exactly the steps left it is done, the
words are accepted and each has its response. -/
theorem run_job {s : State} {m : List Byte} {q : Nat} {rest : List Cmd} (k : Nat) (hi : s.Inv)
    (hm : m.length ≤ s.maxMsgBytes.val) (ht : s.turns = []) (h : s.chip.Tracks m q)
    (ho : s.offers = s.chip.pending m q ++ rest) (hk : s.chip.jobLeft m q = k) :
    ∃ t q', run k s = .next t ∧ t.Inv ∧ t.turns = [] ∧ t.chip.fsm = .done ∧ t.chip.Tracks m q' ∧ t.offers = rest ∧
      t.replies = s.replies ++ List.replicate (s.chip.pending m q).length ackResp := by
  induction k generalizing s q with
  | zero =>
    have hf : s.chip.fsm = .done := by
      by_contra hf
      have := Chip.jobLeft_pos_of_not_done m q hf
      omega
    have hp : s.chip.pending m q = [] := by
      have hps : s.chip.padStage ≠ .none := fun hps => by simp [Chip.jobLeft, hps] at hk
      rw [Chip.pending, if_neg hps]
    exact ⟨s, q, run_zero s, hi, ht, hf, h, by simpa [hp] using ho, by simp [hp]⟩
  | succ k ih =>
    obtain hf | hb | hf := h.absorb_or_busy_or_done
    · obtain ⟨w, ws, c', q₁, hp, hexec, ⟨htracks, hleft⟩, hp'⟩ := h.next_word hi hm hf
      rw [hp, List.cons_append] at ho
      have hstep := (step_of_quiescent ht (by rw [hf]; rfl) ho).trans hexec
      obtain ⟨t, q', hrun, hti, htt, htf, htr, hto, hreplies⟩ := ih (s := s.accept c' ackResp)
        (step_keeps_inv hi hstep) hm ht htracks
        (by rw [State.accept_offers, ho, List.tail_cons, State.accept_chip, hp'])
        (by rw [State.accept_chip]; omega)
      refine ⟨t, q', (run_succ_of_next hstep).trans hrun, hti, htt, htf, htr, hto, ?_⟩
      rw [hreplies, State.accept_replies, State.accept_chip, hp', hp, List.append_assoc, List.length_cons,
        List.replicate_succ, List.singleton_append]
    · obtain ⟨c', hop⟩ := Chip.Inv.operation_answers hi
      obtain ⟨q₁, ⟨htracks, hleft⟩, hp⟩ := h.operation_advances hi hb hop
      have hstep := step_of_busy ht hb hi.r40 hop
      obtain ⟨t, q', hrun, hti, htt, htf, htr, hto, hreplies⟩ := ih (s := s.withChip c')
        (step_keeps_inv hi hstep) hm ht htracks (by rw [State.withChip_offers, ho, State.withChip_chip, hp])
        (by rw [State.withChip_chip]; omega)
      rw [State.withChip_chip, hp] at hreplies
      exact ⟨t, q', (run_succ_of_next hstep).trans hrun, hti, htt, htf, htr, hto, hreplies⟩
    · have := h.jobLeft_of_done hf
      omega

/-- START and the job after it. -/
theorem run_hashWords {s : State} {m : List Byte} {rest : List Cmd} (hm : m.length ≤ s.maxMsgBytes.val)
    (ht : s.turns = []) (hq : s.chip.fsm.quiescent = true) (ho : s.offers = hashWords m ++ rest) :
    ∃ t q, run (m.length + 2 + engineSteps m.length) s = .next t ∧ t.Inv ∧ t.turns = [] ∧ t.chip.fsm = .done ∧
      t.chip.Tracks m q ∧ t.offers = rest ∧ t.replies = s.replies ++ List.replicate (m.length + 2) ackResp := by
  have ho' : s.offers = 0x1000#16 :: (msgWords m ++ [0x3000#16] ++ rest) := by simp [ho, hashWords]
  have hstep := step_of_start (State.nextTurn_of_quiescent ht hq) ho' (Fsm.used_of_quiescent hq)
  rw [State.endTurn_of_turns_nil s ht] at hstep
  obtain ⟨t, q, hrun, hti, htt, hf, htracks, hto, hreplies⟩ :=
    run_job (s := s.accept s.chip.openJob ackResp) (rest := rest) _ (s.chip.inv_openJob _) hm ht
      (s.chip.openJob_tracks m)
      (by rw [State.accept_offers, ho', List.tail_cons, State.accept_chip, Chip.openJob_pending]) rfl
  rw [State.accept_chip, Chip.openJob_jobLeft] at hrun
  refine ⟨t, q, ?_, hti, htt, hf, htracks, hto, ?_⟩
  · have hcount : m.length + 2 + engineSteps m.length = m.length + 1 + engineSteps m.length + 1 := by omega
    rw [hcount]
    exact (run_succ_of_next hstep).trans hrun
  · have hlen : (msgWords m ++ [0x3000#16]).length = m.length + 1 := by simp [msgWords]
    rw [hreplies, State.accept_replies, State.accept_chip, Chip.openJob_pending, hlen, List.append_assoc,
      List.singleton_append, ← List.replicate_succ]

theorem Chip.Tracks.digest {c : Chip} {m : List Byte} {q : Nat} (h : c.Tracks m q) (hf : c.fsm = .done) :
    c.DIG = some (sha256 m) ∧ c.H = some (hashBlocks IV (parse (padMessage m))) := by
  obtain ⟨-, -, hdata⟩ := h
  simp only [hf] at hdata
  obtain ⟨⟨-, hH⟩, hD⟩ := hdata
  exact ⟨hD, hH⟩

theorem Chip.Inv.noError_of_done {c : Chip} {M : Nat} (h : c.Inv M) (hf : c.fsm = .done) : c.NoError :=
  h.ownInv.noError (by simp [hf])

/-- Settles O55: the job runs to DONE, where what the chip tracks is the whole padded message. -/
theorem jobComputesSha256 : Obligations.JobComputesSha256 := by
  intro s m rest hm ht hq ho
  obtain ⟨t, q, hrun, hti, -, hf, htracks, hto, hreplies⟩ := run_hashWords hm ht hq ho
  obtain ⟨hD, hH⟩ := htracks.digest hf
  exact ⟨t, hrun, hf, hD, hH, Chip.Inv.noError_of_done hti hf, hto, by rw [hreplies, ackResp_eq]⟩

/-! The digest read back. -/

/-- RDHEX words in DONE: each returns its character. -/
theorem run_reads {s : State} {d : Vector Byte 64} (is : List (BitVec 6)) (ws : List Cmd) (ht : s.turns = [])
    (hf : s.chip.fsm = .done) (hd : s.chip.DIG = some d) (ho : s.offers = ws)
    (hws : ws.map decodeCmd = is.map Instr.rdhex) :
    ∃ t, run ws.length s = .next t ∧ t.offers = [] ∧
      t.replies = s.replies ++ is.map fun i => valueResp (d[i.toNat]'i.isLt) := by
  induction is generalizing s ws with
  | nil =>
    obtain rfl : ws = [] := List.map_eq_nil_iff.mp hws
    exact ⟨s, run_zero s, ho, by simp⟩
  | cons i is ih =>
    obtain ⟨w, ws, rfl, hw, hws⟩ := List.map_eq_cons_iff.mp hws
    have hstep := step_of_quiescent ht (by rw [hf]; rfl) ho
    rw [hw] at hstep
    replace hstep := hstep.trans (execRdhex_of_done hf hd i)
    obtain ⟨t, hrun, hto, hreplies⟩ := ih (s := s.accept s.chip (valueResp (d[i.toNat]'i.isLt))) ws ht hf hd
      (by rw [State.accept_offers, ho, List.tail_cons]) hws
    refine ⟨t, (run_succ_of_next hstep).trans hrun, hto, ?_⟩
    rw [hreplies, State.accept_replies, List.map_cons, List.append_assoc, List.singleton_append]

/-- READDIGEST's indices are all 64, in order. -/
theorem map_valueResp_indices (d : Vector Byte 64) :
    ((List.range 64).map (BitVec.ofNat 6)).map (fun i => valueResp (d[i.toNat]'i.isLt)) =
      d.toList.map fun c => 0xC000#16 ||| c.setWidth 16 := by
  refine List.ext_getElem (by simp) fun i hi _ => ?_
  have hi : i < 64 := by simpa using hi
  simp [valueResp_eq, Nat.mod_eq_of_lt hi]

/-- Settles O56: the job, and then 64 reads in DONE. -/
theorem hostSequenceReadsSha256 : Obligations.HostSequenceReadsSha256 := by
  intro s m hm ht hq ho
  obtain ⟨t, q, hrun, -, htt, hf, htracks, hto, hreplies⟩ := run_hashWords hm ht hq ho
  obtain ⟨u, hread, huo, hur⟩ := run_reads ((List.range 64).map (BitVec.ofNat 6)) readDigestWords htt hf
    (htracks.digest hf).1 hto (by rw [decodeCmd_readDigestWords, List.map_map]; rfl)
  refine ⟨u, (run_add hrun).trans hread, huo, ?_⟩
  rw [hur, hreplies, ackResp_eq, map_valueResp_indices]

/-! The job under any interleaving. -/

/-- A word of a reading command (R70). -/
def isRead (w : Cmd) : Bool := readsOnly (decodeCmd w)

theorem op_of_isRead {w : Cmd} (hw : isRead w = true) :
    legal w = true ∧ (Cmd.op w = 0x0#4 ∨ Cmd.op w = 0x4#4 ∨ Cmd.op w = 0x5#4) := by
  cases hl : legal w with
  | false => simp [isRead, decodeCmd_of_not_legal hl, readsOnly] at hw
  | true =>
    obtain ⟨ho, -⟩ | ⟨-, hd⟩ | ⟨-, hd⟩ | ⟨-, hd⟩ | ⟨ho, -⟩ | ⟨ho, -⟩ := decodeCmd_of_legal hl
    · exact ⟨rfl, .inl ho⟩
    · simp [isRead, hd, readsOnly] at hw
    · simp [isRead, hd, readsOnly] at hw
    · simp [isRead, hd, readsOnly] at hw
    · exact ⟨rfl, .inr (.inl ho)⟩
    · exact ⟨rfl, .inr (.inr ho)⟩

/-- A reading command that answers is accepted and leaves the chip as it is. -/
theorem exec_read {s t : State} {w : Cmd} (hw : isRead w = true) (h : exec (decodeCmd w) s = .next t) :
    ∃ r, t = s.accept s.chip r := by
  obtain ⟨hl, hop⟩ := op_of_isRead hw
  have hno {o : BitVec 4} (ho : Cmd.op w = o) : o ≠ 0x2#4 ∧ o ≠ 0x3#4 := by
    obtain hop | hop | hop := hop <;> rw [← ho, hop] <;> decide
  obtain ⟨hi, -⟩ | ⟨hi, -⟩ | ⟨-, -, r, ht⟩ | ⟨rfl, -⟩ | ⟨-, ho, -⟩ | ⟨-, ho, -⟩ | ⟨-, ho, -⟩ |
    ⟨-, ho | ho, -⟩ | ⟨-, ho | ho, -⟩ := exec_offered_cases h
  case inr.inr.inl => exact ⟨r, ht⟩
  case inr.inr.inr.inl => exact absurd hw (by decide)
  case inl | inr.inl => simp [hi] at hl
  all_goals simpa using hno ho

/-- A job in progress with only reading commands beside the words it waits for, and no reset to come. -/
structure State.InJob (s : State) (m : List Byte) (q : Nat) : Prop where
  inv : s.Inv
  limit : m.length ≤ s.maxMsgBytes.val
  noReset : Turn.reset ∉ s.turns
  tracks : s.chip.Tracks m q
  offers : s.offers.filter (fun w => !isRead w) = s.chip.pending m q

/-- What is left in a job: the steps of the job, and the words on offer. -/
def State.left (s : State) (m : List Byte) (q : Nat) : Nat := s.chip.jobLeft m q + s.offers.length

/-- A step in a job: the job goes on, and with no turn fixed less of it is left, unless it is done. -/
def State.JobStep (s : State) (m : List Byte) (q : Nat) : Prop :=
  ∃ t q', step s = .next t ∧ t.InJob m q' ∧ t.turns = s.turns.tail ∧
    (s.turns = [] → s.chip.fsm ≠ .done → t.left m q' < s.left m q)

section
variable {s : State} {m : List Byte} {q : Nat}

theorem Chip.Tracks.pending_of_done {c : Chip} (h : c.Tracks m q) (hf : c.fsm = .done) : c.pending m q = [] := by
  have hleft := h.jobLeft_of_done hf
  have hps : c.padStage ≠ .none := fun hps => by simp [Chip.jobLeft, hps] at hleft
  exact if_neg hps

theorem Chip.Inv.pending_ne_nil_of_absorb {c : Chip} {M : Nat} (hi : c.Inv M) (hf : c.fsm = .absorb) :
    c.pending m q ≠ [] := by
  have hown := hi.ownInv
  simp only [Chip.OwnInv, hf] at hown
  simp [Chip.pending, hown.1]

/-- The words a job waits for are DATA and END. -/
theorem Chip.op_of_mem_pending {c : Chip} {w : Cmd} (hw : w ∈ c.pending m q) :
    Cmd.op w = 0x2#4 ∨ Cmd.op w = 0x3#4 := by
  unfold Chip.pending at hw
  split at hw
  · obtain hw | hw := List.mem_append.mp hw
    · obtain ⟨b, -, rfl⟩ := List.mem_map.mp hw
      exact .inl (by rw [data_word_eq, Cmd.op_cmdWord])
    · obtain rfl := List.mem_singleton.mp hw
      exact .inr (by decide)
  · simp at hw

theorem State.nextTurn_ne_reset (h : Turn.reset ∉ s.turns) : s.nextTurn ≠ .reset := by
  unfold State.nextTurn
  split
  · next u us hu => rintro rfl; simp [hu] at h
  · split <;> simp

theorem State.InJob.noReset_tail (h : s.InJob m q) : Turn.reset ∉ s.turns.tail :=
  fun hmem => h.noReset (List.mem_of_mem_tail hmem)

/-- A turn that passes leaves the job as it is. -/
theorem State.InJob.pass (h : s.InJob m q) (hstep : step s = .next s.endTurn)
    (hfixed : s.turns = [] → s.chip.fsm = .done) : s.JobStep m q :=
  ⟨s.endTurn, q, hstep, ⟨h.inv, h.limit, h.noReset_tail, h.tracks, h.offers⟩, rfl,
    fun ht hf => absurd (hfixed ht) hf⟩

theorem State.InJob.engine_step (h : s.InJob m q) (hu : s.nextTurn = .engine) : s.JobStep m q := by
  obtain ⟨c', hop⟩ := Chip.Inv.operation_answers h.inv
  have hstep := step_of_operation hu h.inv.r40 hop
  by_cases hb : s.chip.busy = true
  · obtain ⟨q', ⟨htracks, hleft⟩, hp⟩ := h.tracks.operation_advances h.inv hb hop
    refine ⟨_, q', hstep, ⟨step_keeps_inv h.inv hstep, h.limit, h.noReset_tail, htracks, h.offers.trans hp.symm⟩,
      rfl, fun _ _ => ?_⟩
    simp only [State.left, State.withChip_chip, State.withChip_offers, State.endTurn_offers]
    omega
  · have hq : s.chip.fsm.quiescent = true := by
      obtain hf | hf | hf := h.tracks.absorb_or_busy_or_done
      · rw [hf]; rfl
      · exact absurd hf hb
      · rw [hf]; rfl
    refine h.pass (step_of_engine_quiescent hu hq) fun ht => ?_
    rw [State.nextTurn_of_quiescent ht hq] at hu
    cases hu

/-- A host that is idle, or whose word is held, waits. -/
theorem State.InJob.absorb_or_done_of_host (h : s.InJob m q) (hu : s.nextTurn = .host) (ht : s.turns = []) :
    s.chip.fsm = .absorb ∨ s.chip.fsm = .done := by
  obtain hf | hb | hf := h.tracks.absorb_or_busy_or_done
  · exact .inl hf
  · rw [State.nextTurn_of_busy ht hb] at hu
    cases hu
  · exact .inr hf

theorem State.InJob.host_idle (h : s.InJob m q) (hu : s.nextTurn = .host) (ho : s.offers = []) :
    s.JobStep m q := by
  refine h.pass (step_of_host_nil hu ho h.inv.used) fun ht => ?_
  obtain hf | hf := h.absorb_or_done_of_host hu ht
  · have hp := h.offers
    rw [ho, List.filter_nil] at hp
    exact absurd hp.symm (Chip.Inv.pending_ne_nil_of_absorb h.inv hf)
  · exact hf

theorem State.InJob.host_read {w : Cmd} {ws : List Cmd} (h : s.InJob m q) (hu : s.nextTurn = .host)
    (ho : s.offers = w :: ws) (hw : isRead w = true) : s.JobStep m q := by
  obtain ⟨t, hexec⟩ := exec_offered_answers (s := s.endTurn) h.inv w
  obtain ⟨r, rfl⟩ := exec_read hw hexec
  have hp := h.offers
  rw [ho, List.filter_cons_of_neg (by simp [hw])] at hp
  refine ⟨_, q, (step_of_host_cons hu ho).trans hexec, ⟨h.inv, h.limit, h.noReset_tail, h.tracks, ?_⟩, rfl,
    fun _ _ => ?_⟩
  · rw [State.accept_offers, State.endTurn_offers, ho, List.tail_cons]
    exact hp
  · simp [State.left, ho]

theorem State.InJob.host_word {w : Cmd} {ws : List Cmd} (h : s.InJob m q) (hu : s.nextTurn = .host)
    (ho : s.offers = w :: ws) (hw : isRead w = false) : s.JobStep m q := by
  have hp := h.offers
  rw [ho, List.filter_cons_of_pos (by simp [hw])] at hp
  obtain hf | hb | hf := h.tracks.absorb_or_busy_or_done
  · obtain ⟨w', ws', c', q', hp', hexec, ⟨htracks, hleft⟩, hpending⟩ :=
      Chip.Tracks.next_word (s := s.endTurn) h.tracks h.inv h.limit hf
    obtain ⟨rfl, rfl⟩ := List.cons_eq_cons.mp (hp.trans hp')
    have hstep := (step_of_host_cons hu ho).trans hexec
    refine ⟨_, q', hstep, ⟨step_keeps_inv h.inv hstep, h.limit, h.noReset_tail, htracks, ?_⟩, rfl, fun _ _ => ?_⟩
    · rw [State.accept_offers, State.endTurn_offers, ho, List.tail_cons, State.accept_chip, hpending]
    · simp only [State.left, State.accept_chip, State.accept_offers, State.endTurn_offers, ho, List.tail_cons,
        List.length_cons]
      simp only [State.endTurn_chip] at hleft
      omega
  · have hop : Cmd.op w = 0x2#4 ∨ Cmd.op w = 0x3#4 := Chip.op_of_mem_pending (c := s.chip) (m := m) (q := q) (by
      rw [← hp]; exact List.mem_cons_self)
    have hheld := exec_offered_of_held (s := s.endTurn) (Chip.cmdReady_eq_false_iff.mpr ⟨hop, hb⟩)
    refine h.pass ((step_of_host_cons hu ho).trans hheld) fun ht => ?_
    rw [State.nextTurn_of_busy ht hb] at hu
    cases hu
  · rw [h.tracks.pending_of_done hf] at hp
    cases hp

/-- Whoever steps, the job goes on. -/
theorem State.InJob.step (h : s.InJob m q) : s.JobStep m q := by
  cases hu : s.nextTurn with
  | reset => exact absurd hu (State.nextTurn_ne_reset h.noReset)
  | engine => exact h.engine_step hu
  | host =>
    cases ho : s.offers with
    | nil => exact h.host_idle hu ho
    | cons w ws =>
      cases hw : isRead w with
      | true => exact h.host_read hu ho hw
      | false => exact h.host_word hu ho hw

/-- With the turns used up, less and less of the job is left. -/
theorem run_to_done_unscheduled (n : Nat) (h : s.InJob m q) (ht : s.turns = []) (hn : s.left m q ≤ n) :
    ∃ k t q', run k s = .next t ∧ t.InJob m q' ∧ t.chip.fsm = .done := by
  induction n generalizing s q with
  | zero =>
    refine ⟨0, s, q, run_zero s, h, by_contra fun hf => ?_⟩
    have := Chip.jobLeft_pos_of_not_done m q hf
    simp only [State.left] at hn
    omega
  | succ n ih =>
    by_cases hf : s.chip.fsm = .done
    · exact ⟨0, s, q, run_zero s, h, hf⟩
    · obtain ⟨t, q', hstep, ht', htt, hless⟩ := h.step
      have hless := hless ht hf
      obtain ⟨k, u, q'', hrun, hu, hdone⟩ := ih ht' (by rw [htt, ht]; rfl) (by omega)
      exact ⟨k + 1, u, q'', (run_succ_of_next hstep).trans hrun, hu, hdone⟩

/-- The fixed turns first, whatever they are. -/
theorem run_to_done (us : List Turn) (h : s.InJob m q) (ht : s.turns = us) :
    ∃ k t q', run k s = .next t ∧ t.InJob m q' ∧ t.chip.fsm = .done := by
  induction us generalizing s q with
  | nil => exact run_to_done_unscheduled _ h ht le_rfl
  | cons u us ih =>
    obtain ⟨t, q', hstep, ht', htt, -⟩ := h.step
    obtain ⟨k, v, q'', hrun, hv, hdone⟩ := ih ht' (by rw [htt, ht]; rfl)
    exact ⟨k + 1, v, q'', (run_succ_of_next hstep).trans hrun, hv, hdone⟩

/-- START opens the job. -/
theorem run_to_job_of_host {ws : List Cmd} (hu : s.nextTurn = .host) (hm : m.length ≤ s.maxMsgBytes.val)
    (hq : s.chip.fsm.quiescent = true) (hr : Turn.reset ∉ s.turns) (ho : s.offers = 0x1000#16 :: ws)
    (hws : ws.filter (fun w => !isRead w) = msgWords m ++ [0x3000#16]) :
    ∃ k t, run k s = .next t ∧ t.InJob m 0 := by
  refine ⟨1, _, run_succ_of_next (step_of_start hu ho (Fsm.used_of_quiescent hq)), s.chip.inv_openJob _, hm,
    fun hmem => hr (List.mem_of_mem_tail hmem), s.chip.openJob_tracks m, ?_⟩
  rw [State.accept_offers, State.endTurn_offers, ho, List.tail_cons, hws, State.accept_chip, Chip.openJob_pending]

/-- The job opens at the host's first turn; the engine has no step before it. -/
theorem run_to_job {ws : List Cmd} (us : List Turn) (ht : s.turns = us) (hm : m.length ≤ s.maxMsgBytes.val)
    (hq : s.chip.fsm.quiescent = true) (hr : Turn.reset ∉ s.turns) (ho : s.offers = 0x1000#16 :: ws)
    (hws : ws.filter (fun w => !isRead w) = msgWords m ++ [0x3000#16]) :
    ∃ k t, run k s = .next t ∧ t.InJob m 0 := by
  induction us generalizing s with
  | nil => exact run_to_job_of_host (State.nextTurn_of_quiescent ht hq) hm hq hr ho hws
  | cons u us ih =>
    have hu : s.nextTurn = u := by simp [State.nextTurn, ht]
    cases u with
    | host => exact run_to_job_of_host hu hm hq hr ho hws
    | reset => exact absurd hu (State.nextTurn_ne_reset hr)
    | engine =>
      have hr' : Turn.reset ∉ s.endTurn.turns := fun hmem => hr (List.mem_of_mem_tail hmem)
      obtain ⟨k, t, hrun, hjob⟩ := ih (s := s.endTurn) (by rw [State.endTurn_turns, ht]; rfl) hm hq hr' ho
      exact ⟨k + 1, t, (run_succ_of_next (step_of_engine_quiescent hu hq)).trans hrun, hjob⟩

end

/-- Settles O57: the job opens, and whoever steps it goes on to DONE. -/
theorem digestIndependentOfInterleaving : Obligations.DigestIndependentOfInterleaving := by
  intro s m ws hm hq hr ho hws
  obtain ⟨k₁, t, hrun₁, ht⟩ := run_to_job s.turns rfl hm hq hr ho hws
  obtain ⟨k₂, u, q, hrun₂, hu, hf⟩ := run_to_done t.turns ht rfl
  exact ⟨k₁ + k₂, u, (run_add hrun₁).trans hrun₂, hf, (hu.tracks.digest hf).1, Chip.Inv.noError_of_done hu.inv hf⟩

end Sys2Proof.Machine
end

section
/-! PROOFS. Noninterference (spec/20_memory.md R76): chips that differ only where nothing of this job is held
behave alike. -/
namespace Sys2Proof.Machine

/-! Chips alike. -/

/-- The parts of the datapath that hold something of the current job, in the state `fsm` is in. -/
def Chip.LiveEq (c : Chip) (V : Option Work) (W : Vector (Option Word) 64) (B : Vector (Option Byte) 64)
    (DIG : Option (Vector Byte 64)) : Prop :=
  match c.fsm with
  | .absorb | .pad | .load => ∀ i : Fin 64, i.val < c.bc.toNat → B[i] = c.B[i]
  | .expand => V = c.V ∧ ∀ i : Fin 64, i.val < c.t.toNat → W[i] = c.W[i]
  | .round => V = c.V ∧ W = c.W
  | .final => V = c.V
  | .done => DIG = c.DIG
  | .idle | .serialize | .error | .unused _ => True

/-- Two chips that differ only in what they hold of an earlier job. -/
def Chip.Alike (c c' : Chip) : Prop :=
  ∃ V W B DIG, c' = { c with V := V, W := W, B := B, DIG := DIG } ∧ c.LiveEq V W B DIG

section
variable {c c' d : Chip} {m : Nat}

theorem Chip.Alike.refl (c : Chip) : c.Alike c := by
  refine ⟨c.V, c.W, c.B, c.DIG, rfl, ?_⟩
  unfold Chip.LiveEq
  split <;> simp

theorem Chip.Alike.fsm (h : c.Alike c') : c'.fsm = c.fsm := by
  obtain ⟨V, W, B, DIG, rfl, -⟩ := h; rfl

theorem Chip.Alike.outputs (h : c.Alike c') : c'.status = c.status ∧ c'.irq = c.irq := by
  obtain ⟨V, W, B, DIG, rfl, -⟩ := h; exact ⟨rfl, rfl⟩

theorem Chip.Alike.cmdReady (h : c.Alike c') (w : Cmd) : c'.cmdReady w = c.cmdReady w := by
  obtain ⟨V, W, B, DIG, rfl, -⟩ := h; rfl

theorem Chip.Alike.digest (h : c.Alike c') (hf : c.fsm = .done) : c'.DIG = c.DIG := by
  obtain ⟨V, W, B, DIG, rfl, hlive⟩ := h
  simpa only [Chip.LiveEq, hf] using hlive

/-- What R40 asks for is held of the current job. -/
theorem Chip.Alike.r40 (h : c.Alike c') (hr : c.R40 m) : c'.R40 m := by
  obtain ⟨V, W, B, DIG, rfl, hlive⟩ := h
  obtain ⟨hany, hrow⟩ := Chip.r40_iff.mp hr
  refine Chip.r40_iff.mpr ⟨hany, ?_⟩
  cases hf : c.fsm with simp only [Chip.meetsOwnRow, hf, Chip.LiveEq] at hrow hlive ⊢
  | expand =>
    obtain ⟨hbc, hlow, hW⟩ := of_decide_eq_true hrow
    exact decide_eq_true ⟨hbc, hlow, fun i hi => by rw [hlive.2 i hi]; exact hW i hi⟩
  | done => rw [hlive]; exact hrow
  | idle | absorb | pad | load | round | final | serialize | error => exact hrow

/-! What the effects of a step leave alike. -/

theorem Chip.Alike.openJob (h : c.Alike c') : c.openJob.Alike c'.openJob := by
  obtain ⟨V, W, B, DIG, rfl, -⟩ := h
  exact ⟨V, W, B, DIG, rfl, fun i hi => by simp at hi⟩

theorem Chip.Alike.raise (h : c.Alike c') (e : ErrorKind) : (c.raise e).Alike (c'.raise e) := by
  obtain ⟨V, W, B, DIG, rfl, -⟩ := h
  cases e <;> exact ⟨V, W, B, DIG, rfl, trivial⟩

theorem Chip.Alike.endAbsorb (h : c.Alike c') (hf : c.fsm = .absorb) :
    ({ c with padStage := .mark, fsm := .pad } : Chip).Alike { c' with padStage := .mark, fsm := .pad } := by
  obtain ⟨V, W, B, DIG, rfl, hlive⟩ := h
  simp only [Chip.LiveEq, hf] at hlive
  exact ⟨V, W, B, DIG, rfl, hlive⟩

theorem Chip.Alike.withStage (h : c.Alike c') (ps : PadStage) :
    ({ c with padStage := ps } : Chip).Alike { c' with padStage := ps } := by
  obtain ⟨V, W, B, DIG, rfl, hlive⟩ := h
  exact ⟨V, W, B, DIG, rfl, hlive⟩

/-- One more index written with the same value. -/
theorem eq_of_write {α : Type} {B B' : Vector (Option α) 64} {n : Nat} (hn : n < 64) {v : Option α}
    (h : ∀ i : Fin 64, i.val < n → B'[i] = B[i]) (i : Fin 64) (hi : i.val < n + 1) :
    (B'.set n v)[i] = (B.set n v)[i] := by
  by_cases heq : n = i.val
  · simp [heq]
  · simp only [Fin.getElem_fin, Vector.getElem_set_ne _ _ heq]
    exact h i (by omega)

theorem Chip.Alike.append {v : Byte} {ps : PadStage} (h : c.Alike c')
    (hf : c.fsm = .absorb ∨ c.fsm = .pad) (hop : c.append v ps = .ok d) :
    ∃ d', c'.append v ps = .ok d' ∧ d.Alike d' := by
  have hle := Chip.le_of_append_ok hop
  rw [Chip.append_of_le v ps hle] at hop
  obtain rfl := Except.ok.inj hop
  obtain ⟨V, W, B, DIG, rfl, hlive⟩ := h
  have hB := eq_of_write (B := c.B) (B' := B) (v := some v) (n := c.bc.toNat) (by omega) fun i hi => by
    obtain hf | hf := hf <;> (simp only [Chip.LiveEq, hf] at hlive; exact hlive i hi)
  refine ⟨_, Chip.append_of_le (c := { c with V := V, W := W, B := B, DIG := DIG }) v ps hle,
    V, W, _, DIG, rfl, ?_⟩
  by_cases h63 : c.bc = 63#7
  · have h63' : c.bc.toNat = 63 := by rw [h63]; rfl
    simp only [Chip.LiveEq, if_pos h63]
    exact fun i _ => hB i (by omega)
  · have hsucc := bc_toNat_succ hle
    obtain hf | hf := hf <;> simp only [Chip.LiveEq, if_neg h63, hf, hsucc] <;> exact hB

theorem Chip.Alike.padOp (h : c.Alike c') (hf : c.fsm = .pad) (hop : padOp c = .ok d) :
    ∃ d', Machine.padOp c' = .ok d' ∧ d.Alike d' := by
  have halike := h
  obtain ⟨V, W, B, DIG, rfl, -⟩ := h
  unfold Machine.padOp at hop ⊢
  cases hs : c.padStage with simp only [hs] at hop ⊢
  | none => cases hop
  | mark => exact (halike.withStage .fill).append (.inr hf) hop
  | fill =>
    by_cases h56 : c.bc = 56#7
    · simp only [if_pos h56] at hop ⊢
      exact (halike.withStage .len).append (.inr hf) hop
    · simp only [if_neg h56] at hop ⊢
      simpa only [hs] using halike.append (.inr hf) hop
  | len =>
    by_cases h57 : 57 ≤ c.bc.toNat
    · simp only [if_pos h57] at hop ⊢
      simpa only [hs] using halike.append (.inr hf) hop
    · simp only [if_neg h57] at hop
      cases hop

theorem Chip.Alike.loadOp (h : c.Alike c') (hf : c.fsm = .load) (hop : loadOp c = .ok d) :
    ∃ d', Machine.loadOp c' = .ok d' ∧ d.Alike d' := by
  obtain ⟨V, W, B, DIG, rfl, hlive⟩ := h
  simp only [Chip.LiveEq, hf] at hlive
  obtain ⟨hbc, bytes, H, hB, hH, rfl⟩ := loadOp_eq_ok_iff.mp hop
  have hB' (i : Fin 64) : B[i] = some bytes[i] := (hlive i (by rw [hbc]; exact i.isLt)).trans (hB i)
  refine ⟨_, loadOp_eq_ok_iff.mpr ⟨hbc, bytes, H, hB', hH, rfl⟩, _, _, B, DIG, rfl, rfl, fun i hi => ?_⟩
  have hi16 : i.val < 16 := hi
  simp only [loadSchedule_get, dif_pos hi16]

theorem Chip.Alike.expandOp (h : c.Alike c') (hf : c.fsm = .expand) (hop : expandOp c = .ok d) :
    ∃ d', Machine.expandOp c' = .ok d' ∧ d.Alike d' := by
  obtain ⟨V, W, B, DIG, rfl, hlive⟩ := h
  simp only [Chip.LiveEq, hf] at hlive
  obtain ⟨rfl, hW⟩ := hlive
  obtain ⟨hlow, w2, w7, w15, w16, h2, h7, h15, h16, rfl⟩ := expandOp_eq_ok_iff.mp hop
  have hbelow (k : Nat) {w : Word} (hw : c.schedule? (c.t.toNat - k) = some w) (hk : 0 < k := by decide) :
      ({ c with V := c.V, W := W, B := B, DIG := DIG } : Chip).schedule? (c.t.toNat - k) = some w := by
    have hlt := c.t.isLt
    rw [Chip.schedule?_of_lt (by omega)] at hw ⊢
    exact (hW ⟨c.t.toNat - k, by omega⟩ (by simp only; omega)).trans hw
  have hW' := eq_of_write (v := some (scheduleWord w2 w7 w15 w16)) c.t.isLt hW
  refine ⟨_, expandOp_eq_ok_iff.mpr ⟨hlow, w2, w7, w15, w16, hbelow 2 h2, hbelow 7 h7, hbelow 15 h15,
    hbelow 16 h16, rfl⟩, _, _, B, DIG, rfl, ?_⟩
  by_cases h63 : c.t = 63#6
  · have h63' : c.t.toNat = 63 := by rw [h63]; rfl
    simp only [Chip.LiveEq, if_pos h63]
    exact ⟨trivial, Vector.ext fun i hi => hW' ⟨i, hi⟩ (by rw [h63']; exact hi)⟩
  · simp only [Chip.LiveEq, if_neg h63, hf, nextCount_of_ne_63 h63, toNat_succ_of_ne_63 h63]
    exact ⟨trivial, hW'⟩

theorem Chip.Alike.roundOp (h : c.Alike c') (hf : c.fsm = .round) (hop : roundOp c = .ok d) :
    ∃ d', Machine.roundOp c' = .ok d' ∧ d.Alike d' := by
  obtain ⟨V, W, B, DIG, rfl, hlive⟩ := h
  simp only [Chip.LiveEq, hf] at hlive
  obtain ⟨rfl, rfl⟩ := hlive
  obtain ⟨v, w, hv, hw, rfl⟩ := roundOp_eq_ok_iff.mp hop
  refine ⟨_, roundOp_eq_ok_iff.mpr ⟨v, w, hv, hw, rfl⟩, _, _, B, DIG, rfl, ?_⟩
  by_cases h63 : c.t = 63#6
  · simp only [Chip.LiveEq, if_pos h63]
  · simp only [Chip.LiveEq, if_neg h63, hf]
    exact ⟨trivial, trivial⟩

/-- FINAL leaves an empty block (R40), so nothing of B is held. -/
theorem Chip.Alike.finalOp (h : c.Alike c') (hr : c.R40 m) (hf : c.fsm = .final) (hop : finalOp c = .ok d) :
    ∃ d', Machine.finalOp c' = .ok d' ∧ d.Alike d' := by
  obtain ⟨V, W, B, DIG, rfl, hlive⟩ := h
  simp only [Chip.LiveEq, hf] at hlive
  subst hlive
  obtain ⟨hbc, -⟩ := hr.final hf
  obtain ⟨H, v, hH, hv, rfl⟩ := finalOp_eq_ok_iff.mp hop
  refine ⟨_, finalOp_eq_ok_iff.mpr ⟨H, v, hH, hv, rfl⟩, _, W, B, DIG, rfl, ?_⟩
  have hempty (i : Fin 64) (hi : i.val < c.bc.toNat) : B[i] = c.B[i] := by simp [hbc] at hi
  unfold Chip.LiveEq afterFinal
  split_ifs
  · trivial
  · exact hempty
  · exact hempty

theorem Chip.Alike.serializeOp (h : c.Alike c') (hop : serializeOp c = .ok d) :
    ∃ d', Machine.serializeOp c' = .ok d' ∧ d.Alike d' := by
  obtain ⟨V, W, B, DIG, rfl, -⟩ := h
  obtain ⟨H, hH, rfl⟩ := serializeOp_eq_ok_iff.mp hop
  exact ⟨_, serializeOp_eq_ok_iff.mpr ⟨H, hH, rfl⟩, V, W, B, _, rfl, rfl⟩

theorem Chip.Alike.operation (h : c.Alike c') (hr : c.R40 m) (hop : c.operation = .ok d) :
    ∃ d', c'.operation = .ok d' ∧ d.Alike d' := by
  have hfsm := h.fsm
  cases hf : c.fsm with simp only [Chip.operation, hfsm, hf] at hop ⊢
  | pad => exact h.padOp hf hop
  | load => exact h.loadOp hf hop
  | expand => exact h.expandOp hf hop
  | round => exact h.roundOp hf hop
  | final => exact h.finalOp hr hf hop
  | serialize => exact h.serializeOp hop
  | idle | absorb | done | error => exact ⟨c', rfl, Except.ok.inj hop ▸ h⟩
  | unused n => cases hop

end

/-! Machines alike. -/

/-- The machines differ only in what their chips hold of an earlier job, and in the responses before. -/
structure State.Alike (s s' : State) : Prop where
  chip : s.chip.Alike s'.chip
  limit : s'.maxMsgBytes = s.maxMsgBytes
  offers : s'.offers = s.offers
  turns : s'.turns = s.turns

/-- Both have gone on to machines alike, with the same responses. -/
def State.BothAnswer (s s' t : State) (r : Result) : Prop :=
  ∃ t' rs, r = .next t' ∧ t.replies = s.replies ++ rs ∧ t'.replies = s'.replies ++ rs ∧ t.Alike t'

/-- It is enough to know both answers of one instruction. -/
theorem State.BothAnswer.of_exec {s s' t u : State} {r : Result} {i : Instr} (hx : exec i s = .next t)
    (hs : exec i s = .next u) (hs' : exec i s' = r) (h : s.BothAnswer s' u r) :
    s.BothAnswer s' t (exec i s') := by
  obtain rfl := Host.Outcome.next.inj (hs.symm.trans hx)
  rwa [hs']

section
variable {s s' t : State}

theorem State.Alike.endTurn (h : s.Alike s') : s.endTurn.Alike s'.endTurn :=
  ⟨h.chip, h.limit, h.offers, congrArg List.tail h.turns⟩

theorem State.Alike.used (h : s.Alike s') (hu : ∀ n, s.chip.fsm ≠ .unused n) (n : Fin 6) :
    s'.chip.fsm ≠ .unused n := by
  rw [h.chip.fsm]
  exact hu n

theorem State.Alike.nextTurn (h : s.Alike s') : s'.nextTurn = s.nextTurn := by
  simp only [State.nextTurn, h.turns, h.chip.fsm]

theorem State.Alike.accept (h : s.Alike s') {c c' : Chip} (hc : c.Alike c') (r : Resp) :
    s.BothAnswer s' (s.accept c r) (.next (s'.accept c' r)) :=
  ⟨_, [r], rfl, rfl, rfl, hc, h.limit, congrArg List.tail h.offers, h.turns⟩

/-- The chips alone have changed. -/
theorem State.Alike.withChip (h : s.Alike s') {c c' : Chip} (hc : c.Alike c') :
    s.BothAnswer s' (s.withChip c) (.next (s'.withChip c')) :=
  ⟨_, [], rfl, by simp, by simp, hc, h.limit, h.offers, h.turns⟩

theorem State.Alike.stay (h : s.Alike s') : s.BothAnswer s' s (.next s') :=
  ⟨s', [], rfl, by simp, by simp, h⟩

theorem State.Alike.sequencedStep {act act' : Chip → Except Fault Chip} (h : s.Alike s')
    (hact : s.chip.fsm = .absorb → ∀ c, act s.chip = .ok c → ∃ c', act' s'.chip = .ok c' ∧ c.Alike c')
    (hx : sequencedStep act s = .next t) : s.BothAnswer s' t (Machine.sequencedStep act' s') := by
  have hfsm := h.chip.fsm
  obtain ⟨hf, c, hc, rfl⟩ | ⟨hf, rfl⟩ | ⟨hb, rfl⟩ := sequencedStep_eq_next_iff.mp hx
  · obtain ⟨c', hc', halike⟩ := hact hf c hc
    rw [sequencedStep_of_absorb (hfsm.trans hf) hc']
    exact h.accept halike ackResp
  · rw [sequencedStep_of_sequence_error (by rwa [hfsm])]
    exact h.accept (h.chip.raise .seq) ackResp
  · rw [sequencedStep_of_busy (by rwa [Chip.busy, hfsm])]
    exact h.stay

theorem Chip.Alike.dataAbsorb {c c' d : Chip} {m : Nat} {b : Byte} (h : c.Alike c') (hf : c.fsm = .absorb)
    (hop : dataAbsorb m b c = .ok d) : ∃ d', Machine.dataAbsorb m b c' = .ok d' ∧ d.Alike d' := by
  have hL : c'.L = c.L := by obtain ⟨V, W, B, DIG, rfl, -⟩ := h; rfl
  obtain ⟨hm, rfl⟩ | ⟨hm, happ⟩ := dataAbsorb_eq_ok_cases hop
  · exact ⟨_, dataAbsorb_of_limit (by rwa [hL]) b, h.raise .lengthLimit⟩
  · have hcounted : ({ c with L := c.L + 8 } : Chip).Alike { c' with L := c'.L + 8 } := by
      obtain ⟨V, W, B, DIG, rfl, hlive⟩ := h
      exact ⟨V, W, B, DIG, rfl, hlive⟩
    rw [dataAbsorb_of_room b (by rwa [hL])]
    exact hcounted.append (.inl hf) happ

/-- The same word does the same to machines alike. -/
theorem State.Alike.exec_offered (h : s.Alike s') {w : Cmd} (hi : s.Inv) (hx : exec (decodeCmd w) s = .next t) :
    s.BothAnswer s' t (exec (decodeCmd w) s') := by
  have hu := hi.used
  have hu' := h.used hu
  cases hl : legal w with
  | false =>
    rw [decodeCmd_of_not_legal hl] at hx ⊢
    have hready := h.chip.cmdReady w
    cases hr : s.chip.cmdReady w with
    | true =>
      exact .of_exec hx (execIllegal_of_ready hu hr) (execIllegal_of_ready hu' (hready.trans hr))
        (h.accept (h.chip.raise .input) ackResp)
    | false => exact .of_exec hx (execIllegal_of_held hr) (execIllegal_of_held (hready.trans hr)) h.stay
  | true =>
    obtain ⟨-, hd⟩ | ⟨-, hd⟩ | ⟨-, hd⟩ | ⟨-, hd⟩ | ⟨-, hd⟩ | ⟨-, hd⟩ := decodeCmd_of_legal hl <;> rw [hd] at hx ⊢
    · exact .of_exec hx (execNop_of_used hu) (execNop_of_used hu') (h.accept h.chip ackResp)
    · exact .of_exec hx (execStart_of_used hu) (execStart_of_used hu') (h.accept h.chip.openJob ackResp)
    · refine h.sequencedStep (fun hf c hc => ?_) hx
      rw [h.limit]
      exact h.chip.dataAbsorb hf hc
    · refine h.sequencedStep (act := Machine.endAbsorb) (act' := Machine.endAbsorb) (fun hf c hc => ?_) hx
      obtain rfl := Except.ok.inj hc
      exact ⟨_, rfl, h.chip.endAbsorb hf⟩
    · refine .of_exec hx (execRdstat_of_used hu) (execRdstat_of_used hu') ?_
      rw [h.chip.outputs.1]
      exact h.accept h.chip _
    · by_cases hf : s.chip.fsm = .done
      · obtain ⟨-, -, -, -, hsome, -⟩ := hi.r40.done hf
        obtain ⟨d, hdig⟩ := Option.isSome_iff_exists.mp hsome
        exact .of_exec hx (execRdhex_of_done hf hdig _)
          (execRdhex_of_done (h.chip.fsm.trans hf) ((h.chip.digest hf).trans hdig) _) (h.accept h.chip _)
      · exact .of_exec hx (execRdhex_of_not_done hu hf _) (execRdhex_of_not_done hu' (by rwa [h.chip.fsm]) _)
          (h.accept h.chip ackResp)

/-- Machines alike step alike. -/
theorem State.Alike.step (h : s.Alike s') (hi : s.Inv) (hx : step s = .next t) :
    s.BothAnswer s' t (Machine.step s') := by
  have hturn := h.nextTurn
  obtain ⟨hu, rfl⟩ | ⟨hu, ho, rfl⟩ | ⟨hu, w, ws, ho, hw⟩ | ⟨hu, c, hop, rfl⟩ := step_eq_next_agents hx <;>
    rw [hu] at hturn
  · exact (step_of_reset hturn).symm ▸ h.endTurn.withChip (Chip.Alike.refl _)
  · exact (step_of_host_nil hturn (h.offers.trans ho) (h.used hi.used)).symm ▸ h.endTurn.stay
  · exact (step_of_host_cons hturn (h.offers.trans ho)).symm ▸ h.endTurn.exec_offered (s := s.endTurn) hi hw
  · obtain ⟨c', hop', hc⟩ := h.chip.operation hi.r40 hop
    have hr : s'.chip.R40 s'.maxMsgBytes.val := by rw [h.limit]; exact h.chip.r40 hi.r40
    exact (step_of_operation hturn hr hop').symm ▸ h.endTurn.withChip hc

theorem State.Alike.run (h : s.Alike s') (hi : s.Inv) (k : Nat) :
    ∃ t, run k s = .next t ∧ s.BothAnswer s' t (Machine.run k s') := by
  induction k generalizing s s' with
  | zero => exact ⟨s, run_zero s, run_zero s' ▸ h.stay⟩
  | succ k ih =>
    obtain ⟨u, hu⟩ := step_answers hi
    obtain ⟨u', rs₁, hu', hr, hr', halike⟩ := h.step hi hu
    obtain ⟨t, hrun, t', rs₂, hrun', ht, ht', hend⟩ := ih halike (step_keeps_inv hi hu)
    refine ⟨t, (run_succ_of_next hu).trans hrun, t', rs₁ ++ rs₂, (run_succ_of_next hu').trans hrun', ?_, ?_, hend⟩
    · rw [ht, hr, List.append_assoc]
    · rw [ht', hr', List.append_assoc]

end

/-- START leaves chips alike, whatever they held. -/
theorem Chip.openJob_alike (c c' : Chip) : c.openJob.Alike c'.openJob :=
  ⟨c'.V, c'.W, c'.B, c'.DIG, rfl, fun i hi => by simp at hi⟩

/-- Settles O58: after START the chips are alike, and machines alike go on alike. -/
theorem jobsAreIndependentOfThePast : Obligations.JobsAreIndependentOfThePast := by
  intro s₁ s₂ t₁ t₂ hlimit hoffers hturns h₁ h₂ k
  obtain ⟨-, h₁⟩ := unlessUnused_eq_next_iff.mp h₁
  obtain ⟨-, h₂⟩ := unlessUnused_eq_next_iff.mp h₂
  obtain rfl := Host.Outcome.next.inj h₁
  obtain rfl := Host.Outcome.next.inj h₂
  have halike : (s₁.accept s₁.chip.openJob ackResp).Alike (s₂.accept s₂.chip.openJob ackResp) :=
    ⟨Chip.openJob_alike _ _, hlimit.symm, congrArg List.tail hoffers.symm, hturns.symm⟩
  obtain ⟨u₁, hrun₁, u₂, rs, hrun₂, hr₁, hr₂, hu⟩ := halike.run (s₁.chip.inv_openJob _) k
  obtain ⟨hstatus, hirq⟩ := hu.chip.outputs
  exact ⟨u₁, u₂, rs, hrun₁, hrun₂, hr₁, hr₂, hstatus.symm, hirq.symm, hu.offers.symm⟩

end Sys2Proof.Machine
end
